-- ==== Sys2Proof/Word.lean ====
section
/-! DEFINITION. The two word types of BMPDEC: bytes (spec 00_scope.md R7) and host registers (R5, `REG_WIDTH` = 32). -/

namespace Sys2Proof

/-- A byte, bits numbered 7..0 (R7). -/
abbrev Byte := BitVec 8

/-- A 32-bit host register value (R5, R7). -/
abbrev Word := BitVec 32

end Sys2Proof
end

