-- ==== Sys2Proof/Config.lean ====
section
/-! DEFINITION. The implementation parameters of 00_scope.md R5 and the free values. A free value is an opaque
constant: nothing can evaluate it, so a theorem holds whatever it is. -/

namespace Sys2Proof

/-- `rle4AbsUnit` (R5, R99): what the count byte of an RLE4 absolute run counts. -/
inductive AbsUnit where
  | bytes
  | pixels
deriving DecidableEq, Repr

/-- `rle4RunPhase` (R5, R142): the nibble order within an RLE4 encoded run. -/
inductive RunPhase where
  | highFirst
  | parity
deriving DecidableEq, Repr

/-- The parameters an implementation fixes (R5). The capacities are at most 2^32 - 1 by their type. -/
structure Params where
  maxIndexBytes : Fin 4294967296
  maxRowBytes   : Fin 4294967296
  rle4AbsUnit   : AbsUnit
  rle4RunPhase  : RunPhase
  bands16       : Byte
  bps16         : Byte
deriving DecidableEq, Repr

/-- OPEN (R5, decision D7). DESIGN CHOICE: an opaque constant, log 1. Safe. -/
opaque Config.maxIndexBytes : Fin 4294967296

/-- OPEN (R5, decision D7). DESIGN CHOICE: an opaque constant, log 1. Safe. -/
opaque Config.maxRowBytes : Fin 4294967296

/-- OPEN (R5, R179, decision D17). DESIGN CHOICE: an opaque constant, log 1. Safe. -/
opaque Config.bands16 : Byte

/-- OPEN (R5, R179, decision D17). DESIGN CHOICE: an opaque constant, log 1. Safe. -/
opaque Config.bps16 : Byte

/-- What a read of a result register returns while BUSY (R53): any value. DESIGN CHOICE, log 9. Safe. -/
opaque Config.busyRead : Nat → Word

/-- How many bytes an unconstrained source would deliver (R61, R62): any number; `srcAnswer` caps it at `avail`.
DESIGN CHOICE, log 7. Safe. -/
opaque Config.srcDeliver : Nat → Nat

/-- Whether an unconstrained source reports an error (R61, R62): any Boolean. DESIGN CHOICE, log 7. Safe. -/
opaque Config.srcFail : Nat → Bool

/-- The byte an access of a changed source address returns (R63): any value, for each access and each address.
DESIGN CHOICE, log 8. Safe. -/
opaque Config.changedByte : Nat → Nat → Byte

/-- The parameters at reset: the spec's defaults `BYTES` and `HIGH_FIRST` (R5), and the OPEN ones left open. -/
def Params.reset : Params where
  maxIndexBytes := Config.maxIndexBytes
  maxRowBytes := Config.maxRowBytes
  rle4AbsUnit := .bytes
  rle4RunPhase := .highFirst
  bands16 := Config.bands16
  bps16 := Config.bps16

end Sys2Proof
end

