-- ==== Sys2Proof/Syntax.lean ====
section
/-! DEFINITION. The instructions of BMPDEC: one constructor per row of opcode_table.json. -/

namespace Sys2Proof

/-- The RLE decode mode (R120); it is not part of any encoding (R104). -/
inductive Mode where
  | rle8
  | rle4
deriving DecidableEq, Repr

/-- One access of the host to the 256-byte register window (R21, R68): its width in bytes, its offset and, for a
write, its value. A write of another width than 4 is ignored (R68), so its value does not matter. -/
inductive HostAccess where
  | write (width : Nat) (offset : BitVec 8) (v : Word)
  | read  (width : Nat) (offset : BitVec 8)
deriving DecidableEq, Repr

/-- The sixteen rows of the opcode table. An RLE command carries its operand bytes AS FAR AS THE PAYLOAD DELIVERS
THEM: a command the end of the payload cuts short (R134) has fewer literals than its count, no pad or no delta
operands, and is then not well-formed (log 18). -/
inductive Instr where
  /-- RUN8 (R126): `n` pixels of index `v`. -/
  | run8 (n v : Byte)
  /-- RUN4 (R127): `n` pixels of the two nibbles of `v`. -/
  | run4 (n v : Byte)
  /-- EOL (R128). -/
  | eol
  /-- EOB (R129). -/
  | eob
  /-- DELTA (R130) with its operand bytes `(dx, dy)`; `none` when fewer than two bytes remain. -/
  | delta (d : Option (Byte × Byte))
  /-- ABS8 (R131): count byte, the literal bytes present, the pad byte if there is one. -/
  | abs8 (n : Byte) (lits : List Byte) (pad : Option Byte)
  /-- ABS4 (R132): count byte, the literal bytes present, the pad byte if there is one. -/
  | abs4 (n : Byte) (lits : List Byte) (pad : Option Byte)
  /-- PASS1 (R202), the transform of 1-bit rows. -/
  | pass1
  /-- PASS4 (R202), the transform of 4-bit rows. -/
  | pass4
  /-- PASS8 (R202), the transform of 8-bit rows. -/
  | pass8
  /-- PASS16 (R202), the transform of 16-bit rows. -/
  | pass16
  /-- SWAP24 (R203), the transform of 24-bit rows. -/
  | swap24
  /-- COMPACT32 (R204), the transform of 32-bit rows. -/
  | compact32
  /-- START (R223): an aligned 32-bit write to CTRL with bit 0 set; `hi` is bits 31:1, ignored (R22). -/
  | start (hi : BitVec 31)
  /-- REG_WRITE (R221): any other register write. -/
  | regWrite (width : Nat) (offset : BitVec 8) (v : Word)
  /-- REG_READ (R222): a register read. -/
  | regRead (width : Nat) (offset : BitVec 8)
deriving DecidableEq, Repr

/-- The three encoding spaces of the opcode table: a byte string of the RLE payload (R92), the value of `bpp`
(R201), and a host register access (R220). -/
inductive Code where
  | stream (bytes : List Byte)
  | depth (bpp : BitVec 16)
  | access (a : HostAccess)
deriving DecidableEq, Repr

end Sys2Proof
end

