-- ==== Sys2Proof/WellFormed.lean ====
section
/-! DEFINITION. Which instructions are complete instructions of the opcode table: the constraints of its rows, the
lengths of R98 and R99, and the mode of each row. -/

namespace Sys2Proof

/-- The literal byte count `m` of an ABS4 with count byte `n` (R99, R132). -/
def abs4LiteralBytes (u : AbsUnit) (n : Nat) : Nat :=
  match u with
  | .bytes => n
  | .pixels => (n + 1) / 2

/-- An aligned 32-bit access (R68). -/
def aligned32 (width : Nat) (offset : BitVec 8) : Bool :=
  width == 4 && offset.toNat % 4 == 0

/-- The operands of an absolute run are complete: `m` literals, and a pad byte exactly when `m` is odd (R98, R99). -/
def absOperandsComplete (n : Byte) (m : Nat) (lits : List Byte) (pad : Option Byte) : Bool :=
  decide (3 ≤ n.toNat) && lits.length == m && pad.isSome == (m % 2 == 1)

/-- A complete instruction of the table, in mode `m` and with the parameter `rle4AbsUnit = u`. -/
def Instr.wf (u : AbsUnit) (m : Mode) : Instr → Bool
  | .run8 n _ => m == .rle8 && n != 0
  | .run4 n _ => m == .rle4 && n != 0
  | .eol => true
  | .eob => true
  | .delta d => d.isSome
  | .abs8 n lits pad => m == .rle8 && absOperandsComplete n n.toNat lits pad
  | .abs4 n lits pad => m == .rle4 && absOperandsComplete n (abs4LiteralBytes u n.toNat) lits pad
  | .pass1 => true
  | .pass4 => true
  | .pass8 => true
  | .pass16 => true
  | .swap24 => true
  | .compact32 => true
  | .start _ => true
  | .regWrite w off _ => aligned32 w off && off != 0
  | .regRead w off => aligned32 w off

end Sys2Proof
end

