-- ==== Sys2Proof/Decode.lean ====
section
/-! DEFINITION. The decoders of the three encoding spaces, total on every input, and the encoder. -/

namespace Sys2Proof

/-- Why a code is no instruction. The RLE decoder itself rejects only a missing opcode byte (R103, R123). -/
inductive DecodeError where
  /-- No opcode byte is left: `B0` is missing (R123). -/
  | endBeforeB0
  /-- `B0` is there and `B1` is missing (R123). -/
  | endBeforeB1
  /-- Bytes are left over after one command, where one command alone was asked for. -/
  | trailingBytes
  /-- `bpp` selects no row transform (R201, R241). -/
  | unsupportedDepth
deriving DecidableEq, Repr

/-- The operands of an absolute run with `m` literal bytes: the literals present, the pad byte if `m` is odd and it
is present (R98, R99), and the bytes after them. -/
def takeAbsOperands (m : Nat) (bytes : List Byte) : List Byte × Option Byte × List Byte :=
  if m % 2 = 1 then (bytes.take m, (bytes.drop m).head?, (bytes.drop m).tail)
  else (bytes.take m, none, bytes.drop m)

/-- The command whose opcode pair is `(b0, b1)` and what is left of the bytes after it (R93, R124). -/
def decodePair (u : AbsUnit) (m : Mode) (b0 b1 : Byte) (bytes : List Byte) : Instr × List Byte :=
  if b0 ≠ 0 then
    match m with
    | .rle8 => (.run8 b0 b1, bytes)
    | .rle4 => (.run4 b0 b1, bytes)
  else if b1 = 0 then (.eol, bytes)
  else if b1 = 1 then (.eob, bytes)
  else if b1 = 2 then
    match bytes with
    | dx :: dy :: rest => (.delta (some (dx, dy)), rest)
    | _ => (.delta none, bytes)
  else
    match m with
    | .rle8 =>
      let ops := takeAbsOperands b1.toNat bytes
      (.abs8 b1 ops.1 ops.2.1, ops.2.2)
    | .rle4 =>
      let ops := takeAbsOperands (abs4LiteralBytes u b1.toNat) bytes
      (.abs4 b1 ops.1 ops.2.1, ops.2.2)

/-- The RLE command at the head of a byte string, and the bytes after it (R90 to R104). -/
def decode (u : AbsUnit) (m : Mode) : List Byte → Except DecodeError (Instr × List Byte)
  | [] => .error .endBeforeB0
  | [_] => .error .endBeforeB1
  | b0 :: b1 :: rest => .ok (decodePair u m b0 b1 rest)

/-- The row transform a depth selects (R201). -/
def decodeDepth (bpp : BitVec 16) : Except DecodeError Instr :=
  if bpp = 1 then .ok .pass1
  else if bpp = 4 then .ok .pass4
  else if bpp = 8 then .ok .pass8
  else if bpp = 16 then .ok .pass16
  else if bpp = 24 then .ok .swap24
  else if bpp = 32 then .ok .compact32
  else .error .unsupportedDepth

/-- The host command an access is (R22, R220, R223): every access is one of START, REG_WRITE and REG_READ, and the
meaning of the last two ignores the accesses of R68. -/
def decodeAccess : HostAccess → Instr
  | .write w off v =>
    if w = 4 ∧ off = 0 ∧ v.getLsbD 0 = true then .start (v.extractLsb' 1 31) else .regWrite w off v
  | .read w off => .regRead w off

/-- One whole code as one instruction. -/
def decodeCode (u : AbsUnit) (m : Mode) : Code → Except DecodeError Instr
  | .stream bytes =>
    match decode u m bytes with
    | .ok (i, []) => .ok i
    | .ok (_, _ :: _) => .error .trailingBytes
    | .error e => .error e
  | .depth bpp => decodeDepth bpp
  | .access a => .ok (decodeAccess a)

/-- The bytes of a pad (R98, R99). -/
def padBytes : Option Byte → List Byte
  | none => []
  | some b => [b]

/-- The code of an instruction, from the formats of R94 to R99, the selections of R201 to R204 and the encodings of
the host rows. -/
def encode : Instr → Code
  | .run8 n v => .stream [n, v]
  | .run4 n v => .stream [n, v]
  | .eol => .stream [0, 0]
  | .eob => .stream [0, 1]
  | .delta none => .stream [0, 2]
  | .delta (some (dx, dy)) => .stream [0, 2, dx, dy]
  | .abs8 n lits pad => .stream (0 :: n :: (lits ++ padBytes pad))
  | .abs4 n lits pad => .stream (0 :: n :: (lits ++ padBytes pad))
  | .pass1 => .depth 1
  | .pass4 => .depth 4
  | .pass8 => .depth 8
  | .pass16 => .depth 16
  | .swap24 => .depth 24
  | .compact32 => .depth 32
  | .start hi => .access (.write 4 0 (hi.setWidth 32 <<< 1 ||| 1#32))
  | .regWrite w off v => .access (.write w off v)
  | .regRead w off => .access (.read w off)

/-- The bytes of a stream code; an instruction of another space has none. -/
def Code.bytes : Code → List Byte
  | .stream bs => bs
  | .depth _ => []
  | .access _ => []

/-- The stream bytes of an RLE command. -/
def encodeBytes (i : Instr) : List Byte := (encode i).bytes

/-- The length of a complete command, from `B0`, `B1` and the mode alone (R102). -/
def commandLength (u : AbsUnit) (m : Mode) (b0 b1 : Byte) : Nat :=
  if b0 ≠ 0 then 2
  else if b1.toNat < 2 then 2
  else if b1.toNat = 2 then 4
  else
    let lits := match m with
      | .rle8 => b1.toNat
      | .rle4 => abs4LiteralBytes u b1.toNat
    2 + lits + lits % 2

/-- The longest command, an absolute run of 255 literals with its pad (R98, R99). -/
def longestCommand : Nat := 258

/-- The stream bytes of a number whose bits are numbered as opcode_table.json numbers them: 16-bit words, the first
in the lowest bits, each word `B0 * 256 + B1`, so that its high byte comes first in the stream (R92; log 13). -/
def tableWordBytes : Nat → Nat → List Byte
  | 0, _ => []
  | k + 1, w => BitVec.ofNat 8 (w / 256) :: BitVec.ofNat 8 w :: tableWordBytes k (w / 65536)

/-- Those bytes for a row of `nbits` bits, every bit above them zero, up to the longest command. -/
def tableBytes (nbits w : Nat) : List Byte :=
  tableWordBytes ((longestCommand + 1) / 2) (w % 2 ^ nbits)

/-- The instruction the decoder reads from a table word. The rows' mode is no part of their bits (R104): RLE8 is
taken (log 14). -/
def decodeTableWord (nbits w : Nat) : Option Instr :=
  match decode .bytes .rle8 (tableBytes nbits w) with
  | .ok (i, _) => some i
  | .error _ => none

end Sys2Proof
end

