-- ==== Sys2Proof/Machine/State.lean ====
section
/-! DEFINITION. The state of BMPDEC (10_state.md, 20_memory.md), the reasons a step can stop, and the state after
reset. All of it is plain data. -/

namespace Sys2Proof.Machine

/-- A byte memory: addresses with the bytes they hold, addresses strictly rising, no entry equal to what an unlisted
address reads as (`Memory.wf`, Machine/Ops.lean). -/
abbrev Memory := List Host.Cell

/-- The engine's control state (R33). -/
inductive Phase where
  | idle
  | check
  | rleLoad
  | rleDecode
  | rleEmit
  | rgbRow
  | done
  | error
deriving DecidableEq, Repr

/-- STATUS.PATH (R25). -/
inductive Path where
  | none
  | rgb
  | rle8
  | rle4
deriving DecidableEq, Repr

/-- STATUS.ERR (R26); the codes 6 to 15 are never produced. -/
inductive ErrCode where
  | none
  | unsupportedBitDepth
  | unsupportedCompression
  | invalidGeometry
  | unsupportedCombination
  | resourceExhausted
deriving DecidableEq, Repr

/-- The termination reason of an RLE decode (R30, R49, R121). -/
inductive RleEnd where
  | none
  | eob
  | outFull
  | inEnd
deriving DecidableEq, Repr

/-- The configuration an accepted START latches (R34). `L`, `S` and `stride` are functions of these fields
(Machine/Operands.lean; log 12). -/
structure Latched where
  w      : Int
  hs     : Int
  bpp    : BitVec 16
  comp   : Word
  off    : Nat
  srcLen : Nat
deriving DecidableEq, Repr

/-- One `Emit` (R69): a decoded row handed to the sink. -/
structure EmitEvent where
  row   : BitVec 32
  data  : List Byte
  bands : Byte
  bps   : Byte
  ioErr : Bool
deriving DecidableEq, Repr

/-- One answer of a scripted source: how many bytes it delivers at most, and whether it reports an error (R61). -/
structure SrcAnswer where
  deliver : Nat
  err     : Bool
deriving DecidableEq, Repr

/-- The `SourceModel` parameter (R5, R62; log 7). -/
inductive SourceModel where
  /-- `IdealSource` (R62): always every available byte and no error. -/
  | ideal
  /-- Any answer the laws of R61 allow: free values. -/
  | unconstrained
  /-- One fixed behaviour within the laws of R61: the coming answers in order, ideal after the last. -/
  | scripted (answers : List SrcAnswer)
deriving DecidableEq, Repr

/-- What can come from outside between two engine steps, and the engine's own turn (log 2). -/
inductive Input where
  /-- The host waits: the engine takes one step. -/
  | engine
  /-- A host register access (R220). -/
  | access (a : HostAccess)
  /-- Reset (R220, R270, R271). -/
  | reset
  /-- The host writes a byte of the byte source (R63, R272, R273). -/
  | srcWrite (a : BitVec 32) (b : Byte)
  /-- The sink starts or stops accepting (R70, R276). -/
  | sink (ready : Bool)
deriving DecidableEq, Repr

/-- Everything the spec gives the machine, the environment its rules speak of, and the model's own `inputs`,
`readData` and `draws`. -/
structure State where
  /-- WIDTH (R35). -/
  width         : Word
  /-- HEIGHT (R36). -/
  height        : Word
  /-- BPP (R37), bits 15:0. -/
  bpp           : BitVec 16
  /-- COMP (R38). -/
  comp          : Word
  /-- DATA_OFFSET (R39). -/
  dataOffset    : Word
  /-- SRC_LEN (R40). -/
  srcLen        : Word
  /-- STATUS.PATH (R25). -/
  path          : Path
  /-- STATUS.ERR (R26). -/
  err           : ErrCode
  /-- STATUS.TRUNC (R27). -/
  trunc         : Bool
  /-- STATUS.IOERR (R28). -/
  ioerr         : Bool
  /-- STATUS.PAYLOAD_SHORT (R29). -/
  payloadShort  : Bool
  /-- STRIDE (R41). -/
  stride        : Word
  /-- ROWS_EMITTED (R42). -/
  rowsEmitted   : Word
  /-- IOERR_COUNT (R43). -/
  ioerrCount    : Word
  /-- IOERR_FIRST_ROW (R44). -/
  ioerrFirstRow : Word
  /-- RLE_IN_POS (R45). -/
  rleInPos      : Word
  /-- RLE_OUT_POS (R46). -/
  rleOutPos     : Word
  /-- The engine phase (R33); STATUS.STATE reports it (R24). -/
  phase         : Phase
  /-- The latched configuration (R34). -/
  cfg           : Latched
  /-- The RLE mode of the decode (R120, R141). -/
  mode          : Mode
  /-- The RLE input position (R31). -/
  ip            : Nat
  /-- The RLE output cursor (R32). -/
  op            : Nat
  /-- The display-row counter (R48). -/
  r             : Nat
  /-- The termination reason (R49); STATUS.RLE_END reports it (R30). -/
  rleEnd        : RleEnd
  /-- The payload snapshot `P` (R64). -/
  p             : List Byte
  /-- The index buffer `IDX` (R66). -/
  idx           : Memory
  /-- The row buffer `ROW` (R67). -/
  row           : Memory
  /-- The contents of the byte source (R61). -/
  src           : Memory
  /-- The source addresses the host changed since the accepted START (R63, R273). -/
  srcChanged    : List Nat
  /-- The SourceModel parameter (R5, R62). -/
  srcModel      : SourceModel
  /-- Whether the sink accepts a row now (R70, R276). -/
  sinkReady     : Bool
  /-- The output trace (R69, R78), oldest event first. -/
  trace         : List EmitEvent
  /-- The implementation parameters (R5); no step changes them. -/
  params        : Params
  /-- The bytes the last host read returned, byte 0 first (R68). -/
  readData      : List Byte
  /-- What comes from outside next; when it is empty the engine moves. -/
  inputs        : List Input
  /-- The counter the free values are applied to; every action that may draw one advances it. -/
  draws         : Nat
deriving DecidableEq, Repr

/-- Why the machine stops. No rule of the spec stops it: each of these marks a state the rules never produce. -/
inductive Fault where
  /-- A buffer access outside its bounds (R10: "must fault"). Raised by SWAP24 and COMPACT32 on a row too short for
  their pixels, by RGB_ROW and RLE_EMIT when `r` is not below `L`. Safe. -/
  | outOfBounds
  /-- RGB_ROW with a latched depth that selects no transform (R201 excludes it). Raised by RGB_ROW. Safe. -/
  | depthNotSelected
  /-- RLE_LOAD with a latched compression that selects no RLE mode (R120 excludes it). Raised by RLE_LOAD. Safe. -/
  | modeNotSelected
deriving DecidableEq, Repr

/-- Why an instruction is given no meaning. -/
inductive Refusal where
  /-- The instruction has no meaning in this model yet. Raised by `exec`. Safe. -/
  | notModelled (mnemonic : String)
deriving DecidableEq, Repr

/-- A latched configuration of zeros: R52 leaves it unspecified (DESIGN CHOICE, log 10). -/
def Latched.reset : Latched where
  w := 0
  hs := 0
  bpp := 0
  comp := 0
  off := 0
  srcLen := 0

/-- The machine right after reset (R52, R270). The values R52 leaves unspecified (`cfg`, `mode`, `p`, `idx`, `row`)
and those of the fields outside the block are DESIGN CHOICES (log 2 to 11). -/
def State.reset : State where
  width := 0
  height := 0
  bpp := 0
  comp := 0
  dataOffset := 0
  srcLen := 0
  path := .none
  err := .none
  trunc := false
  ioerr := false
  payloadShort := false
  stride := 0
  rowsEmitted := 0
  ioerrCount := 0
  ioerrFirstRow := 0xFFFFFFFF
  rleInPos := 0
  rleOutPos := 0
  phase := .idle
  cfg := Latched.reset
  mode := .rle8
  ip := 0
  op := 0
  r := 0
  rleEnd := .none
  p := []
  idx := []
  row := []
  src := []
  srcChanged := []
  srcModel := .unconstrained
  sinkReady := true
  trace := []
  params := Params.reset
  readData := []
  inputs := []
  draws := 0

end Sys2Proof.Machine
end

