-- ==== Sys2Proof/Machine/Operands.lean ====
section
/-! DEFINITION. Operand forms: the geometry computed from the latched configuration (R34, R171 to R175), the nibbles
of RLE4 (R100, R142), the parameters of an `Emit` (R179) and the map of the register window (R21). -/

namespace Sys2Proof.Machine

/-- `L = |Hs|`, the row count (R34, R170); exact for every `Hs` (R7). -/
def Latched.rowCount (c : Latched) : Nat := c.hs.natAbs

/-- `W` as a natural number, for the rules that follow CHECK's `W > 0`. -/
def Latched.pixels (c : Latched) : Nat := c.w.toNat

/-- `S = W * L`, the size of IDX (R34, R66). -/
def Latched.size (c : Latched) : Nat := c.pixels * c.rowCount

/-- `stride = ceil(W * bpp / 32) * 4` (R171), unbounded. -/
def Latched.rowStride (c : Latched) : Nat := (c.pixels * c.bpp.toNat + 31) / 32 * 4

/-- The file row `k` display row `r` is read from (R174): bottom-up storage exactly when `Hs > 0`. -/
def Latched.fileRow (c : Latched) (r : Nat) : Nat := if 0 < c.hs then c.rowCount - 1 - r else r

/-- The source address of the stored row display row `r` is read from (R175). -/
def Latched.rowAddress (c : Latched) (r : Nat) : Nat := c.off + c.fileRow r * c.rowStride

/-- The payload extent `Navail` (R65). -/
def Latched.payloadExtent (c : Latched) : Nat := if c.off < c.srcLen then c.srcLen - c.off else 0

/-- The start of display row `r` in IDX (R182): always bottom-up (R184). -/
def Latched.sliceBase (c : Latched) (r : Nat) : Nat := (c.rowCount - 1 - r) * c.pixels

/-- `b[7:4]` (R7, R100), as an index byte. -/
def hiNibble (b : Byte) : Byte := (b.extractLsb' 4 4).setWidth 8

/-- `b[3:0]` (R7, R100), as an index byte. -/
def loNibble (b : Byte) : Byte := (b.extractLsb' 0 4).setWidth 8

/-- The index of pixel `j` of a RUN4 of count `n` and value byte `v` (R127; R142 for PARITY). -/
def runNibble (ph : RunPhase) (n j : Nat) (v : Byte) : Byte :=
  match ph with
  | .highFirst => if j % 2 = 0 then hiNibble v else loNibble v
  | .parity => if (n - j) % 2 = 1 then hiNibble v else loNibble v

/-- The index count `p` of an ABS4 with count byte `n` (R99, R132). -/
def abs4Indices (u : AbsUnit) (n : Nat) : Nat :=
  match u with
  | .bytes => 2 * n
  | .pixels => n

/-- The displacement `dx + dy * W` of a DELTA (R101, R130), unbounded. -/
def deltaPixels (dx dy : Byte) (w : Nat) : Nat := dx.toNat + dy.toNat * w

/-- `bands(bpp)` (R179). -/
def bandsOf (q : Params) (bpp : BitVec 16) : Byte :=
  if bpp = 16 then q.bands16 else if bpp = 24 ∨ bpp = 32 then 3 else 1

/-- `bps(bpp)` (R179). -/
def bpsOf (q : Params) (bpp : BitVec 16) : Byte :=
  if bpp = 16 then q.bps16 else if bpp = 24 ∨ bpp = 32 then 8 else bpp.setWidth 8

/-- `dataBytes(bpp)`, the significant leading bytes of an emitted uncompressed row of `w` pixels (R187). -/
def dataBytes (w : Nat) (bpp : BitVec 16) : Nat :=
  if bpp = 32 then 3 * w else (w * bpp.toNat + 7) / 8

/-- The registers of the host window (R21). -/
inductive HostReg where
  | ctrl
  | status
  | width
  | height
  | bpp
  | comp
  | dataOffset
  | srcLen
  | stride
  | rowsEmitted
  | ioerrCount
  | ioerrFirstRow
  | rleInPos
  | rleOutPos
deriving DecidableEq, Repr

/-- The register at an offset (R21); `none` for the reserved offsets (R47). -/
def HostReg.ofOffset (off : BitVec 8) : Option HostReg :=
  match off.toNat with
  | 0x00 => some .ctrl
  | 0x04 => some .status
  | 0x08 => some .width
  | 0x0C => some .height
  | 0x10 => some .bpp
  | 0x14 => some .comp
  | 0x18 => some .dataOffset
  | 0x1C => some .srcLen
  | 0x20 => some .stride
  | 0x24 => some .rowsEmitted
  | 0x28 => some .ioerrCount
  | 0x2C => some .ioerrFirstRow
  | 0x30 => some .rleInPos
  | 0x34 => some .rleOutPos
  | _ => none

/-- The four bytes of a register, byte `j` holding bits `8j+7..8j` (R68). -/
def leBytes (v : Word) : List Byte :=
  [v.extractLsb' 0 8, v.extractLsb' 8 8, v.extractLsb' 16 8, v.extractLsb' 24 8]

end Sys2Proof.Machine
end

