-- ==== Sys2Proof/Machine/Flags.lean ====
section
/-! DEFINITION. STATUS (R23 to R30): the codes of its fields, the word the host reads, and the flag computations of
the row and RLE units. -/

namespace Sys2Proof.Machine

/-- STATUS.STATE reports the phase (R24, R33). -/
def Phase.stateCode : Phase → BitVec 2
  | .idle => 0
  | .check => 1
  | .rleLoad => 1
  | .rleDecode => 1
  | .rleEmit => 1
  | .rgbRow => 1
  | .done => 2
  | .error => 3

/-- The codes of STATUS.PATH (R25). -/
def Path.code : Path → BitVec 2
  | .none => 0
  | .rgb => 1
  | .rle8 => 2
  | .rle4 => 3

/-- The codes of STATUS.ERR (R26). -/
def ErrCode.code : ErrCode → BitVec 4
  | .none => 0
  | .unsupportedBitDepth => 1
  | .unsupportedCompression => 2
  | .invalidGeometry => 3
  | .unsupportedCombination => 4
  | .resourceExhausted => 5

/-- The codes of STATUS.RLE_END (R30). -/
def RleEnd.code : RleEnd → BitVec 2
  | .none => 0
  | .eob => 1
  | .outFull => 2
  | .inEnd => 3

/-- STATE = 1, a decode is in progress (R24). -/
def State.busy (s : State) : Bool := s.phase.stateCode == 1

/-- The word at STATUS when no decode is in progress (R23): RLE_END in bits 13:12, PAYLOAD_SHORT 10, IOERR 9,
TRUNC 8, ERR 7:4, PATH 3:2, STATE 1:0, every other bit 0. -/
def State.statusWord (s : State) : Word :=
  0#18 ++ s.rleEnd.code ++ 0#1 ++ BitVec.ofBool s.payloadShort ++ BitVec.ofBool s.ioerr ++ BitVec.ofBool s.trunc
    ++ s.err.code ++ s.path.code ++ s.phase.stateCode

/-- The word a read of STATUS returns while BUSY (R53): STATE = 1, the other fields drawn; the reserved bits read 0
(R23; log 9). -/
def busyStatus (draw : Word) : Word := (draw &&& 0x37FC#32) ||| 1#32

/-- `recordIoError(r)` (R177): IOERR, the saturating IOERR_COUNT (R43) and the first row (R44). Its fourth effect, the
`ioErr` of the row's `Emit`, is the argument of `emitRow`. -/
def recordIoError (s : State) : State :=
  { s with
    ioerr := true
    ioerrCount := if s.ioerrCount = 0xFFFFFFFF then s.ioerrCount else s.ioerrCount + 1
    ioerrFirstRow := if s.ioerrFirstRow = 0xFFFFFFFF then BitVec.ofNat 32 s.r else s.ioerrFirstRow }

/-- STATUS.TRUNC at the end of an RLE decode (R136). -/
def truncOf (reason : RleEnd) : Bool := reason == .inEnd

end Sys2Proof.Machine
end

