-- ==== Sys2Proof/Machine/Ops.lean ====
section
/-! DEFINITION. The shared operations: byte memories, the byte source, the sink, the RLE writer and its termination,
the fatal error entry, START's and reset's effect, and the registers as the host reads and writes them. -/

namespace Sys2Proof.Machine

/-! ### Byte memories -/

/-- What an unlisted address reads as. IDX and ROW start as zeros (R66, R67); for the byte source it is a DESIGN
CHOICE (log 6), unsafe. -/
def Memory.unlisted : Byte := 0

/-- The byte at an address. -/
def Memory.read : Memory → Nat → Byte
  | [], _ => Memory.unlisted
  | (k, v) :: rest, a => if k = a then v else Memory.read rest a

/-- Store a byte, keeping the canonical form. -/
def Memory.write : Memory → Nat → Byte → Memory
  | [], a, b => if b = Memory.unlisted then [] else [(a, b)]
  | (k, v) :: rest, a, b =>
    if a < k then (if b = Memory.unlisted then (k, v) :: rest else (a, b) :: (k, v) :: rest)
    else if a = k then (if b = Memory.unlisted then rest else (a, b) :: rest)
    else (k, v) :: Memory.write rest a b

/-- Canonical from address `lo` on: strictly rising, nothing listed that reads as unlisted. -/
def Memory.wfFrom : Nat → Memory → Bool
  | _, [] => true
  | lo, (k, v) :: rest => decide (lo ≤ k) && v != Memory.unlisted && Memory.wfFrom (k + 1) rest

/-- The canonical form of a memory. -/
def Memory.wf (m : Memory) : Bool := Memory.wfFrom 0 m

/-- Store bytes at rising addresses from `a`. -/
def Memory.writeAll : Memory → Nat → List Byte → Memory
  | m, _, [] => m
  | m, a, b :: bs => Memory.writeAll (m.write a b) (a + 1) bs

/-- The `n` bytes from address `a` (R8, `s[i .. i+n)`). -/
def Memory.slice (m : Memory) (a n : Nat) : List Byte := (List.range n).map fun j => m.read (a + j)

/-! ### The byte source -/

/-- How many bytes the source has at `addr`, at most `n` (R61, `avail`). -/
def srcAvail (srcLen addr n : Nat) : Nat :=
  if addr + n ≤ srcLen then n else if addr < srcLen then srcLen - addr else 0

/-- How many of `avail` bytes the source delivers now, and whether it reports an error (R61, R62; log 7). -/
def srcAnswer (s : State) (avail : Nat) : Nat × Bool :=
  match s.srcModel with
  | .ideal => (avail, false)
  | .unconstrained => (min avail (Config.srcDeliver s.draws), Config.srcFail s.draws)
  | .scripted [] => (avail, false)
  | .scripted (a :: _) => (min avail a.deliver, a.err)

/-- The source model after one answer. -/
def SourceModel.next : SourceModel → SourceModel
  | .ideal => .ideal
  | .unconstrained => .unconstrained
  | .scripted [] => .scripted []
  | .scripted (_ :: rest) => .scripted rest

/-- The byte a read finds at a source address: any value where the host changed it during the decode (R63; log 8). -/
def srcByte (s : State) (a : Nat) : Byte :=
  if s.srcChanged.contains a then Config.changedByte s.draws a else s.src.read a

/-- `SrcRead(addr, n)` (R61): the bytes delivered and the error flag. -/
def srcRead (s : State) (addr n : Nat) : List Byte × Bool :=
  let ans := srcAnswer s (srcAvail s.cfg.srcLen addr n)
  ((List.range ans.1).map fun j => srcByte s (addr + j), ans.2)

/-- What one `SrcRead` leaves: the next answer and the next free value are due. It changes nothing of the block
(R75). -/
def afterSrcRead (s : State) : State :=
  { s with srcModel := s.srcModel.next, draws := s.draws + 1 }

/-- The host writes a source byte. While a decode is in progress an address whose byte changes is remembered
(R63, R273; log 8). -/
def hostWritesSource (a : Nat) (b : Byte) (s : State) : State :=
  { s with
    src := s.src.write a b
    srcChanged :=
      if s.busy && s.src.read a != b && !s.srcChanged.contains a then a :: s.srcChanged else s.srcChanged }

/-! ### The sink -/

/-- `Emit(r, data, bands, bps, ioErr)` for the row `r` of the state (R69), ROWS_EMITTED (R42), and the move to the
next row, DONE after the last (R176, R182). -/
def emitRow (data : List Byte) (bands bps : Byte) (ioErr : Bool) (s : State) : State :=
  { s with
    trace := s.trace ++ [⟨BitVec.ofNat 32 s.r, data, bands, bps, ioErr⟩]
    rowsEmitted := s.rowsEmitted + 1
    r := s.r + 1
    phase := if s.r + 1 = s.cfg.rowCount then .done else s.phase }

/-! ### The RLE writer and its termination -/

/-- The index buffer is exhausted (R32, R123). -/
def State.full (s : State) : Bool := decide (s.cfg.size ≤ s.op)

/-- `put(v)` (R125); every caller has checked `op < S`. -/
def put (v : Byte) (s : State) : State := { s with idx := s.idx.write s.op v, op := s.op + 1 }

/-- `ip` moves past `k` payload bytes (R31). -/
def consume (k : Nat) (s : State) : State := { s with ip := s.ip + k }

/-- `finish()` (R136). -/
def finish (s : State) : State :=
  { s with
    trunc := truncOf s.rleEnd
    rleInPos := BitVec.ofNat 32 s.ip
    rleOutPos := BitVec.ofNat 32 (min s.op s.cfg.size)
    r := 0
    phase := if s.cfg.rowCount = 0 then .done else .rleEmit }

/-- `stop(reason)` (R121). -/
def stop (reason : RleEnd) (s : State) : State := finish { s with rleEnd := reason }

/-- The pad byte after an absolute run of `m` literal bytes that wrote them all (R133). -/
def consumePad (m : Nat) (pad : Option Byte) (s : State) : State :=
  if m % 2 = 1 ∧ pad.isSome then consume 1 s else s

/-! ### Fatal errors -/

/-- `raise Fatal(code)` (R243), the block's trap entry. There is no return from it but START and reset (R254). -/
def raiseFatal (code : ErrCode) (s : State) : State :=
  { s with err := code, path := .none, stride := 0, phase := .error }

/-! ### START and reset -/

/-- The configuration START latches (R34, R223). -/
def latch (s : State) : Latched where
  w := s.width.toInt
  hs := s.height.toInt
  bpp := s.bpp
  comp := s.comp
  off := s.dataOffset.toNat
  srcLen := s.srcLen.toNat

/-- START (R223): nothing while BUSY (R224); otherwise the configuration is latched, STATUS, the result registers and
the engine variables are cleared and CHECK comes next. The source counts as unchanged from here on (R63). -/
def startDecode (s : State) : State :=
  if s.busy then s
  else
    { s with
      cfg := latch s
      path := .none
      err := .none
      trunc := false
      ioerr := false
      payloadShort := false
      stride := 0
      rowsEmitted := 0
      ioerrCount := 0
      ioerrFirstRow := 0xFFFFFFFF
      rleInPos := 0
      rleOutPos := 0
      ip := 0
      op := 0
      r := 0
      rleEnd := .none
      srcChanged := []
      phase := .check }

/-- Reset (R270, R271): every piece of the block's state at its reset value. What is outside the block stays: the
trace of the rows already taken, the source and its model, the sink, the parameters, the inputs to come and the count
of free values (log 17). -/
def applyReset (s : State) : State :=
  { State.reset with
    src := s.src
    srcModel := s.srcModel
    sinkReady := s.sinkReady
    trace := s.trace
    params := s.params
    inputs := s.inputs
    draws := s.draws }

/-! ### Registers as the host sees them -/

/-- The value of a register when no decode is in progress, and of a configuration register at any time (R222). -/
def regValue (s : State) : HostReg → Word
  | .ctrl => 0
  | .status => s.statusWord
  | .width => s.width
  | .height => s.height
  | .bpp => s.bpp.setWidth 32
  | .comp => s.comp
  | .dataOffset => s.dataOffset
  | .srcLen => s.srcLen
  | .stride => s.stride
  | .rowsEmitted => s.rowsEmitted
  | .ioerrCount => s.ioerrCount
  | .ioerrFirstRow => s.ioerrFirstRow
  | .rleInPos => s.rleInPos
  | .rleOutPos => s.rleOutPos

/-- STATUS and the result registers, whose value is not defined while BUSY (R53). -/
def HostReg.isResult : HostReg → Bool
  | .ctrl => false
  | .status => true
  | .width => false
  | .height => false
  | .bpp => false
  | .comp => false
  | .dataOffset => false
  | .srcLen => false
  | .stride => true
  | .rowsEmitted => true
  | .ioerrCount => true
  | .ioerrFirstRow => true
  | .rleInPos => true
  | .rleOutPos => true

/-- What a read of a register returns (R222): a free value for a result register while BUSY (R53). -/
def regRead (s : State) (q : HostReg) : Word :=
  if s.busy && q.isResult then
    if q = .status then busyStatus (Config.busyRead s.draws) else Config.busyRead s.draws
  else regValue s q

/-- Store a value into a configuration register (R35 to R40); any other register is read-only (R221). -/
def storeConfig (q : HostReg) (v : Word) (s : State) : State :=
  match q with
  | .width => { s with width := v }
  | .height => { s with height := v }
  | .bpp => { s with bpp := v.setWidth 16 }
  | .comp => { s with comp := v }
  | .dataOffset => { s with dataOffset := v }
  | .srcLen => { s with srcLen := v }
  | .ctrl => s
  | .status => s
  | .stride => s
  | .rowsEmitted => s
  | .ioerrCount => s
  | .ioerrFirstRow => s
  | .rleInPos => s
  | .rleOutPos => s

end Sys2Proof.Machine
end

