-- ==== Sys2Proof/Machine/HostControl.lean ====
section
/-! DEFINITION. The meanings of the host commands (43_host_control.md R220 to R230; 20_memory.md R68). -/

namespace Sys2Proof.Machine

/-- START (R223): bits 31:1 of the value are ignored (R22). -/
def execStart (_hi : BitVec 31) (s : State) : Host.Outcome State Fault Refusal :=
  .next (startDecode s)

/-- What an aligned 32-bit write to a register does (R221): CTRL follows R223, a configuration register stores its
value unless BUSY, everything else ignores the write. -/
def writeReg (q : HostReg) (v : Word) (s : State) : State :=
  if q = .ctrl then (if v.getLsbD 0 then startDecode s else s)
  else if s.busy then s
  else storeConfig q v s

/-- REG_WRITE (R221). A write of another width or alignment (R68) or to a reserved offset (R47) is ignored. -/
def execRegWrite (width : Nat) (offset : BitVec 8) (v : Word) (s : State) : Host.Outcome State Fault Refusal :=
  if aligned32 width offset then
    match HostReg.ofOffset offset with
    | some q => .next (writeReg q v s)
    | none => .next s
  else .next s

/-- REG_READ (R222): the bytes of the register, lowest first; zeros for a reserved offset (R47) and in every byte of
an access of another width or alignment (R68). It has no side effect on the block (R75). -/
def execRegRead (width : Nat) (offset : BitVec 8) (s : State) : Host.Outcome State Fault Refusal :=
  if aligned32 width offset then
    match HostReg.ofOffset offset with
    | some q => .next { s with readData := leBytes (regRead s q), draws := s.draws + 1 }
    | none => .next { s with readData := leBytes 0, draws := s.draws + 1 }
  else .next { s with readData := List.replicate width 0, draws := s.draws + 1 }

end Sys2Proof.Machine
end

