-- ==== Sys2Proof/Machine/Reorder.lean ====
section
/-! DEFINITION. The meanings of the row transforms (42_channel_reorder.md R200 to R206). They work on ROW alone. -/

namespace Sys2Proof.Machine

/-- PASS1 (R202): the identity. -/
def execPass1 (s : State) : Host.Outcome State Fault Refusal :=
  .next s

/-- PASS4 (R202): the identity. -/
def execPass4 (s : State) : Host.Outcome State Fault Refusal :=
  .next s

/-- PASS8 (R202): the identity. -/
def execPass8 (s : State) : Host.Outcome State Fault Refusal :=
  .next s

/-- PASS16 (R202): the identity. -/
def execPass16 (s : State) : Host.Outcome State Fault Refusal :=
  .next s

/-- Pixel `i` of SWAP24 (R203): B and R change places. -/
def swapPixel (i : Nat) (row : Memory) : Memory :=
  (row.write (3 * i) (row.read (3 * i + 2))).write (3 * i + 2) (row.read (3 * i))

/-- The first `n` pixels of SWAP24, in increasing order (R203). -/
def swapPixels : Nat → Memory → Memory
  | 0, row => row
  | n + 1, row => swapPixel n (swapPixels n row)

/-- SWAP24 (R203). A row too short for its pixels is an access outside ROW (R10, R67). -/
def execSwap24 (s : State) : Host.Outcome State Fault Refusal :=
  if 3 * s.cfg.pixels ≤ s.cfg.rowStride then .next { s with row := swapPixels s.cfg.pixels s.row }
  else .fault .outOfBounds

/-- Pixel `i` of COMPACT32 (R204): the quad is read whole before the triple is written. -/
def compactPixel (i : Nat) (row : Memory) : Memory :=
  ((row.write (3 * i) (row.read (4 * i + 2))).write (3 * i + 1) (row.read (4 * i + 1))).write (3 * i + 2)
    (row.read (4 * i))

/-- The first `n` pixels of COMPACT32, in increasing order (R204). -/
def compactPixels : Nat → Memory → Memory
  | 0, row => row
  | n + 1, row => compactPixel n (compactPixels n row)

/-- COMPACT32 (R204). A row too short for its pixels is an access outside ROW (R10, R67): pixel `W - 1` reads up to
`4W - 2`, and the row the rule speaks of holds `4W` bytes. -/
def execCompact32 (s : State) : Host.Outcome State Fault Refusal :=
  if 4 * s.cfg.pixels ≤ s.cfg.rowStride then .next { s with row := compactPixels s.cfg.pixels s.row }
  else .fault .outOfBounds

end Sys2Proof.Machine
end

