-- ==== Sys2Proof/Machine/Rle.lean ====
section
/-! DEFINITION. The meanings of the RLE commands (40_rle_decompressor.md R126 to R133). Each starts where the head of
R123 leaves the state: `ip` is past the opcode pair. A command reads its operand bytes from the instruction, which
carries the payload bytes present (log 18), and moves `ip` past each one it consumes. -/

namespace Sys2Proof.Machine

/-- The loop of RUN8 (R126): `n` more pixels of index `v`. -/
def run8Loop : Nat → Byte → State → State
  | 0, _, s => s
  | n + 1, v, s => if s.full then s else run8Loop n v (put v s)

/-- RUN8 (R126). -/
def execRun8 (n v : Byte) (s : State) : Host.Outcome State Fault Refusal :=
  .next (run8Loop n.toNat v s)

/-- The loop of RUN4 (R127, R142): `k` more pixels of a run of `n`, the next of them pixel `j`. -/
def run4Loop (ph : RunPhase) (n : Nat) (v : Byte) : Nat → Nat → State → State
  | 0, _, s => s
  | k + 1, j, s => if s.full then s else run4Loop ph n v k (j + 1) (put (runNibble ph n j v) s)

/-- RUN4 (R127); the nibble order is the parameter `rle4RunPhase` (R142). -/
def execRun4 (n v : Byte) (s : State) : Host.Outcome State Fault Refusal :=
  .next (run4Loop s.params.rle4RunPhase n.toNat v n.toNat 0 s)

/-- EOL (R128): no effect; `ip` has moved in the head. -/
def execEol (s : State) : Host.Outcome State Fault Refusal :=
  .next s

/-- EOB (R129). -/
def execEob (s : State) : Host.Outcome State Fault Refusal :=
  .next (stop .eob s)

/-- DELTA (R130): with fewer than two operand bytes it stops and consumes none. -/
def execDelta (d : Option (Byte × Byte)) (s : State) : Host.Outcome State Fault Refusal :=
  match d with
  | none => .next (stop .inEnd s)
  | some (dx, dy) => .next { consume 2 s with op := s.op + deltaPixels dx dy s.cfg.pixels }

/-- The loop of ABS8 (R131): `n` more literals from the bytes present. The Boolean says that all were written. -/
def abs8Loop : Nat → List Byte → State → State × Bool
  | 0, _, s => (s, true)
  | _ + 1, [], s => (s, false)
  | n + 1, b :: bs, s => if s.full then (s, false) else abs8Loop n bs (consume 1 (put b s))

/-- ABS8 (R131): the pad follows only a run that wrote all its literals (R133, R134). -/
def execAbs8 (n : Byte) (lits : List Byte) (pad : Option Byte) (s : State) : Host.Outcome State Fault Refusal :=
  let t := abs8Loop n.toNat lits s
  .next (if t.2 then consumePad n.toNat pad t.1 else t.1)

/-- The loop of ABS4 (R132): `k` more indices from the bytes present, the next one a high nibble. A byte is consumed
at its high nibble. The Boolean says that all were written. -/
def abs4Loop : Nat → List Byte → State → State × Bool
  | 0, _, s => (s, true)
  | _ + 1, [], s => (s, false)
  | 1, b :: _, s => if s.full then (s, false) else (consume 1 (put (hiNibble b) s), true)
  | k + 2, b :: bs, s =>
    if s.full then (s, false)
    else
      let s' := consume 1 (put (hiNibble b) s)
      if s'.full then (s', false) else abs4Loop k bs (put (loNibble b) s')

/-- ABS4 (R132); the unit of `n` is the parameter `rle4AbsUnit` (R99). -/
def execAbs4 (n : Byte) (lits : List Byte) (pad : Option Byte) (s : State) : Host.Outcome State Fault Refusal :=
  let t := abs4Loop (abs4Indices s.params.rle4AbsUnit n.toNat) lits s
  .next (if t.2 then consumePad (abs4LiteralBytes s.params.rle4AbsUnit n.toNat) pad t.1 else t.1)

end Sys2Proof.Machine
end

