-- ==== Sys2Proof/Machine/Dispatch.lean ====
section
/-! DEFINITION. One arm per instruction of the opcode table. -/

namespace Sys2Proof.Machine

def exec (i : Instr) (s : State) : Host.Outcome State Fault Refusal :=
  match i with
  | .run8 n v => Sys2Proof.Machine.execRun8 n v s
  | .run4 n v => Sys2Proof.Machine.execRun4 n v s
  | .eol => Sys2Proof.Machine.execEol s
  | .eob => Sys2Proof.Machine.execEob s
  | .delta d => Sys2Proof.Machine.execDelta d s
  | .abs8 n lits pad => Sys2Proof.Machine.execAbs8 n lits pad s
  | .abs4 n lits pad => Sys2Proof.Machine.execAbs4 n lits pad s
  | .pass1 => Sys2Proof.Machine.execPass1 s
  | .pass4 => Sys2Proof.Machine.execPass4 s
  | .pass8 => Sys2Proof.Machine.execPass8 s
  | .pass16 => Sys2Proof.Machine.execPass16 s
  | .swap24 => Sys2Proof.Machine.execSwap24 s
  | .compact32 => Sys2Proof.Machine.execCompact32 s
  | .start hi => Sys2Proof.Machine.execStart hi s
  | .regWrite width offset v => Sys2Proof.Machine.execRegWrite width offset v s
  | .regRead width offset => Sys2Proof.Machine.execRegRead width offset s

end Sys2Proof.Machine
end

