-- ==== Sys2Proof/Machine/Engine.lean ====
section
/-! DEFINITION. The engine's steps, one per phase (R225, R122, R123, R182, R176), and what an input from outside
does. -/

namespace Sys2Proof.Machine

/-! ### CHECK -/

/-- The first failing check of CHECK, in its order (R225, R250). -/
def checkError (q : Params) (c : Latched) : Option ErrCode :=
  if ¬(c.bpp = 1 ∨ c.bpp = 4 ∨ c.bpp = 8 ∨ c.bpp = 16 ∨ c.bpp = 24 ∨ c.bpp = 32) then some .unsupportedBitDepth
  else if ¬(c.comp = 0 ∨ c.comp = 1 ∨ c.comp = 2) then some .unsupportedCompression
  else if c.w ≤ 0 then some .invalidGeometry
  else if (c.comp = 1 ∧ c.bpp ≠ 8) ∨ (c.comp = 2 ∧ c.bpp ≠ 4) then some .unsupportedCombination
  else if c.comp = 0 ∧ q.maxRowBytes.val < c.rowStride then some .resourceExhausted
  else if (c.comp = 1 ∨ c.comp = 2) ∧ q.maxIndexBytes.val < c.size then some .resourceExhausted
  else none

/-- The path a latched compression selects (R173, R226). -/
def pathOf (comp : Word) : Path :=
  if comp = 0 then .rgb else if comp = 1 then .rle8 else .rle4

/-- `next_phase()` (R227): the uncompressed path reads nothing when there is no row (R186). -/
def nextPhase (s : State) : State :=
  if s.cfg.comp = 0 then
    if s.cfg.rowCount = 0 then { s with phase := .done } else { s with r := 0, phase := .rgbRow }
  else { s with phase := .rleLoad }

/-- `accept()` (R226). -/
def accept (s : State) : State :=
  nextPhase { s with stride := BitVec.ofNat 32 (min s.cfg.rowStride 4294967295), path := pathOf s.cfg.comp }

/-- The CHECK step (R225). -/
def checkStep (s : State) : State :=
  match checkError s.params s.cfg with
  | some code => raiseFatal code s
  | none => accept s

/-! ### The run-length path -/

/-- The mode a latched compression selects (R120). -/
def modeOf (comp : Word) : Option Mode :=
  if comp = 1 then some .rle8 else if comp = 2 then some .rle4 else none

/-- The RLE_LOAD step (R122): one contiguous read into `P`, IDX zeroed, the mode fixed (R120, R141). -/
def rleLoadStep (s : State) : Host.Outcome State Fault Refusal :=
  match modeOf s.cfg.comp with
  | some m =>
    let n := s.cfg.payloadExtent
    let ans := srcRead s s.cfg.off n
    .next { afterSrcRead s with
      mode := m
      p := ans.1
      payloadShort := s.payloadShort || ans.2 || decide (ans.1.length < n)
      idx := []
      ip := 0
      op := 0
      rleEnd := .none
      phase := .rleDecode }
  | none => .fault .modeNotSelected

/-- What the engine fetches: the command at `ip` in the snapshot (R80, R123). -/
def fetch (s : State) : Except DecodeError (Instr × List Byte) :=
  decode s.params.rle4AbsUnit s.mode (s.p.drop s.ip)

/-- The RLE_DECODE step (R123): the output is checked first, a lone `B0` is consumed, and a command runs with `ip`
past its opcode pair. -/
def rleDecodeStep (s : State) : Host.Outcome State Fault Refusal :=
  if s.full then .next (stop .outFull s)
  else
    match fetch s with
    | .ok (i, _) => exec i (consume 2 s)
    | .error .endBeforeB1 => .next (stop .inEnd (consume 1 s))
    | .error _ => .next (stop .inEnd s)

/-- The RLE_EMIT step (R182, R183): a slice of IDX, bottom-up whatever the sign of `Hs` (R184). It waits while the
sink does not accept (R70, R276; log 3). -/
def rleEmitStep (s : State) : Host.Outcome State Fault Refusal :=
  if s.sinkReady then
    if s.r < s.cfg.rowCount then
      .next (emitRow (s.idx.slice (s.cfg.sliceBase s.r) s.cfg.pixels) 1 8 false s)
    else .fault .outOfBounds
  else .next s

/-! ### The uncompressed path -/

/-- ROW zero-filled and the delivered bytes put into it (R67, R176). -/
def loadRow (bytes : List Byte) (s : State) : State := { s with row := Memory.writeAll [] 0 bytes }

/-- The reading half of RGB_ROW (R176): the row's bytes in ROW, an IoError recorded, and whether there was one. -/
def readRow (s : State) : State × Bool :=
  let n := s.cfg.rowStride
  let ans := srcRead s (s.cfg.rowAddress s.r) n
  let ioErr := ans.2 || decide (ans.1.length < n)
  let t := loadRow ans.1 (afterSrcRead s)
  (if ioErr then recordIoError t else t, ioErr)

/-- The emitting half of RGB_ROW (R176, R178, R179): the whole row buffer. -/
def emitRgbRow (ioErr : Bool) (s : State) : State :=
  emitRow (s.row.slice 0 s.cfg.rowStride) (bandsOf s.params s.cfg.bpp) (bpsOf s.params s.cfg.bpp) ioErr s

/-- The RGB_ROW step (R176): read, reorder, emit. It waits while the sink does not accept (R70, R276; log 3). -/
def rgbRowStep (s : State) : Host.Outcome State Fault Refusal :=
  if s.sinkReady then
    if s.r < s.cfg.rowCount then
      match decodeDepth s.cfg.bpp with
      | .ok i =>
        match exec i (readRow s).1 with
        | .next t => .next (emitRgbRow (readRow s).2 t)
        | .fault f => .fault f
        | .refused f => .refused f
      | .error _ => .fault .depthNotSelected
    else .fault .outOfBounds
  else .next s

/-! ### One engine step, one input -/

/-- One engine step (R33). In IDLE, DONE and ERROR the engine makes none (R255). -/
def engineStep (s : State) : Host.Outcome State Fault Refusal :=
  match s.phase with
  | .idle => .next s
  | .check => .next (checkStep s)
  | .rleLoad => rleLoadStep s
  | .rleDecode => rleDecodeStep s
  | .rleEmit => rleEmitStep s
  | .rgbRow => rgbRowStep s
  | .done => .next s
  | .error => .next s

/-- What an input from outside does (R220, R271, R273, R276), or the engine's turn (log 2). -/
def inputStep (e : Input) (s : State) : Host.Outcome State Fault Refusal :=
  match e with
  | .engine => engineStep s
  | .access a => exec (decodeAccess a) s
  | .reset => .next (applyReset s)
  | .srcWrite a b => .next (hostWritesSource a.toNat b s)
  | .sink ready => .next { s with sinkReady := ready }

/-- The next input taken, or the engine's turn when there is none (log 2): the order of engine steps and host accesses,
without a bound in time (R290). -/
def machineStep (s : State) : Host.Outcome State Fault Refusal :=
  match s.inputs with
  | [] => engineStep s
  | e :: rest => inputStep e { s with inputs := rest }

/-! ### The state that runs a given command next -/

/-- Room for the command in IDX: the latched geometry is kept where it has some, and else one row past the cursor. -/
def withRoom (s : State) : Latched :=
  if s.full then { s.cfg with w := 512, hs := (s.op + 1 : Nat), bpp := 8, comp := 1 } else s.cfg

/-- `s` with these bytes as the payload from `ip` on, in RLE_DECODE and mode RLE8, the engine's turn next
(log 14). -/
def withPayload (s : State) (bytes : List Byte) : State :=
  { s with
    inputs := .engine :: s.inputs
    phase := .rleDecode
    mode := .rle8
    cfg := withRoom s
    p := s.p.take s.ip ++ List.replicate (s.ip - s.p.length) 0 ++ bytes }

end Sys2Proof.Machine
end

