-- ==== Sys2Proof/Machine/Step.lean ====
section
/-! DEFINITION. One step of the machine, and the state whose next step runs a given command. -/

namespace Sys2Proof.Machine

/-- One step: the next input from outside, or one engine step when none is to come (R77, decision D29; log 2). It
orders engine steps and host accesses one after another and bounds nothing in time (R290). -/
def step (s : State) : Host.Outcome State Fault Refusal := machineStep s

/-- `s` with the command of a table word where the engine fetches its next command (R80, R123; log 14). -/
def State.withFetchWord (s : State) (nbits w : Nat) : State := withPayload s (tableBytes nbits w)

end Sys2Proof.Machine
end

