-- ==== Sys2Proof/Safety.lean ====
section
/-! DEFINITION. What claims about runs are stated in: the states the rules produce (`StateInv`), what is hidden and never
read before it is written (`State.forget`), and a decode's start as the host makes it. -/

namespace Sys2Proof.Machine

/-- The latched values are 32-bit register contents (R21, R34). -/
structure Latched.InRange (c : Latched) : Prop where
  wLow       : -2147483648 ≤ c.w
  wHigh      : c.w < 2147483648
  hsLow      : -2147483648 ≤ c.hs
  hsHigh     : c.hs < 2147483648
  offHigh    : c.off < 4294967296
  srcLenHigh : c.srcLen < 4294967296

/-- The phases a decode is in once CHECK has accepted its configuration (R225, R226). -/
def Phase.accepted : Phase → Bool
  | .idle => false
  | .check => false
  | .rleLoad => true
  | .rleDecode => true
  | .rleEmit => true
  | .rgbRow => true
  | .done => true
  | .error => false

/-- The phases in which IDX is in use (R66). -/
def Phase.usesIndex : Phase → Bool
  | .idle => false
  | .check => false
  | .rleLoad => false
  | .rleDecode => true
  | .rleEmit => true
  | .rgbRow => false
  | .done => false
  | .error => false

/-- The states the rules produce. Every field cites the rule it restates. -/
structure StateInv (s : State) : Prop where
  /-- The memories are in their canonical form. -/
  srcCanonical : s.src.wf = true
  idxCanonical : s.idx.wf = true
  rowCanonical : s.row.wf = true
  /-- The latched configuration came from 32-bit registers (R34). -/
  latchedRange : s.cfg.InRange
  /-- "ERR is non-zero exactly when STATE = 3 (ERROR)" (R26). -/
  errExact : s.err ≠ .none ↔ s.phase = .error
  /-- TRUNC is 1 exactly when RLE_END = 3 (R27). -/
  truncExact : s.trunc = true ↔ s.rleEnd = .inEnd
  /-- IOERR is 1 exactly when IOERR_COUNT is non-zero (R28). -/
  ioerrExact : s.ioerr = true ↔ s.ioerrCount ≠ 0
  /-- No more rows report IoError than are emitted (R43). -/
  ioerrRows : s.ioerrCount.toNat ≤ s.rowsEmitted.toNat
  /-- IOERR_FIRST_ROW is its "none" marker until a row reports IoError, then an emitted row (R44). -/
  firstRowNone : s.ioerr = false → s.ioerrFirstRow = 0xFFFFFFFF
  firstRowSome : s.ioerr = true → s.ioerrFirstRow.toNat < s.rowsEmitted.toNat
  /-- PATH is NONE before an accepted configuration and after a fatal error (R25). -/
  pathNone : s.phase.accepted = false → s.path = .none
  /-- An accepted configuration passed every check of CHECK (R225), and PATH and STRIDE report it (R226). -/
  checked : s.phase.accepted = true → checkError s.params s.cfg = none
  pathIs : s.phase.accepted = true → s.path = pathOf s.cfg.comp
  strideIs : s.phase.accepted = true → s.stride = BitVec.ofNat 32 (min s.cfg.rowStride 4294967295)
  /-- The RGB phase is the uncompressed path (R173) and has a row to emit (R176). -/
  rgbPath : s.phase = .rgbRow → s.cfg.comp = 0 ∧ s.r < s.cfg.rowCount
  /-- The RLE phases are the run-length path (R173). -/
  rlePath : s.phase = .rleLoad ∨ s.phase.usesIndex = true → s.cfg.comp ≠ 0
  /-- The mode is the one the compression selects (R120, R141). -/
  modeIs : s.phase.usesIndex = true → modeOf s.cfg.comp = some s.mode
  /-- `ip` never passes `N` (R31). -/
  ipInside : s.phase.usesIndex = true → s.ip ≤ s.p.length
  /-- IDX holds `S` bytes (R66). -/
  idxInside : s.phase.usesIndex = true → ∀ c ∈ s.idx, c.1 < s.cfg.size
  /-- In RLE4 mode the high nibble of every byte of IDX is 0 (R66). -/
  idxNibbles : s.phase.usesIndex = true → s.mode = .rle4 → ∀ c ∈ s.idx, c.2.toNat < 16
  /-- A termination reason is recorded when the decode loop ends and not before (R49, R121); without a decode, and
  after a fatal error, there is none (R30, R52, R243). -/
  decodeRunning : s.busy = true → s.phase ≠ .rleEmit → s.rleEnd = .none
  decodeEnded : s.phase = .rleEmit → s.rleEnd ≠ .none
  noDecode : s.phase = .idle ∨ s.phase = .error → s.rleEnd = .none
  /-- At DONE there is a termination reason exactly on the run-length path (R30, R137), so TRUNC is 0 on the
  uncompressed path (R27, R251). -/
  endWhenDone : s.phase = .done → (s.rleEnd = .none ↔ s.cfg.comp = 0)
  /-- IOERR appears only on the uncompressed path (R28, R251). -/
  ioerrPath : s.ioerr = true → s.cfg.comp = 0
  /-- PAYLOAD_SHORT appears only on the run-length path (R29, R251), and is clear until the payload is read. -/
  shortPath : s.payloadShort = true → s.cfg.comp = 1 ∨ s.cfg.comp = 2
  shortUnread : s.phase = .idle ∨ s.phase = .check ∨ s.phase = .rleLoad ∨ s.phase = .error → s.payloadShort = false
  /-- RLE_EMIT has a row to emit (R181, R182). -/
  emitRowLeft : s.phase = .rleEmit → s.r < s.cfg.rowCount
  /-- ROWS_EMITTED counts the rows of the decode; at DONE it is `L`, at ERROR 0 (R42, R48). -/
  rowsWhileBusy : s.busy = true → s.rowsEmitted.toNat = s.r
  rowsWhenDone : s.phase = .done → s.rowsEmitted.toNat = s.cfg.rowCount
  rowsElse : s.phase = .idle ∨ s.phase = .check ∨ s.phase = .rleLoad ∨ s.phase = .rleDecode ∨ s.phase = .error →
    s.rowsEmitted = 0

/-- `s` without what the rules say is never read before it is written in its phase (R51, R52): the latched
configuration and the engine variables outside a decode, P and IDX before RLE_LOAD and after the decode, ROW between
two rows. -/
def State.forget (s : State) : State :=
  match s.phase with
  | .idle => { s with cfg := Latched.reset, mode := .rle8, ip := 0, op := 0, r := 0, p := [], idx := [], row := [] }
  | .done => { s with cfg := Latched.reset, mode := .rle8, ip := 0, op := 0, r := 0, p := [], idx := [], row := [] }
  | .error => { s with cfg := Latched.reset, mode := .rle8, ip := 0, op := 0, r := 0, p := [], idx := [], row := [] }
  | .check => { s with mode := .rle8, ip := 0, op := 0, r := 0, p := [], idx := [], row := [] }
  | .rleLoad => { s with mode := .rle8, ip := 0, op := 0, r := 0, p := [], idx := [], row := [] }
  | .rgbRow => { s with mode := .rle8, ip := 0, op := 0, p := [], idx := [], row := [] }
  | .rleDecode => { s with r := 0, row := [] }
  | .rleEmit => { s with mode := .rle8, ip := 0, op := 0, p := [], row := [] }

/-- A map over the next state of an outcome. -/
def onNext (f : State → State) : Host.Outcome State Fault Refusal → Host.Outcome State Fault Refusal
  | .next s => .next (f s)
  | .fault e => .fault e
  | .refused e => .refused e

/-- The host is silent, the sink accepts and CHECK comes next: where a decode starts that nothing disturbs. -/
structure State.StartsUndisturbed (s : State) : Prop where
  atCheck : s.phase = .check
  hostSilent : s.inputs = []
  sinkAccepts : s.sinkReady = true

/-- The decode has ended (R279). -/
def State.ended (s : State) : Bool :=
  match s.phase with
  | .idle => false
  | .check => false
  | .rleLoad => false
  | .rleDecode => false
  | .rleEmit => false
  | .rgbRow => false
  | .done => true
  | .error => true

end Sys2Proof.Machine
end

