-- ==== Sys2Proof/Certificates/Slice0/Obligations.lean ====
section
/-! DEFINITION. The statements for the provers. Each docstring names the rules of spec/ it formalises, or says that it
is the model's own. -/

open Sys2Proof Sys2Proof.Machine

/-! ### Encodings -/

/-- Decoding the code of any complete instruction of the table gives that instruction back, every operand at every
value (R93 to R99, R201, R220). -/
def Obligations.DecodeInvertsEncode : Prop :=
  ∀ (u : AbsUnit) (m : Mode) (i : Instr), i.wf u m = true → decodeCode u m (encode i) = .ok i

/-- Whatever the RLE decoder reads, complete or cut short, its bytes and the bytes left over are the payload: none is
dropped (R90 to R99). -/
def Obligations.EncodeInvertsDecode : Prop :=
  ∀ (u : AbsUnit) (m : Mode) (bytes rest : List Byte) (i : Instr),
    decode u m bytes = .ok (i, rest) → encodeBytes i ++ rest = bytes

/-- R93: the class of a command depends on its opcode pair alone, and RLE8 or RLE4 on the mode alone; R103: every pair
decodes. An absolute run takes the `n` literal bytes that follow its pair, as far as they are there, and one pad byte
after them when `n` is odd, and leaves the bytes after those (R98; R99 with `n` by `rle4AbsUnit`). -/
def Obligations.EveryPairHasOneClass : Prop :=
  ∀ (u : AbsUnit) (m : Mode) (b0 b1 : Byte) (after : List Byte),
    ∃ (i : Instr) (rest : List Byte), decode u m (b0 :: b1 :: after) = .ok (i, rest) ∧
      (b0 ≠ 0 → m = .rle8 → i = .run8 b0 b1 ∧ rest = after) ∧
      (b0 ≠ 0 → m = .rle4 → i = .run4 b0 b1 ∧ rest = after) ∧
      (b0 = 0 → b1 = 0 → i = .eol ∧ rest = after) ∧
      (b0 = 0 → b1 = 1 → i = .eob ∧ rest = after) ∧
      (b0 = 0 → b1 = 2 → ∀ dx dy tail, after = dx :: dy :: tail → i = .delta (some (dx, dy)) ∧ rest = tail) ∧
      (b0 = 0 → b1 = 2 → after.length < 2 → i = .delta none ∧ rest = after) ∧
      (b0 = 0 → 3 ≤ b1.toNat → m = .rle8 → ∀ n, n = b1.toNat →
        i = .abs8 b1 (after.take n) (if n % 2 = 1 then after[n]? else none) ∧ rest = after.drop (n + n % 2)) ∧
      (b0 = 0 → 3 ≤ b1.toNat → m = .rle4 → ∀ n, n = (if u = .bytes then b1.toNat else (b1.toNat + 1) / 2) →
        i = .abs4 b1 (after.take n) (if n % 2 = 1 then after[n]? else none) ∧ rest = after.drop (n + n % 2))

/-- R102: the length of a complete command, from `B0`, `B1` and the mode alone. -/
def Obligations.CommandLengthFromThePair : Prop :=
  ∀ (u : AbsUnit) (m : Mode) (b0 b1 : Byte) (after rest : List Byte) (i : Instr),
    decode u m (b0 :: b1 :: after) = .ok (i, rest) → i.wf u m = true →
      (encodeBytes i).length =
        if b0 ≠ 0 then 2
        else if b1 = 0 ∨ b1 = 1 then 2
        else if b1 = 2 then 4
        else if m = .rle4 ∧ u = .pixels then 2 + (b1.toNat + 1) / 2 + (b1.toNat + 1) / 2 % 2
        else 2 + b1.toNat + b1.toNat % 2

/-- Words written out from the spec's formats (R94 to R98, R201, R223) decode to the instruction they stand for. The
clauses on `decodeTableWord` are the model's reading of a table word: its bits lie in 16-bit words, the high byte first,
so DELTA has `dx` in the high byte of its operand word (log 13, DEDUCED), it is read in mode RLE8, and zero bytes follow
it (log 14, DESIGN CHOICE). -/
def Obligations.WrittenOutWordsDecode : Prop :=
  decodeTableWord 16 0x0401 = some (.run8 4 1) ∧
  decodeTableWord 16 0x0000 = some .eol ∧
  decodeTableWord 16 0x0001 = some .eob ∧
  decodeTableWord 32 0x01030002 = some (.delta (some (1, 3))) ∧
  decodeTableWord 16 0x0003 = some (.abs8 3 [0, 0, 0] (some 0)) ∧
  decodeCode .bytes .rle4 (.stream [0x05, 0xAB]) = .ok (.run4 5 0xAB) ∧
  decodeCode .bytes .rle4 (.stream [0x00, 0x03, 0x12, 0x34, 0x56, 0x00]) =
    .ok (.abs4 3 [0x12, 0x34, 0x56] (some 0)) ∧
  decodeCode .pixels .rle4 (.stream [0x00, 0x03, 0x12, 0x34]) = .ok (.abs4 3 [0x12, 0x34] none) ∧
  decodeDepth 0x0018 = .ok .swap24 ∧
  decodeAccess (.write 4 0x00 0x00000001) = .start 0

/-! ### One step -/

/-- The model's schedule (log 2): with no input to come, or with its turn at the head of them, the engine takes one
step. -/
def Obligations.StepTakesTheEnginesTurn : Prop :=
  (∀ s : State, s.inputs = [] → step s = engineStep s) ∧
  (∀ (s : State) (rest : List Input), s.inputs = .engine :: rest → step s = engineStep { s with inputs := rest })

/-- R123, R124: in RLE_DECODE with room in the index buffer, a step is `exec` of the command decoded at `ip` in the
snapshot, with `ip` past its opcode pair. -/
def Obligations.StepRunsTheFetchedCommand : Prop :=
  ∀ (s : State) (i : Instr) (after : List Byte),
    s.inputs = [] → s.phase = .rleDecode → s.op < s.cfg.size →
    decode s.params.rle4AbsUnit s.mode (s.p.drop s.ip) = .ok (i, after) →
      step s = exec i { s with ip := s.ip + 2 }

/-- R220: a host access at the head of the inputs runs as the host command it decodes to. -/
def Obligations.StepRunsTheHostAccess : Prop :=
  ∀ (s : State) (a : HostAccess) (rest : List Input),
    s.inputs = .access a :: rest → step s = exec (decodeAccess a) { s with inputs := rest }

/-- R176, R201: in RGB_ROW a step reads the row, runs the transform the latched depth selects and emits. -/
def Obligations.StepRunsTheSelectedTransform : Prop :=
  ∀ (s t : State) (i : Instr),
    s.inputs = [] → s.phase = .rgbRow → s.sinkReady = true → s.r < s.cfg.rowCount →
    decodeDepth s.cfg.bpp = .ok i → exec i (readRow s).1 = .next t →
      step s = .next (emitRgbRow (readRow s).2 t)

/-- R123, R136: the head of an RLE_DECODE step stops on a full index buffer first, then on a missing `B0`, then on a
missing `B1`, whose `B0` is consumed; what each leaves. -/
def Obligations.HeadStopsOnAnExhaustedBuffer : Prop :=
  ∀ s : State, s.phase = .rleDecode →
    (s.cfg.size ≤ s.op →
      engineStep s = .next { s with
        rleEnd := .outFull, trunc := false, rleInPos := BitVec.ofNat 32 s.ip
        rleOutPos := BitVec.ofNat 32 (min s.op s.cfg.size), r := 0
        phase := if s.cfg.rowCount = 0 then .done else .rleEmit }) ∧
    (s.op < s.cfg.size → s.p.length ≤ s.ip →
      engineStep s = .next { s with
        rleEnd := .inEnd, trunc := true, rleInPos := BitVec.ofNat 32 s.ip
        rleOutPos := BitVec.ofNat 32 (min s.op s.cfg.size), r := 0
        phase := if s.cfg.rowCount = 0 then .done else .rleEmit }) ∧
    (s.op < s.cfg.size → s.p.length = s.ip + 1 →
      engineStep s = .next { s with
        ip := s.ip + 1, rleEnd := .inEnd, trunc := true, rleInPos := BitVec.ofNat 32 (s.ip + 1)
        rleOutPos := BitVec.ofNat 32 (min s.op s.cfg.size), r := 0
        phase := if s.cfg.rowCount = 0 then .done else .rleEmit })

/-! ### The RLE commands -/

/-- R126: RUN8 runs and writes `min(n, S - op)` pixels of `v` from `op` on, and nothing else changes.
What IDX reads as is said for an IDX in canonical form. -/
def Obligations.Run8WritesItsPixels : Prop :=
  ∀ (n v : Byte) (s : State), ∃ idx : Memory,
    exec (.run8 n v) s = .next { s with idx := idx, op := s.op + min n.toNat (s.cfg.size - s.op) } ∧
    (s.idx.wf = true → idx.wf = true ∧
    ∀ a, idx.read a =
      if s.op ≤ a ∧ a < s.op + min n.toNat (s.cfg.size - s.op) then v else s.idx.read a)

/-- R127, R142: RUN4 runs and writes `min(n, S - op)` pixels from `op` on, the high nibble at even pixels
(HIGH_FIRST) or at the pixels with `n - j` odd (PARITY), and nothing else changes. What IDX reads as is said for
an IDX in canonical form. -/
def Obligations.Run4WritesItsNibbles : Prop :=
  ∀ (n v : Byte) (s : State), ∃ idx : Memory,
    exec (.run4 n v) s = .next { s with idx := idx, op := s.op + min n.toNat (s.cfg.size - s.op) } ∧
    (s.idx.wf = true → idx.wf = true ∧
    ∀ a, idx.read a =
      if s.op ≤ a ∧ a < s.op + min n.toNat (s.cfg.size - s.op) then
        (if (s.params.rle4RunPhase = .highFirst ∧ (a - s.op) % 2 = 0) ∨
            (s.params.rle4RunPhase = .parity ∧ (n.toNat - (a - s.op)) % 2 = 1)
          then BitVec.ofNat 8 (v.toNat / 16) else BitVec.ofNat 8 (v.toNat % 16))
      else s.idx.read a)

/-- R128: EOL runs and has no effect. -/
def Obligations.EolHasNoEffect : Prop :=
  ∀ s : State, exec .eol s = .next s

/-- R129, R136: EOB runs: it stops the decode with reason EOB, TRUNC 0, and no index byte is written. -/
def Obligations.EobStopsTheDecode : Prop :=
  ∀ s : State, exec .eob s = .next { s with
    rleEnd := .eob, trunc := false, rleInPos := BitVec.ofNat 32 s.ip
    rleOutPos := BitVec.ofNat 32 (min s.op s.cfg.size), r := 0
    phase := if s.cfg.rowCount = 0 then .done else .rleEmit }

/-- R130: DELTA runs: with both operand bytes it moves `ip` by 2 and `op` by `dx + dy * W`; with fewer it stops with
IN_END and consumes none. No index byte is written. -/
def Obligations.DeltaMovesTheCursor : Prop :=
  ∀ s : State,
    (∀ dx dy : Byte, exec (.delta (some (dx, dy))) s = .next { s with
      ip := s.ip + 2, op := s.op + (dx.toNat + dy.toNat * s.cfg.w.toNat) }) ∧
    exec (.delta none) s = .next { s with
      rleEnd := .inEnd, trunc := true, rleInPos := BitVec.ofNat 32 s.ip
      rleOutPos := BitVec.ofNat 32 (min s.op s.cfg.size), r := 0
      phase := if s.cfg.rowCount = 0 then .done else .rleEmit }

/-- R131, R133, R134: ABS8 runs and writes its literals from `op` on until the count, the payload or the index buffer
ends, consumes each literal written, and the pad after a whole run of odd count; nothing else changes.
What IDX reads as is said for an IDX in canonical form. -/
def Obligations.Abs8WritesItsLiterals : Prop :=
  ∀ (n : Byte) (lits : List Byte) (pad : Option Byte) (s : State) (k : Nat),
    k = min (min n.toNat lits.length) (s.cfg.size - s.op) → ∃ idx : Memory,
      exec (.abs8 n lits pad) s = .next { s with
        idx := idx, op := s.op + k
        ip := s.ip + k + (if k = n.toNat ∧ n.toNat % 2 = 1 ∧ pad.isSome = true then 1 else 0) } ∧
      (s.idx.wf = true → idx.wf = true ∧
      ∀ a, idx.read a = if s.op ≤ a ∧ a < s.op + k then lits.getD (a - s.op) 0 else s.idx.read a)

/-- R132, R133, R134, R99: ABS4 runs and writes the nibbles of its literals, high first, from `op` on until the index
count `p`, the payload or the index buffer ends; a byte is consumed at its high nibble, and the pad after a whole run
whose literal byte count `m` is odd; nothing else changes. What IDX reads as is said for an IDX in
canonical form. -/
def Obligations.Abs4WritesItsNibbles : Prop :=
  ∀ (n : Byte) (lits : List Byte) (pad : Option Byte) (s : State) (p m k : Nat),
    p = (if s.params.rle4AbsUnit = .bytes then 2 * n.toNat else n.toNat) → m = (p + 1) / 2 →
    k = min (min p (2 * lits.length)) (s.cfg.size - s.op) → ∃ idx : Memory,
      exec (.abs4 n lits pad) s = .next { s with
        idx := idx, op := s.op + k
        ip := s.ip + (k + 1) / 2 + (if k = p ∧ m % 2 = 1 ∧ pad.isSome = true then 1 else 0) } ∧
      (s.idx.wf = true → idx.wf = true ∧
      ∀ a, idx.read a =
        if s.op ≤ a ∧ a < s.op + k then
          (if (a - s.op) % 2 = 0 then BitVec.ofNat 8 ((lits.getD ((a - s.op) / 2) 0).toNat / 16)
            else BitVec.ofNat 8 ((lits.getD ((a - s.op) / 2) 0).toNat % 16))
        else s.idx.read a)

/-- R102: a complete command that the index buffer does not cut short and that does not stop the decode moves `ip` by
its whole length. -/
def Obligations.CompleteCommandConsumesItsLength : Prop :=
  ∀ (s t : State) (i : Instr) (after : List Byte),
    s.phase = .rleDecode → s.op < s.cfg.size → fetch s = .ok (i, after) →
    i.wf s.params.rle4AbsUnit s.mode = true →
    (∀ n lits pad, i = .abs8 n lits pad → s.op + n.toNat ≤ s.cfg.size) →
    (∀ n lits pad, i = .abs4 n lits pad → s.op + abs4Indices s.params.rle4AbsUnit n.toNat ≤ s.cfg.size) →
    engineStep s = .next t →
      t.ip = s.ip + (encodeBytes i).length ∧ s.p.drop t.ip = after

/-- R31: an RLE_DECODE step never moves `ip` back nor past `N`, never moves the cursor back and never changes the
snapshot. -/
def Obligations.CommandsMoveForwardWithinThePayload : Prop :=
  ∀ s t : State, s.phase = .rleDecode → s.ip ≤ s.p.length → engineStep s = .next t →
    s.ip ≤ t.ip ∧ t.ip ≤ t.p.length ∧ t.p = s.p ∧ s.op ≤ t.op

/-- R122, R120: RLE_LOAD reads the payload extent once into `P`, reports a short or failed read, zeroes IDX, resets
`ip`, `op` and `rleEnd` and fixes the mode; nothing else changes but the source's next answer and the draw counter. -/
def Obligations.RleLoadTakesTheSnapshot : Prop :=
  ∀ (s : State) (n : Nat), s.phase = .rleLoad → s.cfg.comp = 1 ∨ s.cfg.comp = 2 →
    n = (if s.cfg.off < s.cfg.srcLen then s.cfg.srcLen - s.cfg.off else 0) → ∃ idx : Memory,
      engineStep s = .next { s with
        mode := if s.cfg.comp = 1 then .rle8 else .rle4
        p := (srcRead s s.cfg.off n).1
        payloadShort := s.payloadShort || (srcRead s s.cfg.off n).2 ||
          decide ((srcRead s s.cfg.off n).1.length < n)
        idx := idx, ip := 0, op := 0, rleEnd := .none, phase := .rleDecode
        srcModel := s.srcModel.next, draws := s.draws + 1 } ∧
      idx.wf = true ∧ ∀ a, idx.read a = 0

/-! ### The byte source -/

/-- R61: what `SrcRead(addr, n)` delivers: never more than `avail`, never a byte at or past `srcLen`, and each byte the
source's own unless the host changed it (R63). -/
def Obligations.SrcReadObeysItsLaws : Prop :=
  ∀ (s : State) (addr n : Nat),
    (addr + n ≤ s.cfg.srcLen → (srcRead s addr n).1.length ≤ n) ∧
    (addr < s.cfg.srcLen → s.cfg.srcLen < addr + n → (srcRead s addr n).1.length ≤ s.cfg.srcLen - addr) ∧
    (s.cfg.srcLen ≤ addr → (srcRead s addr n).1 = []) ∧
    ∀ j, j < (srcRead s addr n).1.length →
      addr + j < s.cfg.srcLen ∧
      (addr + j ∉ s.srcChanged → (srcRead s addr n).1.getD j 0 = s.src.read (addr + j))

/-- R62: IdealSource answers with every available byte and no error. -/
def Obligations.IdealSourceDeliversAll : Prop :=
  ∀ (s : State) (addr n : Nat), s.srcModel = .ideal →
    (srcRead s addr n).2 = false ∧ (srcRead s addr n).1.length = min n (s.cfg.srcLen - addr) ∧
    (afterSrcRead s).srcModel = .ideal

/-- The model's own (log 2, log 8), for R63 and R273: a byte the host writes changes the source at its address alone
and nothing of the block. While BUSY its address joins those remembered as changed when the byte differs from the one
there, and none is dropped; outside BUSY none joins. An address not remembered still reads as before. -/
def Obligations.SourceWriteChangesOnlyTheSource : Prop :=
  ∀ (s : State) (a : BitVec 32) (b : Byte) (rest : List Input), s.inputs = .srcWrite a b :: rest →
    ∃ (src : Memory) (changed : List Nat),
      step s = .next { s with inputs := rest, src := src, srcChanged := changed } ∧
      (s.busy = true → ∀ x, x ∈ changed ↔ x ∈ s.srcChanged ∨ (x = a.toNat ∧ s.src.read a.toNat ≠ b)) ∧
      (s.busy = false → changed = s.srcChanged) ∧
      (s.src.wf = true → src.wf = true ∧
        (∀ x, src.read x = if x = a.toNat then b else s.src.read x) ∧
        (s.busy = true → ∀ x, x ∉ changed → src.read x = s.src.read x))

/-! ### Row transforms -/

/-- R202: PASS1, PASS4, PASS8 and PASS16 run and have no effect. -/
def Obligations.PassTransformsAreTheIdentity : Prop :=
  ∀ s : State, exec .pass1 s = .next s ∧ exec .pass4 s = .next s ∧ exec .pass8 s = .next s ∧ exec .pass16 s = .next s

/-- R203: at 24 bits a pixel SWAP24 runs and swaps B and R of each of the `W` pixels; the padding and everything else
is unchanged. What ROW reads as is said for a ROW in canonical form. -/
def Obligations.Swap24SwapsEveryPixel : Prop :=
  ∀ s : State, s.cfg.bpp = 24 → ∃ row : Memory, exec .swap24 s = .next { s with row := row } ∧
    (s.row.wf = true → row.wf = true ∧
    (∀ i, i < s.cfg.w.toNat → row.read (3 * i) = s.row.read (3 * i + 2) ∧
      row.read (3 * i + 1) = s.row.read (3 * i + 1) ∧ row.read (3 * i + 2) = s.row.read (3 * i)) ∧
    ∀ a, 3 * s.cfg.w.toNat ≤ a → row.read a = s.row.read a)

/-- R204: at 32 bits a pixel COMPACT32 runs and packs the `W` quads into triples, each read from the row as it was on
entry; the tail from `3W` and everything else is unchanged. What ROW reads as is said for a ROW in canonical
form. -/
def Obligations.Compact32PacksEveryPixel : Prop :=
  ∀ s : State, s.cfg.bpp = 32 → ∃ row : Memory, exec .compact32 s = .next { s with row := row } ∧
    (s.row.wf = true → row.wf = true ∧
    (∀ i, i < s.cfg.w.toNat → row.read (3 * i) = s.row.read (4 * i + 2) ∧
      row.read (3 * i + 1) = s.row.read (4 * i + 1) ∧ row.read (3 * i + 2) = s.row.read (4 * i)) ∧
    ∀ a, 3 * s.cfg.w.toNat ≤ a → row.read a = s.row.read a)

/-- R10: a transform that would reach outside the row buffer faults. -/
def Obligations.TransformOutsideTheRowFaults : Prop :=
  ∀ s : State,
    (s.cfg.rowStride < 3 * s.cfg.w.toNat → exec .swap24 s = .fault .outOfBounds) ∧
    (s.cfg.rowStride < 4 * s.cfg.w.toNat → exec .compact32 s = .fault .outOfBounds)

/-! ### Rows -/

/-- R172: the stride of a legal depth and a positive width. -/
def Obligations.StrideProperties : Prop :=
  ∀ c : Latched, 1 ≤ c.w →
    c.bpp = 1 ∨ c.bpp = 4 ∨ c.bpp = 8 ∨ c.bpp = 16 ∨ c.bpp = 24 ∨ c.bpp = 32 →
      c.rowStride % 4 = 0 ∧ (c.w.toNat * c.bpp.toNat + 7) / 8 ≤ c.rowStride ∧
      c.rowStride - (c.w.toNat * c.bpp.toNat + 7) / 8 ≤ 3 ∧
      (c.bpp = 32 → c.rowStride = 4 * c.w.toNat) ∧
      (c.bpp = 24 → c.rowStride = 3 * c.w.toNat + c.w.toNat % 4)

/-- R187: how many leading bytes of an emitted row are significant, and that the row holds them. -/
def Obligations.SignificantBytesFitTheRow : Prop :=
  ∀ c : Latched, 1 ≤ c.w →
    (c.bpp = 1 → dataBytes c.w.toNat c.bpp = (c.w.toNat + 7) / 8) ∧
    (c.bpp = 4 → dataBytes c.w.toNat c.bpp = (c.w.toNat + 1) / 2) ∧
    (c.bpp = 8 → dataBytes c.w.toNat c.bpp = c.w.toNat) ∧
    (c.bpp = 16 → dataBytes c.w.toNat c.bpp = 2 * c.w.toNat) ∧
    (c.bpp = 24 → dataBytes c.w.toNat c.bpp = 3 * c.w.toNat) ∧
    (c.bpp = 32 → dataBytes c.w.toNat c.bpp = 3 * c.w.toNat) ∧
    dataBytes c.w.toNat c.bpp ≤ c.rowStride

/-- R176, R177, R178, R179 with R174, R175, R203 and R204: an RGB_ROW step of a checked configuration reads file row
`k`, emits the whole transformed row with its IoError flag, records an IoError, and moves to the next row or DONE;
nothing else of the block changes. The emitted bytes are those ROW holds after the reorderer (R72). -/
def Obligations.RgbRowStepEmitsItsRow : Prop :=
  ∀ (s : State) (k n : Nat) (bytes : List Byte) (ioErr : Bool),
    s.phase = .rgbRow → s.sinkReady = true → s.r < s.cfg.rowCount → checkError s.params s.cfg = none →
    k = (if 0 < s.cfg.hs then s.cfg.hs.natAbs - 1 - s.r else s.r) →
    n = (s.cfg.w.toNat * s.cfg.bpp.toNat + 31) / 32 * 4 →
    bytes = (srcRead s (s.cfg.off + k * n) n).1 →
    ioErr = ((srcRead s (s.cfg.off + k * n) n).2 || decide (bytes.length < n)) →
    ∃ (data : List Byte) (row : Memory),
      engineStep s = .next { s with
        trace := s.trace ++ [{
          row := BitVec.ofNat 32 s.r, data := data, ioErr := ioErr
          bands := if s.cfg.bpp = 16 then s.params.bands16 else if s.cfg.bpp.toNat < 16 then 1 else 3
          bps := if s.cfg.bpp = 16 then s.params.bps16 else BitVec.ofNat 8 (min s.cfg.bpp.toNat 8) }]
        row := row
        rowsEmitted := s.rowsEmitted + 1
        r := s.r + 1
        phase := if s.r + 1 = s.cfg.hs.natAbs then .done else .rgbRow
        ioerr := s.ioerr || ioErr
        ioerrCount := if ioErr = true ∧ s.ioerrCount ≠ 0xFFFFFFFF then s.ioerrCount + 1 else s.ioerrCount
        ioerrFirstRow := if ioErr = true ∧ s.ioerrFirstRow = 0xFFFFFFFF then BitVec.ofNat 32 s.r
          else s.ioerrFirstRow
        srcModel := s.srcModel.next, draws := s.draws + 1 } ∧
      row.wf = true ∧ data.length = n ∧ (∀ j, j < n → row.read j = data.getD j 0) ∧
      (s.cfg.bpp.toNat ≤ 16 → ∀ j, j < n → data.getD j 0 = bytes.getD j 0) ∧
      (s.cfg.bpp = 24 → ∀ i, i < s.cfg.w.toNat → data.getD (3 * i) 0 = bytes.getD (3 * i + 2) 0 ∧
        data.getD (3 * i + 1) 0 = bytes.getD (3 * i + 1) 0 ∧ data.getD (3 * i + 2) 0 = bytes.getD (3 * i) 0) ∧
      (s.cfg.bpp = 32 → ∀ i, i < s.cfg.w.toNat → data.getD (3 * i) 0 = bytes.getD (4 * i + 2) 0 ∧
        data.getD (3 * i + 1) 0 = bytes.getD (4 * i + 1) 0 ∧ data.getD (3 * i + 2) 0 = bytes.getD (4 * i) 0) ∧
      (16 < s.cfg.bpp.toNat → ∀ j, 3 * s.cfg.w.toNat ≤ j → j < n → data.getD j 0 = bytes.getD j 0)

/-- R182, R183, R184: an RLE_EMIT step emits the slice of IDX for its row, bottom-up whatever the sign of `Hs`, and
moves to the next row or DONE; nothing else changes. -/
def Obligations.RleEmitStepEmitsItsSlice : Prop :=
  ∀ s : State, s.phase = .rleEmit → s.sinkReady = true → s.r < s.cfg.hs.natAbs → ∃ data : List Byte,
    engineStep s = .next { s with
      trace := s.trace ++ [{ row := BitVec.ofNat 32 s.r, data := data, bands := 1, bps := 8, ioErr := false }]
      rowsEmitted := s.rowsEmitted + 1
      r := s.r + 1
      phase := if s.r + 1 = s.cfg.hs.natAbs then .done else .rleEmit } ∧
    data.length = s.cfg.w.toNat ∧
    ∀ j, j < s.cfg.w.toNat → data.getD j 0 = s.idx.read ((s.cfg.hs.natAbs - 1 - s.r) * s.cfg.w.toNat + j)

/-- R276: while the sink does not accept, the engine waits in its row step and STATE stays BUSY (log 3). -/
def Obligations.EngineWaitsForTheSink : Prop :=
  ∀ s : State, s.sinkReady = false → s.phase = .rgbRow ∨ s.phase = .rleEmit →
    engineStep s = .next s ∧ s.busy = true

/-- The source's §8 item 2 (95_test_vectors.md L1-2): the same rows stored bottom-up with `Hs > 0` and top-down with
`-Hs` are read as the same display rows. -/
def Obligations.OppositeStorageOrdersReadAlike : Prop :=
  ∀ s t : State, 0 < s.cfg.hs → t.cfg = { s.cfg with hs := -s.cfg.hs } →
    s.srcModel = .ideal → t.srcModel = .ideal → s.srcChanged = [] → t.srcChanged = [] →
    s.cfg.off + s.cfg.rowCount * s.cfg.rowStride ≤ s.cfg.srcLen →
    (∀ k j, k < s.cfg.rowCount → j < s.cfg.rowStride →
      t.src.read (s.cfg.off + k * s.cfg.rowStride + j) =
        s.src.read (s.cfg.off + (s.cfg.rowCount - 1 - k) * s.cfg.rowStride + j)) →
    ∀ r, r < s.cfg.rowCount →
      srcRead s (s.cfg.rowAddress r) s.cfg.rowStride = srcRead t (t.cfg.rowAddress r) t.cfg.rowStride

/-! ### CHECK -/

/-- R225, R243, R250: CHECK reports the first failing check in its order, and a fatal error writes ERR, clears PATH and
STRIDE, sets ERROR and changes nothing else. -/
def Obligations.CheckReportsTheFirstFailure : Prop :=
  ∀ (s : State) (code : ErrCode), s.phase = .check →
    (code = .unsupportedBitDepth ∧
        ¬(s.cfg.bpp = 1 ∨ s.cfg.bpp = 4 ∨ s.cfg.bpp = 8 ∨ s.cfg.bpp = 16 ∨ s.cfg.bpp = 24 ∨ s.cfg.bpp = 32) ∨
      (s.cfg.bpp = 1 ∨ s.cfg.bpp = 4 ∨ s.cfg.bpp = 8 ∨ s.cfg.bpp = 16 ∨ s.cfg.bpp = 24 ∨ s.cfg.bpp = 32) ∧
        (code = .unsupportedCompression ∧ 2 < s.cfg.comp.toNat ∨
        s.cfg.comp.toNat ≤ 2 ∧
          (code = .invalidGeometry ∧ s.cfg.w ≤ 0 ∨
          0 < s.cfg.w ∧
            (code = .unsupportedCombination ∧
                ((s.cfg.comp = 1 ∧ s.cfg.bpp ≠ 8) ∨ (s.cfg.comp = 2 ∧ s.cfg.bpp ≠ 4)) ∨
              ¬((s.cfg.comp = 1 ∧ s.cfg.bpp ≠ 8) ∨ (s.cfg.comp = 2 ∧ s.cfg.bpp ≠ 4)) ∧
                code = .resourceExhausted ∧
                ((s.cfg.comp = 0 ∧
                    s.params.maxRowBytes.val < (s.cfg.w.toNat * s.cfg.bpp.toNat + 31) / 32 * 4) ∨
                  (s.cfg.comp ≠ 0 ∧ s.params.maxIndexBytes.val < s.cfg.w.toNat * s.cfg.hs.natAbs)))))) →
    engineStep s = .next { s with err := code, path := .none, stride := 0, phase := .error }

/-- R225, R226, R227, R173, R186: a configuration every check passes is accepted: STRIDE and PATH report it, and the
first phase of its path comes next, DONE at once for an uncompressed image without rows. -/
def Obligations.CheckAcceptsALegalConfiguration : Prop :=
  ∀ s : State, s.phase = .check →
    (s.cfg.bpp = 1 ∨ s.cfg.bpp = 4 ∨ s.cfg.bpp = 8 ∨ s.cfg.bpp = 16 ∨ s.cfg.bpp = 24 ∨ s.cfg.bpp = 32) →
    0 < s.cfg.w →
    (s.cfg.comp = 0 ∧ (s.cfg.w.toNat * s.cfg.bpp.toNat + 31) / 32 * 4 ≤ s.params.maxRowBytes.val →
      engineStep s = .next { s with
        stride := BitVec.ofNat 32 (min ((s.cfg.w.toNat * s.cfg.bpp.toNat + 31) / 32 * 4) 4294967295)
        path := .rgb
        r := if s.cfg.hs = 0 then s.r else 0
        phase := if s.cfg.hs = 0 then .done else .rgbRow }) ∧
    (s.cfg.comp = 1 ∧ s.cfg.bpp = 8 ∧ s.cfg.w.toNat * s.cfg.hs.natAbs ≤ s.params.maxIndexBytes.val →
      engineStep s = .next { s with
        stride := BitVec.ofNat 32 (min ((s.cfg.w.toNat * s.cfg.bpp.toNat + 31) / 32 * 4) 4294967295)
        path := .rle8
        phase := .rleLoad }) ∧
    (s.cfg.comp = 2 ∧ s.cfg.bpp = 4 ∧ s.cfg.w.toNat * s.cfg.hs.natAbs ≤ s.params.maxIndexBytes.val →
      engineStep s = .next { s with
        stride := BitVec.ofNat 32 (min ((s.cfg.w.toNat * s.cfg.bpp.toNat + 31) / 32 * 4) 4294967295)
        path := .rle4
        phase := .rleLoad })

/-- R243, R255: a fatal error arises only in CHECK, and the step that raises it emits nothing and leaves a code. -/
def Obligations.FatalErrorsComeFromCheckOnly : Prop :=
  ∀ s t : State, step s = .next t → t.phase = .error → s.phase ≠ .error →
    s.phase = .check ∧ t.trace = s.trace ∧ t.err ≠ .none ∧ t.path = .none ∧ t.stride = 0

/-- R33, R255: in IDLE, DONE and ERROR the engine makes no step. -/
def Obligations.EngineRestsOutsideADecode : Prop :=
  ∀ s : State, s.busy = false → engineStep s = .next s

/-- R254: ERROR is left only by START or reset, and until then ERR keeps its code. -/
def Obligations.ErrorIsLeftByStartOrReset : Prop :=
  ∀ s t : State, s.phase = .error → step s = .next t →
    (t.phase = .error ∧ t.err = s.err) ∨
    (∃ rest, s.inputs = .reset :: rest ∧ t.phase = .idle) ∨
    (∃ v rest, s.inputs = .access (.write 4 0 v) :: rest ∧ v.getLsbD 0 = true ∧ t.phase = .check)

/-- R229: in DONE and ERROR a step other than an accepted START or a reset keeps the phase, every field of STATUS and
every result register; a START clears them, latches the configuration registers as they stand and keeps those. -/
def Obligations.ResultsAreKeptUntilStartOrReset : Prop :=
  ∀ s t : State, s.phase = .done ∨ s.phase = .error → step s = .next t →
    ((∀ v rest, s.inputs = .access (.write 4 0 v) :: rest → v.getLsbD 0 = false) →
      (∀ rest, s.inputs ≠ .reset :: rest) →
      t.phase = s.phase ∧ t.path = s.path ∧ t.err = s.err ∧ t.trunc = s.trunc ∧ t.ioerr = s.ioerr ∧
      t.payloadShort = s.payloadShort ∧ t.rleEnd = s.rleEnd ∧ t.statusWord = s.statusWord ∧
      t.stride = s.stride ∧ t.rowsEmitted = s.rowsEmitted ∧ t.ioerrCount = s.ioerrCount ∧
      t.ioerrFirstRow = s.ioerrFirstRow ∧ t.rleInPos = s.rleInPos ∧ t.rleOutPos = s.rleOutPos) ∧
    (∀ v rest, s.inputs = .access (.write 4 0 v) :: rest → v.getLsbD 0 = true →
      t.phase = .check ∧ t.statusWord = 1 ∧ t.stride = 0 ∧ t.rowsEmitted = 0 ∧ t.ioerrCount = 0 ∧
      t.ioerrFirstRow = 0xFFFFFFFF ∧ t.rleInPos = 0 ∧ t.rleOutPos = 0 ∧
      t.cfg.w = s.width.toInt ∧ t.cfg.hs = s.height.toInt ∧ t.cfg.bpp = s.bpp ∧ t.cfg.comp = s.comp ∧
      t.cfg.off = s.dataOffset.toNat ∧ t.cfg.srcLen = s.srcLen.toNat ∧
      t.width = s.width ∧ t.height = s.height ∧ t.bpp = s.bpp ∧ t.comp = s.comp ∧
      t.dataOffset = s.dataOffset ∧ t.srcLen = s.srcLen)

/-! ### Host control -/

/-- R223, R224: START outside BUSY latches the configuration, clears STATUS, the result registers and the engine
variables and goes to CHECK; while BUSY it changes nothing. A CTRL write with bit 0 set is START; with bit 0 clear it
changes nothing. -/
def Obligations.StartLatchesAndClears : Prop :=
  ∀ (s : State) (hi : BitVec 31),
    (s.busy = false → exec (.start hi) s = .next { s with
      cfg := {
        w := s.width.toInt, hs := s.height.toInt, bpp := s.bpp, comp := s.comp
        off := s.dataOffset.toNat, srcLen := s.srcLen.toNat }
      path := .none, err := .none, trunc := false, ioerr := false, payloadShort := false, rleEnd := .none
      stride := 0, rowsEmitted := 0, ioerrCount := 0, ioerrFirstRow := 0xFFFFFFFF, rleInPos := 0, rleOutPos := 0
      ip := 0, op := 0, r := 0, srcChanged := [], phase := .check }) ∧
    (s.busy = true → exec (.start hi) s = .next s) ∧
    (∀ v : Word, v.getLsbD 0 = true → exec (.regWrite 4 0 v) s = exec (.start hi) s) ∧
    (∀ v : Word, v.getLsbD 0 = false → exec (.regWrite 4 0 v) s = .next s)

/-- R221: outside BUSY an aligned 32-bit write stores into its configuration register, BPP keeping bits 15:0 (R35 to
R40), and changes nothing else; while BUSY, and at a read-only or reserved offset (R47), the write is ignored. -/
def Obligations.RegWriteStoresConfiguration : Prop :=
  ∀ (s : State) (v : Word),
    (s.busy = false →
      exec (.regWrite 4 0x08 v) s = .next { s with width := v } ∧
      exec (.regWrite 4 0x0C v) s = .next { s with height := v } ∧
      exec (.regWrite 4 0x10 v) s = .next { s with bpp := v.extractLsb' 0 16 } ∧
      exec (.regWrite 4 0x14 v) s = .next { s with comp := v } ∧
      exec (.regWrite 4 0x18 v) s = .next { s with dataOffset := v } ∧
      exec (.regWrite 4 0x1C v) s = .next { s with srcLen := v }) ∧
    ∀ off : BitVec 8, s.busy = true ∨ off = 0x04 ∨ 0x20 ≤ off.toNat → exec (.regWrite 4 off v) s = .next s

/-- R222: what a read returns at every aligned offset, while BUSY only at those that R53 does not make a draw, and that
it changes nothing else (R75). -/
def Obligations.RegReadReturnsTheRegister : Prop :=
  ∀ (s : State) (off : BitVec 8) (v : Word), off.toNat % 4 = 0 →
    s.busy = false ∨ (off ≠ 0x04 ∧ off.toNat < 0x20) ∨ 0x38 ≤ off.toNat →
    (off = 0x00 → v = 0) → (off = 0x04 → v = s.statusWord) → (off = 0x08 → v = s.width) →
    (off = 0x0C → v = s.height) → (off = 0x10 → v = s.bpp.setWidth 32) → (off = 0x14 → v = s.comp) →
    (off = 0x18 → v = s.dataOffset) → (off = 0x1C → v = s.srcLen) → (off = 0x20 → v = s.stride) →
    (off = 0x24 → v = s.rowsEmitted) → (off = 0x28 → v = s.ioerrCount) → (off = 0x2C → v = s.ioerrFirstRow) →
    (off = 0x30 → v = s.rleInPos) → (off = 0x34 → v = s.rleOutPos) → (0x38 ≤ off.toNat → v = 0) →
      exec (.regRead 4 off) s = .next { s with readData := leBytes v, draws := s.draws + 1 }

/-- R53: a read while BUSY completes. STATUS reports STATE 1, its reserved bits 0 and its other fields drawn (log 9);
a result register's value is drawn. -/
def Obligations.BusyReadsReportOnlyState : Prop :=
  ∀ s : State, s.busy = true →
    (∃ v : Word, exec (.regRead 4 0x04) s = .next { s with readData := leBytes v, draws := s.draws + 1 } ∧
      v.extractLsb' 0 2 = 1 ∧ v.getLsbD 11 = false ∧ v.extractLsb' 14 18 = 0) ∧
    (∀ off : BitVec 8, off.toNat % 4 = 0 → 0x20 ≤ off.toNat → off.toNat ≤ 0x34 →
      ∃ v : Word, exec (.regRead 4 off) s = .next { s with readData := leBytes v, draws := s.draws + 1 })

/-- R68: a write of another width or alignment is ignored, a read of one returns 0 in every byte; byte `j` of a
register holds bits `8j+7..8j`. -/
def Obligations.RegisterBytesAreLittleEndian : Prop :=
  (∀ (s : State) (w : Nat) (off : BitVec 8), w ≠ 4 ∨ off.toNat % 4 ≠ 0 →
    (∀ v : Word, exec (.regWrite w off v) s = .next s) ∧
    exec (.regRead w off) s = .next { s with readData := List.replicate w 0, draws := s.draws + 1 }) ∧
  (∀ (v : Word) (j : Nat), (leBytes v).length = 4 ∧
    (j < 4 → (leBytes v).getD j 0 = BitVec.ofNat 8 (v.toNat / 256 ^ j)))

/-- R23 with the code tables of R24, R25, R26 and R30: where each field of STATUS stands and the code of each of its
values, and that a write to STATUS changes nothing. -/
def Obligations.StatusFieldsStandInPlace : Prop :=
  ∀ s : State,
    s.statusWord.extractLsb' 0 2 =
      (if s.phase = .idle then 0 else if s.phase = .done then 2 else if s.phase = .error then 3 else 1) ∧
    s.statusWord.extractLsb' 2 2 =
      (if s.path = .none then 0 else if s.path = .rgb then 1 else if s.path = .rle8 then 2 else 3) ∧
    s.statusWord.extractLsb' 4 4 =
      (if s.err = .none then 0 else if s.err = .unsupportedBitDepth then 1
        else if s.err = .unsupportedCompression then 2 else if s.err = .invalidGeometry then 3
        else if s.err = .unsupportedCombination then 4 else 5) ∧
    s.statusWord.getLsbD 8 = s.trunc ∧
    s.statusWord.getLsbD 9 = s.ioerr ∧
    s.statusWord.getLsbD 10 = s.payloadShort ∧
    s.statusWord.getLsbD 11 = false ∧
    s.statusWord.extractLsb' 12 2 =
      (if s.rleEnd = .none then 0 else if s.rleEnd = .eob then 1 else if s.rleEnd = .outFull then 2 else 3) ∧
    s.statusWord.extractLsb' 14 18 = 0 ∧
    ∀ v : Word, exec (.regWrite 4 0x04 v) s = .next s

/-! ### Reset -/

/-- R52: the values the spec gives for reset, of the machine's first state and of the state a reset leaves (R270; that
a reset arrives as an input is log 2). -/
def Obligations.ResetGivesTheStatedValues : Prop :=
  ∀ t : State,
    t = State.reset ∨ (∃ (s : State) (rest : List Input), s.inputs = .reset :: rest ∧ step s = .next t) →
      t.statusWord = 0 ∧ t.width = 0 ∧ t.height = 0 ∧ t.bpp = 0 ∧ t.comp = 0 ∧ t.dataOffset = 0 ∧ t.srcLen = 0 ∧
      t.stride = 0 ∧ t.rowsEmitted = 0 ∧ t.ioerrCount = 0 ∧ t.rleInPos = 0 ∧ t.rleOutPos = 0 ∧
      t.ioerrFirstRow = 0xFFFFFFFF ∧ t.phase = .idle ∧ t.ip = 0 ∧ t.op = 0 ∧ t.r = 0 ∧ t.rleEnd = .none

/-- The model's own (log 2, log 17), for R271: a reset in any state completes, with the input taken off, and keeps what
lies outside the block: the rows already emitted, the source, the sink's acceptance and the parameters. -/
def Obligations.ResetKeepsTheTrace : Prop :=
  ∀ (s : State) (rest : List Input), s.inputs = .reset :: rest →
    ∃ t, step s = .next t ∧ t.trace = s.trace ∧ t.inputs = rest ∧ t.src = s.src ∧ t.srcModel = s.srcModel ∧
      t.sinkReady = s.sinkReady ∧ t.params = s.params

/-! ### Invariants and whole-machine rules -/

/-- The state after reset is one the rules produce. -/
def Obligations.ResetMeetsTheInvariant : Prop := StateInv State.reset

/-- Every step of a state the rules produce gives such a state again (R25 to R31, R42 to R44, R49, R66, R120, R251). -/
def Obligations.StepKeepsTheInvariant : Prop :=
  ∀ s t : State, StateInv s → step s = .next t → StateInv t

/-- R10, R103, R252: from a state the rules produce no step faults or is refused: no input stops the machine. -/
def Obligations.NoStepStops : Prop :=
  ∀ s : State, StateInv s → ∃ t, step s = .next t

/-- From every state, the memories keep their canonical form (the model's own, INVENTORY.md). -/
def Obligations.StepKeepsMemoriesCanonical : Prop :=
  ∀ s t : State, step s = .next t → s.src.wf = true → s.idx.wf = true → s.row.wf = true →
    t.src.wf = true ∧ t.idx.wf = true ∧ t.row.wf = true

/-- R69, R78, R271: a step leaves the output trace as it is or appends one event, for the row `r`, in a row phase, and
then ROWS_EMITTED and `r` grow by one (R42, R48). -/
def Obligations.TraceGrowsByTheNextRowOnly : Prop :=
  ∀ s t : State, step s = .next t →
    t.trace = s.trace ∨
    (s.phase = .rgbRow ∨ s.phase = .rleEmit) ∧ t.rowsEmitted = s.rowsEmitted + 1 ∧ t.r = s.r + 1 ∧
      ∃ e : EmitEvent, t.trace = s.trace ++ [e] ∧ e.row = BitVec.ofNat 32 s.r

/-- R270: only a host write or a reset changes the configuration registers. -/
def Obligations.ConfigurationChangesByHostOrReset : Prop :=
  ∀ s t : State, step s = .next t →
    (∀ w off v rest, s.inputs ≠ .access (.write w off v) :: rest) → (∀ rest, s.inputs ≠ .reset :: rest) →
      t.width = s.width ∧ t.height = s.height ∧ t.bpp = s.bpp ∧ t.comp = s.comp ∧
      t.dataOffset = s.dataOffset ∧ t.srcLen = s.srcLen

/-- R34, R221, R224, R274: while BUSY, no step but a reset changes a latched value or a configuration register. -/
def Obligations.LatchedConfigurationIsConstant : Prop :=
  ∀ s t : State, s.busy = true → step s = .next t → (∀ rest, s.inputs ≠ .reset :: rest) →
    t.cfg = s.cfg ∧ t.width = s.width ∧ t.height = s.height ∧ t.bpp = s.bpp ∧ t.comp = s.comp ∧
    t.dataOffset = s.dataOffset ∧ t.srcLen = s.srcLen

/-- R5: no step changes the implementation parameters. -/
def Obligations.ParametersAreConstant : Prop :=
  ∀ s t : State, step s = .next t → t.params = s.params

/-- R80, R64, R181: once the payload is loaded, an engine step of the run-length path does not depend on the byte
source: with other contents, changes and answers it does the same. -/
def Obligations.LoadedPayloadHidesTheSource : Prop :=
  ∀ (s : State) (src : Memory) (changed : List Nat) (model : SourceModel),
    s.phase = .rleDecode ∨ s.phase = .rleEmit →
      engineStep { s with src := src, srcChanged := changed, srcModel := model } =
        onNext (fun t => { t with src := src, srcChanged := changed, srcModel := model }) (engineStep s)

/-- R51, R52: what is never read before it is written has no influence: forgetting it before a step changes nothing
that is left after the step. -/
def Obligations.HiddenStateIsNeverRead : Prop :=
  ∀ s : State, onNext State.forget (step s) = onNext State.forget (step s.forget)

/-- R138: an RLE_DECODE step that does not stop consumes at least 2 bytes, `ip` never passes `N`, and from any
RLE_DECODE state an undisturbed engine leaves RLE_DECODE within `floor((N - ip)/2) + 1` steps. -/
def Obligations.RleDecodeEndsWithinItsBound : Prop :=
  ∀ s : State, s.phase = .rleDecode →
    (∀ t : State, engineStep s = .next t →
      (t.phase = .rleDecode → s.ip + 2 ≤ t.ip) ∧ (s.ip ≤ s.p.length → t.ip ≤ t.p.length)) ∧
    (s.inputs = [] → ∃ (k : Nat) (t : State), k ≤ (s.p.length - s.ip) / 2 + 1 ∧
      Sys2Proof.core.run k s = .next t ∧ t.phase ≠ .rleDecode)

/-- R278: an undisturbed decode reaches DONE or ERROR, within the steps the rule counts. -/
def Obligations.EveryDecodeEnds : Prop :=
  ∀ s : State, StateInv s → s.StartsUndisturbed →
    ∃ (k : Nat) (t : State),
      k ≤ 1 + (if s.cfg.comp = 0 then 0 else 1 + (s.cfg.payloadExtent / 2 + 1)) + s.cfg.rowCount ∧
      Sys2Proof.core.run k s = .next t ∧ t.ended = true

/-- R185: an undisturbed decode that reaches DONE emits exactly `L` rows, `0, 1, …, L-1` in that order, and one that
ends in ERROR emits none. -/
def Obligations.EveryDecodeEmitsItsRowsInOrder : Prop :=
  ∀ s : State, StateInv s → s.StartsUndisturbed →
    ∃ (k : Nat) (t : State) (rows : List EmitEvent),
      Sys2Proof.core.run k s = .next t ∧ t.trace = s.trace ++ rows ∧
      ((t.phase = .done ∧ rows.map (fun e => e.row.toNat) = List.range s.cfg.rowCount ∧
          t.rowsEmitted.toNat = s.cfg.rowCount) ∨
        (t.phase = .error ∧ rows = [] ∧ t.rowsEmitted = 0))
end

