-- ==== Sys2Proof/Laws/Decode.lean ====
section
/-! SUPPORT. The decoder case by case (R93), and the operands of absolute runs (R98, R99). -/

namespace Sys2Proof

theorem decodePair_rle8_run (u : AbsUnit) {b0 : Byte} (h : b0 ≠ 0) (b1 : Byte) (bytes : List Byte) :
    decodePair u .rle8 b0 b1 bytes = (.run8 b0 b1, bytes) := if_pos h

theorem decodePair_rle4_run (u : AbsUnit) {b0 : Byte} (h : b0 ≠ 0) (b1 : Byte) (bytes : List Byte) :
    decodePair u .rle4 b0 b1 bytes = (.run4 b0 b1, bytes) := if_pos h

theorem decodePair_eol (u : AbsUnit) (m : Mode) (bytes : List Byte) :
    decodePair u m 0 0 bytes = (.eol, bytes) := rfl

theorem decodePair_eob (u : AbsUnit) (m : Mode) (bytes : List Byte) :
    decodePair u m 0 1 bytes = (.eob, bytes) := rfl

theorem decodePair_delta (u : AbsUnit) (m : Mode) (dx dy : Byte) (rest : List Byte) :
    decodePair u m 0 2 (dx :: dy :: rest) = (.delta (some (dx, dy)), rest) := rfl

theorem decodePair_delta_cut (u : AbsUnit) (m : Mode) {bytes : List Byte} (h : bytes.length < 2) :
    decodePair u m 0 2 bytes = (.delta none, bytes) := by
  match bytes, h with
  | [], _ => rfl
  | [_], _ => rfl

theorem ne_of_three_le {b : Byte} (h : 3 ≤ b.toNat) : b ≠ 0 ∧ b ≠ 1 ∧ b ≠ 2 := by
  refine ⟨?_, ?_, ?_⟩ <;> rintro rfl <;> exact absurd h (by decide)

theorem decodePair_abs8 (u : AbsUnit) {b1 : Byte} (h : 3 ≤ b1.toNat) (bytes : List Byte) :
    decodePair u .rle8 0 b1 bytes =
      (.abs8 b1 (takeAbsOperands b1.toNat bytes).1 (takeAbsOperands b1.toNat bytes).2.1,
        (takeAbsOperands b1.toNat bytes).2.2) := by
  obtain ⟨h0, h1, h2⟩ := ne_of_three_le h
  unfold decodePair
  rw [if_neg (by simp), if_neg h0, if_neg h1, if_neg h2]

theorem decodePair_abs4 (u : AbsUnit) {b1 : Byte} (h : 3 ≤ b1.toNat) (bytes : List Byte) :
    decodePair u .rle4 0 b1 bytes =
      (.abs4 b1 (takeAbsOperands (abs4LiteralBytes u b1.toNat) bytes).1
          (takeAbsOperands (abs4LiteralBytes u b1.toNat) bytes).2.1,
        (takeAbsOperands (abs4LiteralBytes u b1.toNat) bytes).2.2) := by
  obtain ⟨h0, h1, h2⟩ := ne_of_three_le h
  unfold decodePair
  rw [if_neg (by simp), if_neg h0, if_neg h1, if_neg h2]

/-- The classes of R93 cover every opcode pair. -/
theorem pair_cases (b0 b1 : Byte) :
    b0 ≠ 0 ∨ (b0 = 0 ∧ b1 = 0) ∨ (b0 = 0 ∧ b1 = 1) ∨ (b0 = 0 ∧ b1 = 2) ∨ (b0 = 0 ∧ 3 ≤ b1.toNat) := by
  by_cases h : b0 = 0
  · right
    have : b1.toNat = 0 ∨ b1.toNat = 1 ∨ b1.toNat = 2 ∨ 3 ≤ b1.toNat := by omega
    rcases this with h1 | h1 | h1 | h1
    · exact .inl ⟨h, BitVec.eq_of_toNat_eq h1⟩
    · exact .inr (.inl ⟨h, BitVec.eq_of_toNat_eq h1⟩)
    · exact .inr (.inr (.inl ⟨h, BitVec.eq_of_toNat_eq h1⟩))
    · exact .inr (.inr (.inr ⟨h, h1⟩))
  · exact .inl h

/-- Which bytes the operands of an absolute run are, and which are left (R98, R99). -/
theorem takeAbsOperands_eq (m : Nat) (bytes : List Byte) :
    takeAbsOperands m bytes =
      (bytes.take m, if m % 2 = 1 then bytes[m]? else none, bytes.drop (m + m % 2)) := by
  unfold takeAbsOperands
  split
  · rename_i h; simp [List.head?_drop, List.tail_drop, h]
  · rename_i h; simp [show m % 2 = 0 by omega]

/-- The operands taken and the bytes left over are all the bytes. -/
theorem takeAbsOperands_append (m : Nat) (bytes : List Byte) :
    (takeAbsOperands m bytes).1 ++ (padBytes (takeAbsOperands m bytes).2.1 ++ (takeAbsOperands m bytes).2.2) =
      bytes := by
  have h := List.take_append_drop m bytes
  unfold takeAbsOperands
  split
  · cases hd : bytes.drop m with
    | nil => simpa [padBytes, hd] using h
    | cons b r => simpa [padBytes, hd] using h
  · simp [padBytes]

/-- Complete operands are taken whole (R98, R99). -/
theorem takeAbsOperands_complete {m : Nat} {lits : List Byte} {pad : Option Byte} (rest : List Byte)
    (h1 : lits.length = m) (h2 : pad.isSome = (m % 2 == 1)) :
    takeAbsOperands m (lits ++ (padBytes pad ++ rest)) = (lits, pad, rest) := by
  subst h1
  cases pad with
  | none =>
    have : ¬ lits.length % 2 = 1 := by simpa using h2
    simp [takeAbsOperands, this, padBytes]
  | some b =>
    have : lits.length % 2 = 1 := by simpa using h2.symm
    simp [takeAbsOperands, this, padBytes]

/-- At most `m` literals are taken, and a pad only after all of them. -/
theorem length_takeAbsOperands (m : Nat) (bytes : List Byte) :
    (takeAbsOperands m bytes).1 = bytes.take m ∧
      ((takeAbsOperands m bytes).2.1.isSome = true ↔ m % 2 = 1 ∧ m < bytes.length) := by
  unfold takeAbsOperands
  split
  · rename_i hm; simp [hm]
  · rename_i hm; simp [hm]

@[simp] theorem length_padBytes (pad : Option Byte) : (padBytes pad).length = if pad.isSome then 1 else 0 := by
  cases pad <;> rfl

end Sys2Proof
end

