-- ==== Sys2Proof/Laws/Memory.lean ====
section
/-! SUPPORT. The laws of byte memories: read after write, the canonical form, and that equal readings are equal
memories. -/

namespace Sys2Proof.Machine

@[simp] theorem Memory.read_nil (a : Nat) : Memory.read [] a = Memory.unlisted := rfl

@[simp] theorem Memory.wf_nil : Memory.wf [] = true := rfl

theorem Memory.wfFrom_cons (lo k : Nat) (v : Byte) (rest : Memory) :
    Memory.wfFrom lo ((k, v) :: rest) = true ↔
      lo ≤ k ∧ v ≠ Memory.unlisted ∧ Memory.wfFrom (k + 1) rest = true := by
  simp [Memory.wfFrom, and_assoc]

theorem Memory.wfFrom_mono {lo lo' : Nat} {m : Memory} (h : Memory.wfFrom lo m = true) (hle : lo' ≤ lo) :
    Memory.wfFrom lo' m = true := by
  cases m with
  | nil => rfl
  | cons c rest =>
    obtain ⟨k, v⟩ := c
    rw [Memory.wfFrom_cons] at h ⊢
    exact ⟨hle.trans h.1, h.2⟩

/-- Below its first possible address a canonical memory reads as unlisted. -/
theorem Memory.read_below {lo : Nat} {m : Memory} (h : Memory.wfFrom lo m = true) {a : Nat} (ha : a < lo) :
    m.read a = Memory.unlisted := by
  induction m generalizing lo with
  | nil => rfl
  | cons c rest ih =>
    obtain ⟨k, v⟩ := c
    rw [Memory.wfFrom_cons] at h
    have hk : k ≠ a := by omega
    simpa [Memory.read, hk] using ih h.2.2 (by omega)

/-- A read after a write: the written byte at its address, everything else as before. -/
theorem Memory.read_write {m : Memory} (h : m.wf = true) (a : Nat) (b : Byte) (x : Nat) :
    (m.write a b).read x = if x = a then b else m.read x := by
  suffices H : ∀ (m : Memory) (lo : Nat), Memory.wfFrom lo m = true →
      (m.write a b).read x = if x = a then b else m.read x from H m 0 h
  intro m
  induction m with
  | nil =>
    intro lo _
    by_cases hb : b = Memory.unlisted
    · simp [Memory.write, hb]
    · by_cases hx : x = a
      · simp [Memory.write, hb, Memory.read, hx]
      · simp [Memory.write, hb, Memory.read, hx, Ne.symm hx]
  | cons c rest ih =>
    intro lo h
    obtain ⟨k, v⟩ := c
    rw [Memory.wfFrom_cons] at h
    have hbelow : ∀ y, y ≤ k → Memory.read rest y = Memory.unlisted := fun y hy =>
      Memory.read_below h.2.2 (by omega)
    rcases Nat.lt_trichotomy a k with hak | hak | hak
    · have hka : k ≠ a := by omega
      by_cases hb : b = Memory.unlisted
      · by_cases hx : x = a
        · subst hx; simp [Memory.write, hak, hb, Memory.read, hka, hbelow x (by omega)]
        · simp [Memory.write, hak, hb, hx]
      · by_cases hx : x = a
        · simp [Memory.write, hak, hb, Memory.read, hx]
        · simp [Memory.write, hak, hb, Memory.read, hx, Ne.symm hx]
    · subst hak
      by_cases hb : b = Memory.unlisted
      · by_cases hx : x = a
        · subst hx; simp [Memory.write, hb, hbelow x (by omega)]
        · simp [Memory.write, hb, Memory.read, hx, Ne.symm hx]
      · by_cases hx : x = a
        · simp [Memory.write, hb, Memory.read, hx]
        · simp [Memory.write, hb, Memory.read, hx, Ne.symm hx]
    · have h1 : ¬ a < k := by omega
      have h2 : a ≠ k := by omega
      by_cases hx : x = k
      · subst hx; simp [Memory.write, h1, h2, Memory.read, Ne.symm h2]
      · simp [Memory.write, h1, h2, Memory.read, Ne.symm hx, ih _ h.2.2]

theorem Memory.wfFrom_write {m : Memory} {lo a : Nat} (h : Memory.wfFrom lo m = true) (hlo : lo ≤ a) (b : Byte) :
    Memory.wfFrom lo (m.write a b) = true := by
  induction m generalizing lo with
  | nil =>
    by_cases hb : b = Memory.unlisted
    · simp [Memory.write, hb, Memory.wfFrom]
    · simp only [Memory.write, hb, if_false]
      rw [Memory.wfFrom_cons]
      exact ⟨hlo, hb, rfl⟩
  | cons c rest ih =>
    obtain ⟨k, v⟩ := c
    have h' := h
    rw [Memory.wfFrom_cons] at h
    rcases Nat.lt_trichotomy a k with hak | hak | hak
    · by_cases hb : b = Memory.unlisted
      · simpa [Memory.write, hak, hb] using h'
      · simp only [Memory.write, hak, hb, if_true, if_false]
        rw [Memory.wfFrom_cons, Memory.wfFrom_cons]
        exact ⟨hlo, hb, by omega, h.2⟩
    · subst hak
      by_cases hb : b = Memory.unlisted
      · simpa [Memory.write, hb] using Memory.wfFrom_mono h.2.2 (by omega)
      · simp only [Memory.write, hb, if_true, if_false, Nat.lt_irrefl]
        rw [Memory.wfFrom_cons]
        exact ⟨hlo, hb, h.2.2⟩
    · have h1 : ¬ a < k := by omega
      have h2 : a ≠ k := by omega
      simp only [Memory.write, h1, h2, if_false]
      rw [Memory.wfFrom_cons]
      exact ⟨h.1, h.2.1, ih h.2.2 (by omega)⟩

/-- A write keeps the canonical form. -/
theorem Memory.wf_write {m : Memory} (h : m.wf = true) (a : Nat) (b : Byte) : (m.write a b).wf = true :=
  Memory.wfFrom_write h (Nat.zero_le _) b

/-- Every entry after a write is an old one or the written one. -/
theorem Memory.mem_write {m : Memory} {a : Nat} {b : Byte} {c : Host.Cell} (h : c ∈ m.write a b) :
    c ∈ m ∨ c = (a, b) := by
  induction m with
  | nil =>
    by_cases hb : b = Memory.unlisted
    · simp [Memory.write, hb] at h
    · simp only [Memory.write, hb, if_false, List.mem_singleton] at h; exact .inr h
  | cons d rest ih =>
    obtain ⟨k, v⟩ := d
    simp only [Memory.write] at h
    split at h
    · split at h
      · exact .inl h
      · rcases List.mem_cons.1 h with h | h
        · exact .inr h
        · exact .inl h
    · split at h
      · split at h
        · exact .inl (List.mem_cons_of_mem _ h)
        · rcases List.mem_cons.1 h with h | h
          · exact .inr h
          · exact .inl (List.mem_cons_of_mem _ h)
      · rcases List.mem_cons.1 h with h | h
        · exact .inl (h ▸ List.mem_cons_self)
        · rcases ih h with h | h
          · exact .inl (List.mem_cons_of_mem _ h)
          · exact .inr h

/-- A listed entry is what its address reads as. -/
theorem Memory.read_of_mem {m : Memory} {lo : Nat} (h : Memory.wfFrom lo m = true) {c : Host.Cell} (hc : c ∈ m) :
    lo ≤ c.1 ∧ m.read c.1 = c.2 := by
  induction m generalizing lo with
  | nil => simp at hc
  | cons d rest ih =>
    obtain ⟨k, v⟩ := d
    rw [Memory.wfFrom_cons] at h
    rcases List.mem_cons.1 hc with hc | hc
    · subst hc; exact ⟨h.1, by simp [Memory.read]⟩
    · obtain ⟨h1, h2⟩ := ih h.2.2 hc
      have hk : k ≠ c.1 := by omega
      exact ⟨by omega, by simpa [Memory.read, hk] using h2⟩

/-- An address that does not read as unlisted is listed. -/
theorem Memory.mem_of_read {m : Memory} {a : Nat} (h : m.read a ≠ Memory.unlisted) : (a, m.read a) ∈ m := by
  induction m with
  | nil => exact absurd rfl h
  | cons d rest ih =>
    obtain ⟨k, v⟩ := d
    by_cases hk : k = a
    · subst hk; simp [Memory.read]
    · simp only [Memory.read, hk, if_false] at h ⊢
      exact List.mem_cons_of_mem _ (ih h)

/-- Canonical memories that read alike are equal. -/
theorem Memory.ext_read {m n : Memory} (hm : m.wf = true) (hn : n.wf = true) (h : ∀ a, m.read a = n.read a) :
    m = n := by
  suffices H : ∀ (m n : Memory) (lo : Nat), Memory.wfFrom lo m = true → Memory.wfFrom lo n = true →
      (∀ a, m.read a = n.read a) → m = n from H m n 0 hm hn h
  intro m
  induction m with
  | nil =>
    intro n lo _ hn h
    cases n with
    | nil => rfl
    | cons d rest =>
      obtain ⟨k, v⟩ := d
      rw [Memory.wfFrom_cons] at hn
      exact absurd (by simpa [Memory.read] using (h k).symm) hn.2.1
  | cons c rest ih =>
    intro n lo hm hn h
    obtain ⟨k, v⟩ := c
    rw [Memory.wfFrom_cons] at hm
    cases n with
    | nil => exact absurd (by simpa [Memory.read] using h k) hm.2.1
    | cons d rest' =>
      obtain ⟨k', v'⟩ := d
      rw [Memory.wfFrom_cons] at hn
      have hk : k = k' := by
        rcases Nat.lt_trichotomy k k' with hlt | heq | hlt
        · have := h k
          have hne : k' ≠ k := by omega
          rw [show Memory.read ((k, v) :: rest) k = v by simp [Memory.read]] at this
          simp only [Memory.read, hne, if_false] at this
          exact absurd (this.trans (Memory.read_below hn.2.2 (by omega))) hm.2.1
        · exact heq
        · have := h k'
          have hne : k ≠ k' := by omega
          rw [show Memory.read ((k', v') :: rest') k' = v' by simp [Memory.read]] at this
          simp only [Memory.read, hne, if_false] at this
          exact absurd (this.symm.trans (Memory.read_below hm.2.2 (by omega))) hn.2.1
      subst hk
      have hv : v = v' := by simpa [Memory.read] using h k
      subst hv
      have hrest : rest = rest' := by
        refine ih rest' (k + 1) hm.2.2 hn.2.2 fun a => ?_
        by_cases ha : k = a
        · subst ha
          rw [Memory.read_below hm.2.2 (by omega), Memory.read_below hn.2.2 (by omega)]
        · simpa [Memory.read, ha] using h a
      rw [hrest]

/-- Storing bytes keeps the canonical form. -/
theorem Memory.wf_writeAll {m : Memory} (h : m.wf = true) (a : Nat) (bs : List Byte) :
    (m.writeAll a bs).wf = true := by
  induction bs generalizing m a with
  | nil => exact h
  | cons b bs ih => exact ih (Memory.wf_write h a b) (a + 1)

/-- What reads after storing bytes: the bytes at their addresses, everything else as before. -/
theorem Memory.read_writeAll {m : Memory} (h : m.wf = true) (a : Nat) (bs : List Byte) (x : Nat) :
    (m.writeAll a bs).read x = if a ≤ x ∧ x < a + bs.length then bs.getD (x - a) 0 else m.read x := by
  induction bs generalizing m a with
  | nil =>
    have : ¬ (a ≤ x ∧ x < a + ([] : List Byte).length) := by simp
    rw [if_neg this]; rfl
  | cons b bs ih =>
    simp only [Memory.writeAll, ih (Memory.wf_write h a b), Memory.read_write h, List.length_cons]
    rcases Nat.lt_trichotomy x a with hx | hx | hx
    · rw [if_neg (by omega), if_neg (by omega), if_neg (by omega)]
    · subst hx; rw [if_neg (by omega), if_pos rfl, if_pos (by omega)]; simp
    · obtain ⟨d, rfl⟩ : ∃ d, x = a + 1 + d := ⟨x - (a + 1), by omega⟩
      have h1 : a + 1 + d - (a + 1) = d := by omega
      have h2 : a + 1 + d - a = d + 1 := by omega
      by_cases hd : d < bs.length
      · rw [if_pos (by omega), if_pos (by omega), h1, h2]; simp
      · rw [if_neg (by omega), if_neg (by omega), if_neg (by omega)]

@[simp] theorem Memory.length_slice (m : Memory) (a n : Nat) : (m.slice a n).length = n := by
  simp [Memory.slice]

/-- A byte of a slice. -/
theorem Memory.getD_slice (m : Memory) (a n j : Nat) (h : j < n) : (m.slice a n).getD j 0 = m.read (a + j) := by
  simp [Memory.slice, List.getD, h]

end Sys2Proof.Machine
end

