-- ==== Sys2Proof/Laws/Reorder.lean ====
section
/-! SUPPORT. What the row transforms do to a row, byte by byte (R203, R204, R206). -/

namespace Sys2Proof.Machine

theorem wf_swapPixel {row : Memory} (h : row.wf = true) (i : Nat) : (swapPixel i row).wf = true :=
  Memory.wf_write (Memory.wf_write h _ _) _ _

/-- One pixel of SWAP24 (R203). -/
theorem read_swapPixel {row : Memory} (h : row.wf = true) (i x : Nat) :
    (swapPixel i row).read x =
      if x = 3 * i + 2 then row.read (3 * i) else if x = 3 * i then row.read (3 * i + 2) else row.read x := by
  rw [swapPixel, Memory.read_write (Memory.wf_write h _ _), Memory.read_write h]

theorem wf_swapPixels {row : Memory} (h : row.wf = true) (n : Nat) : (swapPixels n row).wf = true := by
  induction n with
  | zero => exact h
  | succ n ih => exact wf_swapPixel ih n

/-- Where byte `x` of a swapped row comes from: lanes (0, 1, 2) become (2, 1, 0) (R206). -/
theorem read_swapPixels {row : Memory} (h : row.wf = true) (n x : Nat) :
    (swapPixels n row).read x = if x < 3 * n then row.read (3 * (x / 3) + (2 - x % 3)) else row.read x := by
  induction n generalizing x with
  | zero => rfl
  | succ n ih =>
    simp only [swapPixels, read_swapPixel (wf_swapPixels h n), ih]
    split_ifs <;> first | (exfalso; omega) | (congr 1; omega) | rfl

theorem wf_compactPixel {row : Memory} (h : row.wf = true) (i : Nat) : (compactPixel i row).wf = true :=
  Memory.wf_write (Memory.wf_write (Memory.wf_write h _ _) _ _) _ _

/-- One pixel of COMPACT32 (R204). -/
theorem read_compactPixel {row : Memory} (h : row.wf = true) (i x : Nat) :
    (compactPixel i row).read x =
      if x = 3 * i + 2 then row.read (4 * i) else if x = 3 * i + 1 then row.read (4 * i + 1)
      else if x = 3 * i then row.read (4 * i + 2) else row.read x := by
  rw [compactPixel, Memory.read_write (Memory.wf_write (Memory.wf_write h _ _) _ _),
    Memory.read_write (Memory.wf_write h _ _), Memory.read_write h]

theorem wf_compactPixels {row : Memory} (h : row.wf = true) (n : Nat) : (compactPixels n row).wf = true := by
  induction n with
  | zero => exact h
  | succ n ih => exact wf_compactPixel ih n

/-- Where byte `x` of a compacted row comes from: lane `x mod 3` of triple `x div 3` is lane `2 - x mod 3` of that
quad of the row on entry (R204, R206). -/
theorem read_compactPixels {row : Memory} (h : row.wf = true) (n x : Nat) :
    (compactPixels n row).read x = if x < 3 * n then row.read (4 * (x / 3) + (2 - x % 3)) else row.read x := by
  induction n generalizing x with
  | zero => rfl
  | succ n ih =>
    simp only [compactPixels, read_compactPixel (wf_compactPixels h n), ih]
    split_ifs <;> first | (exfalso; omega) | (congr 1; omega) | rfl

/-- At 24 bits a pixel the row holds its pixels (R172). -/
theorem three_pixels_le_stride {c : Latched} (h : c.bpp = 24) : 3 * c.pixels ≤ c.rowStride := by
  have hb : (24 : BitVec 16).toNat = 24 := rfl
  simp only [Latched.rowStride, h, hb]; omega

/-- At 32 bits a pixel the row holds its pixels (R172). -/
theorem four_pixels_le_stride {c : Latched} (h : c.bpp = 32) : 4 * c.pixels ≤ c.rowStride := by
  have hb : (32 : BitVec 16).toNat = 32 := rfl
  simp only [Latched.rowStride, h, hb]; omega

end Sys2Proof.Machine
end

