-- ==== Sys2Proof/Laws/State.lean ====
section
/-! SUPPORT. For each shared operation that updates the state, what every field is after it. All true by unfolding. -/

namespace Sys2Proof.Machine

/-! `put` -/

@[simp] theorem put_width (v : Byte) (s : State) : (put v s).width = s.width := rfl
@[simp] theorem put_height (v : Byte) (s : State) : (put v s).height = s.height := rfl
@[simp] theorem put_bpp (v : Byte) (s : State) : (put v s).bpp = s.bpp := rfl
@[simp] theorem put_comp (v : Byte) (s : State) : (put v s).comp = s.comp := rfl
@[simp] theorem put_dataOffset (v : Byte) (s : State) : (put v s).dataOffset = s.dataOffset := rfl
@[simp] theorem put_srcLen (v : Byte) (s : State) : (put v s).srcLen = s.srcLen := rfl
@[simp] theorem put_path (v : Byte) (s : State) : (put v s).path = s.path := rfl
@[simp] theorem put_err (v : Byte) (s : State) : (put v s).err = s.err := rfl
@[simp] theorem put_trunc (v : Byte) (s : State) : (put v s).trunc = s.trunc := rfl
@[simp] theorem put_ioerr (v : Byte) (s : State) : (put v s).ioerr = s.ioerr := rfl
@[simp] theorem put_payloadShort (v : Byte) (s : State) : (put v s).payloadShort = s.payloadShort := rfl
@[simp] theorem put_stride (v : Byte) (s : State) : (put v s).stride = s.stride := rfl
@[simp] theorem put_rowsEmitted (v : Byte) (s : State) : (put v s).rowsEmitted = s.rowsEmitted := rfl
@[simp] theorem put_ioerrCount (v : Byte) (s : State) : (put v s).ioerrCount = s.ioerrCount := rfl
@[simp] theorem put_ioerrFirstRow (v : Byte) (s : State) : (put v s).ioerrFirstRow = s.ioerrFirstRow := rfl
@[simp] theorem put_rleInPos (v : Byte) (s : State) : (put v s).rleInPos = s.rleInPos := rfl
@[simp] theorem put_rleOutPos (v : Byte) (s : State) : (put v s).rleOutPos = s.rleOutPos := rfl
@[simp] theorem put_phase (v : Byte) (s : State) : (put v s).phase = s.phase := rfl
@[simp] theorem put_cfg (v : Byte) (s : State) : (put v s).cfg = s.cfg := rfl
@[simp] theorem put_mode (v : Byte) (s : State) : (put v s).mode = s.mode := rfl
@[simp] theorem put_ip (v : Byte) (s : State) : (put v s).ip = s.ip := rfl
@[simp] theorem put_op (v : Byte) (s : State) : (put v s).op = s.op + 1 := rfl
@[simp] theorem put_r (v : Byte) (s : State) : (put v s).r = s.r := rfl
@[simp] theorem put_rleEnd (v : Byte) (s : State) : (put v s).rleEnd = s.rleEnd := rfl
@[simp] theorem put_p (v : Byte) (s : State) : (put v s).p = s.p := rfl
@[simp] theorem put_idx (v : Byte) (s : State) : (put v s).idx = s.idx.write s.op v := rfl
@[simp] theorem put_row (v : Byte) (s : State) : (put v s).row = s.row := rfl
@[simp] theorem put_src (v : Byte) (s : State) : (put v s).src = s.src := rfl
@[simp] theorem put_srcChanged (v : Byte) (s : State) : (put v s).srcChanged = s.srcChanged := rfl
@[simp] theorem put_srcModel (v : Byte) (s : State) : (put v s).srcModel = s.srcModel := rfl
@[simp] theorem put_sinkReady (v : Byte) (s : State) : (put v s).sinkReady = s.sinkReady := rfl
@[simp] theorem put_trace (v : Byte) (s : State) : (put v s).trace = s.trace := rfl
@[simp] theorem put_params (v : Byte) (s : State) : (put v s).params = s.params := rfl
@[simp] theorem put_readData (v : Byte) (s : State) : (put v s).readData = s.readData := rfl
@[simp] theorem put_inputs (v : Byte) (s : State) : (put v s).inputs = s.inputs := rfl
@[simp] theorem put_draws (v : Byte) (s : State) : (put v s).draws = s.draws := rfl

/-! `consume` -/

@[simp] theorem consume_width (k : Nat) (s : State) : (consume k s).width = s.width := rfl
@[simp] theorem consume_height (k : Nat) (s : State) : (consume k s).height = s.height := rfl
@[simp] theorem consume_bpp (k : Nat) (s : State) : (consume k s).bpp = s.bpp := rfl
@[simp] theorem consume_comp (k : Nat) (s : State) : (consume k s).comp = s.comp := rfl
@[simp] theorem consume_dataOffset (k : Nat) (s : State) : (consume k s).dataOffset = s.dataOffset := rfl
@[simp] theorem consume_srcLen (k : Nat) (s : State) : (consume k s).srcLen = s.srcLen := rfl
@[simp] theorem consume_path (k : Nat) (s : State) : (consume k s).path = s.path := rfl
@[simp] theorem consume_err (k : Nat) (s : State) : (consume k s).err = s.err := rfl
@[simp] theorem consume_trunc (k : Nat) (s : State) : (consume k s).trunc = s.trunc := rfl
@[simp] theorem consume_ioerr (k : Nat) (s : State) : (consume k s).ioerr = s.ioerr := rfl
@[simp] theorem consume_payloadShort (k : Nat) (s : State) : (consume k s).payloadShort = s.payloadShort := rfl
@[simp] theorem consume_stride (k : Nat) (s : State) : (consume k s).stride = s.stride := rfl
@[simp] theorem consume_rowsEmitted (k : Nat) (s : State) : (consume k s).rowsEmitted = s.rowsEmitted := rfl
@[simp] theorem consume_ioerrCount (k : Nat) (s : State) : (consume k s).ioerrCount = s.ioerrCount := rfl
@[simp] theorem consume_ioerrFirstRow (k : Nat) (s : State) : (consume k s).ioerrFirstRow = s.ioerrFirstRow := rfl
@[simp] theorem consume_rleInPos (k : Nat) (s : State) : (consume k s).rleInPos = s.rleInPos := rfl
@[simp] theorem consume_rleOutPos (k : Nat) (s : State) : (consume k s).rleOutPos = s.rleOutPos := rfl
@[simp] theorem consume_phase (k : Nat) (s : State) : (consume k s).phase = s.phase := rfl
@[simp] theorem consume_cfg (k : Nat) (s : State) : (consume k s).cfg = s.cfg := rfl
@[simp] theorem consume_mode (k : Nat) (s : State) : (consume k s).mode = s.mode := rfl
@[simp] theorem consume_ip (k : Nat) (s : State) : (consume k s).ip = s.ip + k := rfl
@[simp] theorem consume_op (k : Nat) (s : State) : (consume k s).op = s.op := rfl
@[simp] theorem consume_r (k : Nat) (s : State) : (consume k s).r = s.r := rfl
@[simp] theorem consume_rleEnd (k : Nat) (s : State) : (consume k s).rleEnd = s.rleEnd := rfl
@[simp] theorem consume_p (k : Nat) (s : State) : (consume k s).p = s.p := rfl
@[simp] theorem consume_idx (k : Nat) (s : State) : (consume k s).idx = s.idx := rfl
@[simp] theorem consume_row (k : Nat) (s : State) : (consume k s).row = s.row := rfl
@[simp] theorem consume_src (k : Nat) (s : State) : (consume k s).src = s.src := rfl
@[simp] theorem consume_srcChanged (k : Nat) (s : State) : (consume k s).srcChanged = s.srcChanged := rfl
@[simp] theorem consume_srcModel (k : Nat) (s : State) : (consume k s).srcModel = s.srcModel := rfl
@[simp] theorem consume_sinkReady (k : Nat) (s : State) : (consume k s).sinkReady = s.sinkReady := rfl
@[simp] theorem consume_trace (k : Nat) (s : State) : (consume k s).trace = s.trace := rfl
@[simp] theorem consume_params (k : Nat) (s : State) : (consume k s).params = s.params := rfl
@[simp] theorem consume_readData (k : Nat) (s : State) : (consume k s).readData = s.readData := rfl
@[simp] theorem consume_inputs (k : Nat) (s : State) : (consume k s).inputs = s.inputs := rfl
@[simp] theorem consume_draws (k : Nat) (s : State) : (consume k s).draws = s.draws := rfl

/-! `finish` -/

@[simp] theorem finish_width (s : State) : (finish s).width = s.width := rfl
@[simp] theorem finish_height (s : State) : (finish s).height = s.height := rfl
@[simp] theorem finish_bpp (s : State) : (finish s).bpp = s.bpp := rfl
@[simp] theorem finish_comp (s : State) : (finish s).comp = s.comp := rfl
@[simp] theorem finish_dataOffset (s : State) : (finish s).dataOffset = s.dataOffset := rfl
@[simp] theorem finish_srcLen (s : State) : (finish s).srcLen = s.srcLen := rfl
@[simp] theorem finish_path (s : State) : (finish s).path = s.path := rfl
@[simp] theorem finish_err (s : State) : (finish s).err = s.err := rfl
@[simp] theorem finish_trunc (s : State) : (finish s).trunc = truncOf s.rleEnd := rfl
@[simp] theorem finish_ioerr (s : State) : (finish s).ioerr = s.ioerr := rfl
@[simp] theorem finish_payloadShort (s : State) : (finish s).payloadShort = s.payloadShort := rfl
@[simp] theorem finish_stride (s : State) : (finish s).stride = s.stride := rfl
@[simp] theorem finish_rowsEmitted (s : State) : (finish s).rowsEmitted = s.rowsEmitted := rfl
@[simp] theorem finish_ioerrCount (s : State) : (finish s).ioerrCount = s.ioerrCount := rfl
@[simp] theorem finish_ioerrFirstRow (s : State) : (finish s).ioerrFirstRow = s.ioerrFirstRow := rfl
@[simp] theorem finish_rleInPos (s : State) : (finish s).rleInPos = BitVec.ofNat 32 s.ip := rfl
@[simp] theorem finish_rleOutPos (s : State) : (finish s).rleOutPos = BitVec.ofNat 32 (min s.op s.cfg.size) := rfl
@[simp] theorem finish_phase (s : State) : (finish s).phase = if s.cfg.rowCount = 0 then .done else .rleEmit := rfl
@[simp] theorem finish_cfg (s : State) : (finish s).cfg = s.cfg := rfl
@[simp] theorem finish_mode (s : State) : (finish s).mode = s.mode := rfl
@[simp] theorem finish_ip (s : State) : (finish s).ip = s.ip := rfl
@[simp] theorem finish_op (s : State) : (finish s).op = s.op := rfl
@[simp] theorem finish_r (s : State) : (finish s).r = 0 := rfl
@[simp] theorem finish_rleEnd (s : State) : (finish s).rleEnd = s.rleEnd := rfl
@[simp] theorem finish_p (s : State) : (finish s).p = s.p := rfl
@[simp] theorem finish_idx (s : State) : (finish s).idx = s.idx := rfl
@[simp] theorem finish_row (s : State) : (finish s).row = s.row := rfl
@[simp] theorem finish_src (s : State) : (finish s).src = s.src := rfl
@[simp] theorem finish_srcChanged (s : State) : (finish s).srcChanged = s.srcChanged := rfl
@[simp] theorem finish_srcModel (s : State) : (finish s).srcModel = s.srcModel := rfl
@[simp] theorem finish_sinkReady (s : State) : (finish s).sinkReady = s.sinkReady := rfl
@[simp] theorem finish_trace (s : State) : (finish s).trace = s.trace := rfl
@[simp] theorem finish_params (s : State) : (finish s).params = s.params := rfl
@[simp] theorem finish_readData (s : State) : (finish s).readData = s.readData := rfl
@[simp] theorem finish_inputs (s : State) : (finish s).inputs = s.inputs := rfl
@[simp] theorem finish_draws (s : State) : (finish s).draws = s.draws := rfl

/-! `stop` -/

@[simp] theorem stop_width (e : RleEnd) (s : State) : (stop e s).width = s.width := rfl
@[simp] theorem stop_height (e : RleEnd) (s : State) : (stop e s).height = s.height := rfl
@[simp] theorem stop_bpp (e : RleEnd) (s : State) : (stop e s).bpp = s.bpp := rfl
@[simp] theorem stop_comp (e : RleEnd) (s : State) : (stop e s).comp = s.comp := rfl
@[simp] theorem stop_dataOffset (e : RleEnd) (s : State) : (stop e s).dataOffset = s.dataOffset := rfl
@[simp] theorem stop_srcLen (e : RleEnd) (s : State) : (stop e s).srcLen = s.srcLen := rfl
@[simp] theorem stop_path (e : RleEnd) (s : State) : (stop e s).path = s.path := rfl
@[simp] theorem stop_err (e : RleEnd) (s : State) : (stop e s).err = s.err := rfl
@[simp] theorem stop_trunc (e : RleEnd) (s : State) : (stop e s).trunc = truncOf e := rfl
@[simp] theorem stop_ioerr (e : RleEnd) (s : State) : (stop e s).ioerr = s.ioerr := rfl
@[simp] theorem stop_payloadShort (e : RleEnd) (s : State) : (stop e s).payloadShort = s.payloadShort := rfl
@[simp] theorem stop_stride (e : RleEnd) (s : State) : (stop e s).stride = s.stride := rfl
@[simp] theorem stop_rowsEmitted (e : RleEnd) (s : State) : (stop e s).rowsEmitted = s.rowsEmitted := rfl
@[simp] theorem stop_ioerrCount (e : RleEnd) (s : State) : (stop e s).ioerrCount = s.ioerrCount := rfl
@[simp] theorem stop_ioerrFirstRow (e : RleEnd) (s : State) : (stop e s).ioerrFirstRow = s.ioerrFirstRow := rfl
@[simp] theorem stop_rleInPos (e : RleEnd) (s : State) : (stop e s).rleInPos = BitVec.ofNat 32 s.ip := rfl
@[simp] theorem stop_rleOutPos (e : RleEnd) (s : State) :
    (stop e s).rleOutPos = BitVec.ofNat 32 (min s.op s.cfg.size) := rfl
@[simp] theorem stop_phase (e : RleEnd) (s : State) :
    (stop e s).phase = if s.cfg.rowCount = 0 then .done else .rleEmit := rfl
@[simp] theorem stop_cfg (e : RleEnd) (s : State) : (stop e s).cfg = s.cfg := rfl
@[simp] theorem stop_mode (e : RleEnd) (s : State) : (stop e s).mode = s.mode := rfl
@[simp] theorem stop_ip (e : RleEnd) (s : State) : (stop e s).ip = s.ip := rfl
@[simp] theorem stop_op (e : RleEnd) (s : State) : (stop e s).op = s.op := rfl
@[simp] theorem stop_r (e : RleEnd) (s : State) : (stop e s).r = 0 := rfl
@[simp] theorem stop_rleEnd (e : RleEnd) (s : State) : (stop e s).rleEnd = e := rfl
@[simp] theorem stop_p (e : RleEnd) (s : State) : (stop e s).p = s.p := rfl
@[simp] theorem stop_idx (e : RleEnd) (s : State) : (stop e s).idx = s.idx := rfl
@[simp] theorem stop_row (e : RleEnd) (s : State) : (stop e s).row = s.row := rfl
@[simp] theorem stop_src (e : RleEnd) (s : State) : (stop e s).src = s.src := rfl
@[simp] theorem stop_srcChanged (e : RleEnd) (s : State) : (stop e s).srcChanged = s.srcChanged := rfl
@[simp] theorem stop_srcModel (e : RleEnd) (s : State) : (stop e s).srcModel = s.srcModel := rfl
@[simp] theorem stop_sinkReady (e : RleEnd) (s : State) : (stop e s).sinkReady = s.sinkReady := rfl
@[simp] theorem stop_trace (e : RleEnd) (s : State) : (stop e s).trace = s.trace := rfl
@[simp] theorem stop_params (e : RleEnd) (s : State) : (stop e s).params = s.params := rfl
@[simp] theorem stop_readData (e : RleEnd) (s : State) : (stop e s).readData = s.readData := rfl
@[simp] theorem stop_inputs (e : RleEnd) (s : State) : (stop e s).inputs = s.inputs := rfl
@[simp] theorem stop_draws (e : RleEnd) (s : State) : (stop e s).draws = s.draws := rfl

/-! `raiseFatal` -/

@[simp] theorem raiseFatal_width (c : ErrCode) (s : State) : (raiseFatal c s).width = s.width := rfl
@[simp] theorem raiseFatal_height (c : ErrCode) (s : State) : (raiseFatal c s).height = s.height := rfl
@[simp] theorem raiseFatal_bpp (c : ErrCode) (s : State) : (raiseFatal c s).bpp = s.bpp := rfl
@[simp] theorem raiseFatal_comp (c : ErrCode) (s : State) : (raiseFatal c s).comp = s.comp := rfl
@[simp] theorem raiseFatal_dataOffset (c : ErrCode) (s : State) : (raiseFatal c s).dataOffset = s.dataOffset := rfl
@[simp] theorem raiseFatal_srcLen (c : ErrCode) (s : State) : (raiseFatal c s).srcLen = s.srcLen := rfl
@[simp] theorem raiseFatal_path (c : ErrCode) (s : State) : (raiseFatal c s).path = .none := rfl
@[simp] theorem raiseFatal_err (c : ErrCode) (s : State) : (raiseFatal c s).err = c := rfl
@[simp] theorem raiseFatal_trunc (c : ErrCode) (s : State) : (raiseFatal c s).trunc = s.trunc := rfl
@[simp] theorem raiseFatal_ioerr (c : ErrCode) (s : State) : (raiseFatal c s).ioerr = s.ioerr := rfl
@[simp] theorem raiseFatal_payloadShort (c : ErrCode) (s : State) :
    (raiseFatal c s).payloadShort = s.payloadShort := rfl
@[simp] theorem raiseFatal_stride (c : ErrCode) (s : State) : (raiseFatal c s).stride = 0 := rfl
@[simp] theorem raiseFatal_rowsEmitted (c : ErrCode) (s : State) : (raiseFatal c s).rowsEmitted = s.rowsEmitted := rfl
@[simp] theorem raiseFatal_ioerrCount (c : ErrCode) (s : State) : (raiseFatal c s).ioerrCount = s.ioerrCount := rfl
@[simp] theorem raiseFatal_ioerrFirstRow (c : ErrCode) (s : State) :
    (raiseFatal c s).ioerrFirstRow = s.ioerrFirstRow := rfl
@[simp] theorem raiseFatal_rleInPos (c : ErrCode) (s : State) : (raiseFatal c s).rleInPos = s.rleInPos := rfl
@[simp] theorem raiseFatal_rleOutPos (c : ErrCode) (s : State) : (raiseFatal c s).rleOutPos = s.rleOutPos := rfl
@[simp] theorem raiseFatal_phase (c : ErrCode) (s : State) : (raiseFatal c s).phase = .error := rfl
@[simp] theorem raiseFatal_cfg (c : ErrCode) (s : State) : (raiseFatal c s).cfg = s.cfg := rfl
@[simp] theorem raiseFatal_mode (c : ErrCode) (s : State) : (raiseFatal c s).mode = s.mode := rfl
@[simp] theorem raiseFatal_ip (c : ErrCode) (s : State) : (raiseFatal c s).ip = s.ip := rfl
@[simp] theorem raiseFatal_op (c : ErrCode) (s : State) : (raiseFatal c s).op = s.op := rfl
@[simp] theorem raiseFatal_r (c : ErrCode) (s : State) : (raiseFatal c s).r = s.r := rfl
@[simp] theorem raiseFatal_rleEnd (c : ErrCode) (s : State) : (raiseFatal c s).rleEnd = s.rleEnd := rfl
@[simp] theorem raiseFatal_p (c : ErrCode) (s : State) : (raiseFatal c s).p = s.p := rfl
@[simp] theorem raiseFatal_idx (c : ErrCode) (s : State) : (raiseFatal c s).idx = s.idx := rfl
@[simp] theorem raiseFatal_row (c : ErrCode) (s : State) : (raiseFatal c s).row = s.row := rfl
@[simp] theorem raiseFatal_src (c : ErrCode) (s : State) : (raiseFatal c s).src = s.src := rfl
@[simp] theorem raiseFatal_srcChanged (c : ErrCode) (s : State) : (raiseFatal c s).srcChanged = s.srcChanged := rfl
@[simp] theorem raiseFatal_srcModel (c : ErrCode) (s : State) : (raiseFatal c s).srcModel = s.srcModel := rfl
@[simp] theorem raiseFatal_sinkReady (c : ErrCode) (s : State) : (raiseFatal c s).sinkReady = s.sinkReady := rfl
@[simp] theorem raiseFatal_trace (c : ErrCode) (s : State) : (raiseFatal c s).trace = s.trace := rfl
@[simp] theorem raiseFatal_params (c : ErrCode) (s : State) : (raiseFatal c s).params = s.params := rfl
@[simp] theorem raiseFatal_readData (c : ErrCode) (s : State) : (raiseFatal c s).readData = s.readData := rfl
@[simp] theorem raiseFatal_inputs (c : ErrCode) (s : State) : (raiseFatal c s).inputs = s.inputs := rfl
@[simp] theorem raiseFatal_draws (c : ErrCode) (s : State) : (raiseFatal c s).draws = s.draws := rfl

/-! `emitRow` -/

@[simp] theorem emitRow_width (d : List Byte) (b q : Byte) (e : Bool) (s : State) :
    (emitRow d b q e s).width = s.width := rfl
@[simp] theorem emitRow_height (d : List Byte) (b q : Byte) (e : Bool) (s : State) :
    (emitRow d b q e s).height = s.height := rfl
@[simp] theorem emitRow_bpp (d : List Byte) (b q : Byte) (e : Bool) (s : State) :
    (emitRow d b q e s).bpp = s.bpp := rfl
@[simp] theorem emitRow_comp (d : List Byte) (b q : Byte) (e : Bool) (s : State) :
    (emitRow d b q e s).comp = s.comp := rfl
@[simp] theorem emitRow_dataOffset (d : List Byte) (b q : Byte) (e : Bool) (s : State) :
    (emitRow d b q e s).dataOffset = s.dataOffset := rfl
@[simp] theorem emitRow_srcLen (d : List Byte) (b q : Byte) (e : Bool) (s : State) :
    (emitRow d b q e s).srcLen = s.srcLen := rfl
@[simp] theorem emitRow_path (d : List Byte) (b q : Byte) (e : Bool) (s : State) :
    (emitRow d b q e s).path = s.path := rfl
@[simp] theorem emitRow_err (d : List Byte) (b q : Byte) (e : Bool) (s : State) :
    (emitRow d b q e s).err = s.err := rfl
@[simp] theorem emitRow_trunc (d : List Byte) (b q : Byte) (e : Bool) (s : State) :
    (emitRow d b q e s).trunc = s.trunc := rfl
@[simp] theorem emitRow_ioerr (d : List Byte) (b q : Byte) (e : Bool) (s : State) :
    (emitRow d b q e s).ioerr = s.ioerr := rfl
@[simp] theorem emitRow_payloadShort (d : List Byte) (b q : Byte) (e : Bool) (s : State) :
    (emitRow d b q e s).payloadShort = s.payloadShort := rfl
@[simp] theorem emitRow_stride (d : List Byte) (b q : Byte) (e : Bool) (s : State) :
    (emitRow d b q e s).stride = s.stride := rfl
@[simp] theorem emitRow_rowsEmitted (d : List Byte) (b q : Byte) (e : Bool) (s : State) :
    (emitRow d b q e s).rowsEmitted = s.rowsEmitted + 1 := rfl
@[simp] theorem emitRow_ioerrCount (d : List Byte) (b q : Byte) (e : Bool) (s : State) :
    (emitRow d b q e s).ioerrCount = s.ioerrCount := rfl
@[simp] theorem emitRow_ioerrFirstRow (d : List Byte) (b q : Byte) (e : Bool) (s : State) :
    (emitRow d b q e s).ioerrFirstRow = s.ioerrFirstRow := rfl
@[simp] theorem emitRow_rleInPos (d : List Byte) (b q : Byte) (e : Bool) (s : State) :
    (emitRow d b q e s).rleInPos = s.rleInPos := rfl
@[simp] theorem emitRow_rleOutPos (d : List Byte) (b q : Byte) (e : Bool) (s : State) :
    (emitRow d b q e s).rleOutPos = s.rleOutPos := rfl
@[simp] theorem emitRow_phase (d : List Byte) (b q : Byte) (e : Bool) (s : State) :
    (emitRow d b q e s).phase = if s.r + 1 = s.cfg.rowCount then .done else s.phase := rfl
@[simp] theorem emitRow_cfg (d : List Byte) (b q : Byte) (e : Bool) (s : State) :
    (emitRow d b q e s).cfg = s.cfg := rfl
@[simp] theorem emitRow_mode (d : List Byte) (b q : Byte) (e : Bool) (s : State) :
    (emitRow d b q e s).mode = s.mode := rfl
@[simp] theorem emitRow_ip (d : List Byte) (b q : Byte) (e : Bool) (s : State) : (emitRow d b q e s).ip = s.ip := rfl
@[simp] theorem emitRow_op (d : List Byte) (b q : Byte) (e : Bool) (s : State) : (emitRow d b q e s).op = s.op := rfl
@[simp] theorem emitRow_r (d : List Byte) (b q : Byte) (e : Bool) (s : State) : (emitRow d b q e s).r = s.r + 1 := rfl
@[simp] theorem emitRow_rleEnd (d : List Byte) (b q : Byte) (e : Bool) (s : State) :
    (emitRow d b q e s).rleEnd = s.rleEnd := rfl
@[simp] theorem emitRow_p (d : List Byte) (b q : Byte) (e : Bool) (s : State) : (emitRow d b q e s).p = s.p := rfl
@[simp] theorem emitRow_idx (d : List Byte) (b q : Byte) (e : Bool) (s : State) :
    (emitRow d b q e s).idx = s.idx := rfl
@[simp] theorem emitRow_row (d : List Byte) (b q : Byte) (e : Bool) (s : State) :
    (emitRow d b q e s).row = s.row := rfl
@[simp] theorem emitRow_src (d : List Byte) (b q : Byte) (e : Bool) (s : State) :
    (emitRow d b q e s).src = s.src := rfl
@[simp] theorem emitRow_srcChanged (d : List Byte) (b q : Byte) (e : Bool) (s : State) :
    (emitRow d b q e s).srcChanged = s.srcChanged := rfl
@[simp] theorem emitRow_srcModel (d : List Byte) (b q : Byte) (e : Bool) (s : State) :
    (emitRow d b q e s).srcModel = s.srcModel := rfl
@[simp] theorem emitRow_sinkReady (d : List Byte) (b q : Byte) (e : Bool) (s : State) :
    (emitRow d b q e s).sinkReady = s.sinkReady := rfl
@[simp] theorem emitRow_trace (d : List Byte) (b q : Byte) (e : Bool) (s : State) :
    (emitRow d b q e s).trace = s.trace ++ [⟨BitVec.ofNat 32 s.r, d, b, q, e⟩] := rfl
@[simp] theorem emitRow_params (d : List Byte) (b q : Byte) (e : Bool) (s : State) :
    (emitRow d b q e s).params = s.params := rfl
@[simp] theorem emitRow_readData (d : List Byte) (b q : Byte) (e : Bool) (s : State) :
    (emitRow d b q e s).readData = s.readData := rfl
@[simp] theorem emitRow_inputs (d : List Byte) (b q : Byte) (e : Bool) (s : State) :
    (emitRow d b q e s).inputs = s.inputs := rfl
@[simp] theorem emitRow_draws (d : List Byte) (b q : Byte) (e : Bool) (s : State) :
    (emitRow d b q e s).draws = s.draws := rfl

/-! `recordIoError` -/

@[simp] theorem recordIoError_width (s : State) : (recordIoError s).width = s.width := rfl
@[simp] theorem recordIoError_height (s : State) : (recordIoError s).height = s.height := rfl
@[simp] theorem recordIoError_bpp (s : State) : (recordIoError s).bpp = s.bpp := rfl
@[simp] theorem recordIoError_comp (s : State) : (recordIoError s).comp = s.comp := rfl
@[simp] theorem recordIoError_dataOffset (s : State) : (recordIoError s).dataOffset = s.dataOffset := rfl
@[simp] theorem recordIoError_srcLen (s : State) : (recordIoError s).srcLen = s.srcLen := rfl
@[simp] theorem recordIoError_path (s : State) : (recordIoError s).path = s.path := rfl
@[simp] theorem recordIoError_err (s : State) : (recordIoError s).err = s.err := rfl
@[simp] theorem recordIoError_trunc (s : State) : (recordIoError s).trunc = s.trunc := rfl
@[simp] theorem recordIoError_ioerr (s : State) : (recordIoError s).ioerr = true := rfl
@[simp] theorem recordIoError_payloadShort (s : State) : (recordIoError s).payloadShort = s.payloadShort := rfl
@[simp] theorem recordIoError_stride (s : State) : (recordIoError s).stride = s.stride := rfl
@[simp] theorem recordIoError_rowsEmitted (s : State) : (recordIoError s).rowsEmitted = s.rowsEmitted := rfl
@[simp] theorem recordIoError_ioerrCount (s : State) :
    (recordIoError s).ioerrCount = if s.ioerrCount = 0xFFFFFFFF then s.ioerrCount else s.ioerrCount + 1 := rfl
@[simp] theorem recordIoError_ioerrFirstRow (s : State) :
    (recordIoError s).ioerrFirstRow = if s.ioerrFirstRow = 0xFFFFFFFF then BitVec.ofNat 32 s.r else s.ioerrFirstRow := rfl
@[simp] theorem recordIoError_rleInPos (s : State) : (recordIoError s).rleInPos = s.rleInPos := rfl
@[simp] theorem recordIoError_rleOutPos (s : State) : (recordIoError s).rleOutPos = s.rleOutPos := rfl
@[simp] theorem recordIoError_phase (s : State) : (recordIoError s).phase = s.phase := rfl
@[simp] theorem recordIoError_cfg (s : State) : (recordIoError s).cfg = s.cfg := rfl
@[simp] theorem recordIoError_mode (s : State) : (recordIoError s).mode = s.mode := rfl
@[simp] theorem recordIoError_ip (s : State) : (recordIoError s).ip = s.ip := rfl
@[simp] theorem recordIoError_op (s : State) : (recordIoError s).op = s.op := rfl
@[simp] theorem recordIoError_r (s : State) : (recordIoError s).r = s.r := rfl
@[simp] theorem recordIoError_rleEnd (s : State) : (recordIoError s).rleEnd = s.rleEnd := rfl
@[simp] theorem recordIoError_p (s : State) : (recordIoError s).p = s.p := rfl
@[simp] theorem recordIoError_idx (s : State) : (recordIoError s).idx = s.idx := rfl
@[simp] theorem recordIoError_row (s : State) : (recordIoError s).row = s.row := rfl
@[simp] theorem recordIoError_src (s : State) : (recordIoError s).src = s.src := rfl
@[simp] theorem recordIoError_srcChanged (s : State) : (recordIoError s).srcChanged = s.srcChanged := rfl
@[simp] theorem recordIoError_srcModel (s : State) : (recordIoError s).srcModel = s.srcModel := rfl
@[simp] theorem recordIoError_sinkReady (s : State) : (recordIoError s).sinkReady = s.sinkReady := rfl
@[simp] theorem recordIoError_trace (s : State) : (recordIoError s).trace = s.trace := rfl
@[simp] theorem recordIoError_params (s : State) : (recordIoError s).params = s.params := rfl
@[simp] theorem recordIoError_readData (s : State) : (recordIoError s).readData = s.readData := rfl
@[simp] theorem recordIoError_inputs (s : State) : (recordIoError s).inputs = s.inputs := rfl
@[simp] theorem recordIoError_draws (s : State) : (recordIoError s).draws = s.draws := rfl

/-! `loadRow` -/

@[simp] theorem loadRow_width (bs : List Byte) (s : State) : (loadRow bs s).width = s.width := rfl
@[simp] theorem loadRow_height (bs : List Byte) (s : State) : (loadRow bs s).height = s.height := rfl
@[simp] theorem loadRow_bpp (bs : List Byte) (s : State) : (loadRow bs s).bpp = s.bpp := rfl
@[simp] theorem loadRow_comp (bs : List Byte) (s : State) : (loadRow bs s).comp = s.comp := rfl
@[simp] theorem loadRow_dataOffset (bs : List Byte) (s : State) : (loadRow bs s).dataOffset = s.dataOffset := rfl
@[simp] theorem loadRow_srcLen (bs : List Byte) (s : State) : (loadRow bs s).srcLen = s.srcLen := rfl
@[simp] theorem loadRow_path (bs : List Byte) (s : State) : (loadRow bs s).path = s.path := rfl
@[simp] theorem loadRow_err (bs : List Byte) (s : State) : (loadRow bs s).err = s.err := rfl
@[simp] theorem loadRow_trunc (bs : List Byte) (s : State) : (loadRow bs s).trunc = s.trunc := rfl
@[simp] theorem loadRow_ioerr (bs : List Byte) (s : State) : (loadRow bs s).ioerr = s.ioerr := rfl
@[simp] theorem loadRow_payloadShort (bs : List Byte) (s : State) :
    (loadRow bs s).payloadShort = s.payloadShort := rfl
@[simp] theorem loadRow_stride (bs : List Byte) (s : State) : (loadRow bs s).stride = s.stride := rfl
@[simp] theorem loadRow_rowsEmitted (bs : List Byte) (s : State) : (loadRow bs s).rowsEmitted = s.rowsEmitted := rfl
@[simp] theorem loadRow_ioerrCount (bs : List Byte) (s : State) : (loadRow bs s).ioerrCount = s.ioerrCount := rfl
@[simp] theorem loadRow_ioerrFirstRow (bs : List Byte) (s : State) :
    (loadRow bs s).ioerrFirstRow = s.ioerrFirstRow := rfl
@[simp] theorem loadRow_rleInPos (bs : List Byte) (s : State) : (loadRow bs s).rleInPos = s.rleInPos := rfl
@[simp] theorem loadRow_rleOutPos (bs : List Byte) (s : State) : (loadRow bs s).rleOutPos = s.rleOutPos := rfl
@[simp] theorem loadRow_phase (bs : List Byte) (s : State) : (loadRow bs s).phase = s.phase := rfl
@[simp] theorem loadRow_cfg (bs : List Byte) (s : State) : (loadRow bs s).cfg = s.cfg := rfl
@[simp] theorem loadRow_mode (bs : List Byte) (s : State) : (loadRow bs s).mode = s.mode := rfl
@[simp] theorem loadRow_ip (bs : List Byte) (s : State) : (loadRow bs s).ip = s.ip := rfl
@[simp] theorem loadRow_op (bs : List Byte) (s : State) : (loadRow bs s).op = s.op := rfl
@[simp] theorem loadRow_r (bs : List Byte) (s : State) : (loadRow bs s).r = s.r := rfl
@[simp] theorem loadRow_rleEnd (bs : List Byte) (s : State) : (loadRow bs s).rleEnd = s.rleEnd := rfl
@[simp] theorem loadRow_p (bs : List Byte) (s : State) : (loadRow bs s).p = s.p := rfl
@[simp] theorem loadRow_idx (bs : List Byte) (s : State) : (loadRow bs s).idx = s.idx := rfl
@[simp] theorem loadRow_row (bs : List Byte) (s : State) : (loadRow bs s).row = Memory.writeAll [] 0 bs := rfl
@[simp] theorem loadRow_src (bs : List Byte) (s : State) : (loadRow bs s).src = s.src := rfl
@[simp] theorem loadRow_srcChanged (bs : List Byte) (s : State) : (loadRow bs s).srcChanged = s.srcChanged := rfl
@[simp] theorem loadRow_srcModel (bs : List Byte) (s : State) : (loadRow bs s).srcModel = s.srcModel := rfl
@[simp] theorem loadRow_sinkReady (bs : List Byte) (s : State) : (loadRow bs s).sinkReady = s.sinkReady := rfl
@[simp] theorem loadRow_trace (bs : List Byte) (s : State) : (loadRow bs s).trace = s.trace := rfl
@[simp] theorem loadRow_params (bs : List Byte) (s : State) : (loadRow bs s).params = s.params := rfl
@[simp] theorem loadRow_readData (bs : List Byte) (s : State) : (loadRow bs s).readData = s.readData := rfl
@[simp] theorem loadRow_inputs (bs : List Byte) (s : State) : (loadRow bs s).inputs = s.inputs := rfl
@[simp] theorem loadRow_draws (bs : List Byte) (s : State) : (loadRow bs s).draws = s.draws := rfl

/-! `afterSrcRead` -/

@[simp] theorem afterSrcRead_width (s : State) : (afterSrcRead s).width = s.width := rfl
@[simp] theorem afterSrcRead_height (s : State) : (afterSrcRead s).height = s.height := rfl
@[simp] theorem afterSrcRead_bpp (s : State) : (afterSrcRead s).bpp = s.bpp := rfl
@[simp] theorem afterSrcRead_comp (s : State) : (afterSrcRead s).comp = s.comp := rfl
@[simp] theorem afterSrcRead_dataOffset (s : State) : (afterSrcRead s).dataOffset = s.dataOffset := rfl
@[simp] theorem afterSrcRead_srcLen (s : State) : (afterSrcRead s).srcLen = s.srcLen := rfl
@[simp] theorem afterSrcRead_path (s : State) : (afterSrcRead s).path = s.path := rfl
@[simp] theorem afterSrcRead_err (s : State) : (afterSrcRead s).err = s.err := rfl
@[simp] theorem afterSrcRead_trunc (s : State) : (afterSrcRead s).trunc = s.trunc := rfl
@[simp] theorem afterSrcRead_ioerr (s : State) : (afterSrcRead s).ioerr = s.ioerr := rfl
@[simp] theorem afterSrcRead_payloadShort (s : State) : (afterSrcRead s).payloadShort = s.payloadShort := rfl
@[simp] theorem afterSrcRead_stride (s : State) : (afterSrcRead s).stride = s.stride := rfl
@[simp] theorem afterSrcRead_rowsEmitted (s : State) : (afterSrcRead s).rowsEmitted = s.rowsEmitted := rfl
@[simp] theorem afterSrcRead_ioerrCount (s : State) : (afterSrcRead s).ioerrCount = s.ioerrCount := rfl
@[simp] theorem afterSrcRead_ioerrFirstRow (s : State) : (afterSrcRead s).ioerrFirstRow = s.ioerrFirstRow := rfl
@[simp] theorem afterSrcRead_rleInPos (s : State) : (afterSrcRead s).rleInPos = s.rleInPos := rfl
@[simp] theorem afterSrcRead_rleOutPos (s : State) : (afterSrcRead s).rleOutPos = s.rleOutPos := rfl
@[simp] theorem afterSrcRead_phase (s : State) : (afterSrcRead s).phase = s.phase := rfl
@[simp] theorem afterSrcRead_cfg (s : State) : (afterSrcRead s).cfg = s.cfg := rfl
@[simp] theorem afterSrcRead_mode (s : State) : (afterSrcRead s).mode = s.mode := rfl
@[simp] theorem afterSrcRead_ip (s : State) : (afterSrcRead s).ip = s.ip := rfl
@[simp] theorem afterSrcRead_op (s : State) : (afterSrcRead s).op = s.op := rfl
@[simp] theorem afterSrcRead_r (s : State) : (afterSrcRead s).r = s.r := rfl
@[simp] theorem afterSrcRead_rleEnd (s : State) : (afterSrcRead s).rleEnd = s.rleEnd := rfl
@[simp] theorem afterSrcRead_p (s : State) : (afterSrcRead s).p = s.p := rfl
@[simp] theorem afterSrcRead_idx (s : State) : (afterSrcRead s).idx = s.idx := rfl
@[simp] theorem afterSrcRead_row (s : State) : (afterSrcRead s).row = s.row := rfl
@[simp] theorem afterSrcRead_src (s : State) : (afterSrcRead s).src = s.src := rfl
@[simp] theorem afterSrcRead_srcChanged (s : State) : (afterSrcRead s).srcChanged = s.srcChanged := rfl
@[simp] theorem afterSrcRead_srcModel (s : State) : (afterSrcRead s).srcModel = s.srcModel.next := rfl
@[simp] theorem afterSrcRead_sinkReady (s : State) : (afterSrcRead s).sinkReady = s.sinkReady := rfl
@[simp] theorem afterSrcRead_trace (s : State) : (afterSrcRead s).trace = s.trace := rfl
@[simp] theorem afterSrcRead_params (s : State) : (afterSrcRead s).params = s.params := rfl
@[simp] theorem afterSrcRead_readData (s : State) : (afterSrcRead s).readData = s.readData := rfl
@[simp] theorem afterSrcRead_inputs (s : State) : (afterSrcRead s).inputs = s.inputs := rfl
@[simp] theorem afterSrcRead_draws (s : State) : (afterSrcRead s).draws = s.draws + 1 := rfl

/-! `hostWritesSource` -/

@[simp] theorem hostWritesSource_width (a : Nat) (b : Byte) (s : State) :
    (hostWritesSource a b s).width = s.width := rfl
@[simp] theorem hostWritesSource_height (a : Nat) (b : Byte) (s : State) :
    (hostWritesSource a b s).height = s.height := rfl
@[simp] theorem hostWritesSource_bpp (a : Nat) (b : Byte) (s : State) : (hostWritesSource a b s).bpp = s.bpp := rfl
@[simp] theorem hostWritesSource_comp (a : Nat) (b : Byte) (s : State) : (hostWritesSource a b s).comp = s.comp := rfl
@[simp] theorem hostWritesSource_dataOffset (a : Nat) (b : Byte) (s : State) :
    (hostWritesSource a b s).dataOffset = s.dataOffset := rfl
@[simp] theorem hostWritesSource_srcLen (a : Nat) (b : Byte) (s : State) :
    (hostWritesSource a b s).srcLen = s.srcLen := rfl
@[simp] theorem hostWritesSource_path (a : Nat) (b : Byte) (s : State) : (hostWritesSource a b s).path = s.path := rfl
@[simp] theorem hostWritesSource_err (a : Nat) (b : Byte) (s : State) : (hostWritesSource a b s).err = s.err := rfl
@[simp] theorem hostWritesSource_trunc (a : Nat) (b : Byte) (s : State) :
    (hostWritesSource a b s).trunc = s.trunc := rfl
@[simp] theorem hostWritesSource_ioerr (a : Nat) (b : Byte) (s : State) :
    (hostWritesSource a b s).ioerr = s.ioerr := rfl
@[simp] theorem hostWritesSource_payloadShort (a : Nat) (b : Byte) (s : State) :
    (hostWritesSource a b s).payloadShort = s.payloadShort := rfl
@[simp] theorem hostWritesSource_stride (a : Nat) (b : Byte) (s : State) :
    (hostWritesSource a b s).stride = s.stride := rfl
@[simp] theorem hostWritesSource_rowsEmitted (a : Nat) (b : Byte) (s : State) :
    (hostWritesSource a b s).rowsEmitted = s.rowsEmitted := rfl
@[simp] theorem hostWritesSource_ioerrCount (a : Nat) (b : Byte) (s : State) :
    (hostWritesSource a b s).ioerrCount = s.ioerrCount := rfl
@[simp] theorem hostWritesSource_ioerrFirstRow (a : Nat) (b : Byte) (s : State) :
    (hostWritesSource a b s).ioerrFirstRow = s.ioerrFirstRow := rfl
@[simp] theorem hostWritesSource_rleInPos (a : Nat) (b : Byte) (s : State) :
    (hostWritesSource a b s).rleInPos = s.rleInPos := rfl
@[simp] theorem hostWritesSource_rleOutPos (a : Nat) (b : Byte) (s : State) :
    (hostWritesSource a b s).rleOutPos = s.rleOutPos := rfl
@[simp] theorem hostWritesSource_phase (a : Nat) (b : Byte) (s : State) :
    (hostWritesSource a b s).phase = s.phase := rfl
@[simp] theorem hostWritesSource_cfg (a : Nat) (b : Byte) (s : State) : (hostWritesSource a b s).cfg = s.cfg := rfl
@[simp] theorem hostWritesSource_mode (a : Nat) (b : Byte) (s : State) : (hostWritesSource a b s).mode = s.mode := rfl
@[simp] theorem hostWritesSource_ip (a : Nat) (b : Byte) (s : State) : (hostWritesSource a b s).ip = s.ip := rfl
@[simp] theorem hostWritesSource_op (a : Nat) (b : Byte) (s : State) : (hostWritesSource a b s).op = s.op := rfl
@[simp] theorem hostWritesSource_r (a : Nat) (b : Byte) (s : State) : (hostWritesSource a b s).r = s.r := rfl
@[simp] theorem hostWritesSource_rleEnd (a : Nat) (b : Byte) (s : State) :
    (hostWritesSource a b s).rleEnd = s.rleEnd := rfl
@[simp] theorem hostWritesSource_p (a : Nat) (b : Byte) (s : State) : (hostWritesSource a b s).p = s.p := rfl
@[simp] theorem hostWritesSource_idx (a : Nat) (b : Byte) (s : State) : (hostWritesSource a b s).idx = s.idx := rfl
@[simp] theorem hostWritesSource_row (a : Nat) (b : Byte) (s : State) : (hostWritesSource a b s).row = s.row := rfl
@[simp] theorem hostWritesSource_src (a : Nat) (b : Byte) (s : State) :
    (hostWritesSource a b s).src = s.src.write a b := rfl
@[simp] theorem hostWritesSource_srcModel (a : Nat) (b : Byte) (s : State) :
    (hostWritesSource a b s).srcModel = s.srcModel := rfl
@[simp] theorem hostWritesSource_sinkReady (a : Nat) (b : Byte) (s : State) :
    (hostWritesSource a b s).sinkReady = s.sinkReady := rfl
@[simp] theorem hostWritesSource_trace (a : Nat) (b : Byte) (s : State) :
    (hostWritesSource a b s).trace = s.trace := rfl
@[simp] theorem hostWritesSource_params (a : Nat) (b : Byte) (s : State) :
    (hostWritesSource a b s).params = s.params := rfl
@[simp] theorem hostWritesSource_readData (a : Nat) (b : Byte) (s : State) :
    (hostWritesSource a b s).readData = s.readData := rfl
@[simp] theorem hostWritesSource_inputs (a : Nat) (b : Byte) (s : State) :
    (hostWritesSource a b s).inputs = s.inputs := rfl
@[simp] theorem hostWritesSource_draws (a : Nat) (b : Byte) (s : State) :
    (hostWritesSource a b s).draws = s.draws := rfl

/-! `applyReset` -/

@[simp] theorem applyReset_width (s : State) : (applyReset s).width = State.reset.width := rfl
@[simp] theorem applyReset_height (s : State) : (applyReset s).height = State.reset.height := rfl
@[simp] theorem applyReset_bpp (s : State) : (applyReset s).bpp = State.reset.bpp := rfl
@[simp] theorem applyReset_comp (s : State) : (applyReset s).comp = State.reset.comp := rfl
@[simp] theorem applyReset_dataOffset (s : State) : (applyReset s).dataOffset = State.reset.dataOffset := rfl
@[simp] theorem applyReset_srcLen (s : State) : (applyReset s).srcLen = State.reset.srcLen := rfl
@[simp] theorem applyReset_path (s : State) : (applyReset s).path = State.reset.path := rfl
@[simp] theorem applyReset_err (s : State) : (applyReset s).err = State.reset.err := rfl
@[simp] theorem applyReset_trunc (s : State) : (applyReset s).trunc = State.reset.trunc := rfl
@[simp] theorem applyReset_ioerr (s : State) : (applyReset s).ioerr = State.reset.ioerr := rfl
@[simp] theorem applyReset_payloadShort (s : State) : (applyReset s).payloadShort = State.reset.payloadShort := rfl
@[simp] theorem applyReset_stride (s : State) : (applyReset s).stride = State.reset.stride := rfl
@[simp] theorem applyReset_rowsEmitted (s : State) : (applyReset s).rowsEmitted = State.reset.rowsEmitted := rfl
@[simp] theorem applyReset_ioerrCount (s : State) : (applyReset s).ioerrCount = State.reset.ioerrCount := rfl
@[simp] theorem applyReset_ioerrFirstRow (s : State) : (applyReset s).ioerrFirstRow = State.reset.ioerrFirstRow := rfl
@[simp] theorem applyReset_rleInPos (s : State) : (applyReset s).rleInPos = State.reset.rleInPos := rfl
@[simp] theorem applyReset_rleOutPos (s : State) : (applyReset s).rleOutPos = State.reset.rleOutPos := rfl
@[simp] theorem applyReset_phase (s : State) : (applyReset s).phase = State.reset.phase := rfl
@[simp] theorem applyReset_cfg (s : State) : (applyReset s).cfg = State.reset.cfg := rfl
@[simp] theorem applyReset_mode (s : State) : (applyReset s).mode = State.reset.mode := rfl
@[simp] theorem applyReset_ip (s : State) : (applyReset s).ip = State.reset.ip := rfl
@[simp] theorem applyReset_op (s : State) : (applyReset s).op = State.reset.op := rfl
@[simp] theorem applyReset_r (s : State) : (applyReset s).r = State.reset.r := rfl
@[simp] theorem applyReset_rleEnd (s : State) : (applyReset s).rleEnd = State.reset.rleEnd := rfl
@[simp] theorem applyReset_p (s : State) : (applyReset s).p = State.reset.p := rfl
@[simp] theorem applyReset_idx (s : State) : (applyReset s).idx = State.reset.idx := rfl
@[simp] theorem applyReset_row (s : State) : (applyReset s).row = State.reset.row := rfl
@[simp] theorem applyReset_src (s : State) : (applyReset s).src = s.src := rfl
@[simp] theorem applyReset_srcChanged (s : State) : (applyReset s).srcChanged = State.reset.srcChanged := rfl
@[simp] theorem applyReset_srcModel (s : State) : (applyReset s).srcModel = s.srcModel := rfl
@[simp] theorem applyReset_sinkReady (s : State) : (applyReset s).sinkReady = s.sinkReady := rfl
@[simp] theorem applyReset_trace (s : State) : (applyReset s).trace = s.trace := rfl
@[simp] theorem applyReset_params (s : State) : (applyReset s).params = s.params := rfl
@[simp] theorem applyReset_readData (s : State) : (applyReset s).readData = State.reset.readData := rfl
@[simp] theorem applyReset_inputs (s : State) : (applyReset s).inputs = s.inputs := rfl
@[simp] theorem applyReset_draws (s : State) : (applyReset s).draws = s.draws := rfl

/-! `startDecode` and `consumePad` have a condition each. -/

theorem startDecode_of_busy {s : State} (h : s.busy = true) : startDecode s = s := by simp [startDecode, h]

theorem consumePad_of_pad {m : Nat} {pad : Option Byte} (h : m % 2 = 1 ∧ pad.isSome = true) (s : State) :
    consumePad m pad s = consume 1 s := by simp only [consumePad, if_pos h]

theorem consumePad_of_no_pad {m : Nat} {pad : Option Byte} (h : ¬(m % 2 = 1 ∧ pad.isSome = true)) (s : State) :
    consumePad m pad s = s := by simp only [consumePad, if_neg h]

/-- BUSY is a matter of the phase alone (R24). -/
theorem busy_iff (s : State) : s.busy = true ↔ s.phase = .check ∨ s.phase = .rleLoad ∨ s.phase = .rleDecode ∨
    s.phase = .rleEmit ∨ s.phase = .rgbRow := by
  cases h : s.phase <;> simp [State.busy, Phase.stateCode, h]

@[simp] theorem consume_zero (s : State) : consume 0 s = s := rfl

theorem consume_consume (j k : Nat) (s : State) : consume j (consume k s) = consume (k + j) s := by
  simp only [consume, State.mk.injEq, true_and, and_true]; omega

@[simp] theorem full_consume (k : Nat) (s : State) : (consume k s).full = s.full := rfl

theorem put_consume (v : Byte) (k : Nat) (s : State) : put v (consume k s) = consume k (put v s) := rfl

theorem full_iff (s : State) : s.full = true ↔ s.cfg.size ≤ s.op := by simp [State.full]

/-- A bit of STATUS lies in one of its fields (R23). -/
theorem getLsbD_statusWord (s : State) (i : Nat) : s.statusWord.getLsbD i =
    if i < 2 then s.phase.stateCode.getLsbD i
    else if i < 4 then s.path.code.getLsbD (i - 2)
    else if i < 8 then s.err.code.getLsbD (i - 4)
    else if i = 8 then s.trunc
    else if i = 9 then s.ioerr
    else if i = 10 then s.payloadShort
    else if i = 11 then false
    else s.rleEnd.code.getLsbD (i - 12) := by
  have bit : ∀ (n j : Nat) (x : BitVec n) (b : Bool),
      (x ++ BitVec.ofBool b).getLsbD j = if j = 0 then b else x.getLsbD (j - 1) := by
    intro n j x b
    rw [BitVec.getLsbD_append]
    rcases j with _ | j <;> simp
  have e : s.statusWord = ((((((((0#18 ++ s.rleEnd.code) ++ BitVec.ofBool false) ++ BitVec.ofBool s.payloadShort) ++
      BitVec.ofBool s.ioerr) ++ BitVec.ofBool s.trunc) ++ s.err.code) ++ s.path.code) ++ s.phase.stateCode) := rfl
  rw [e, BitVec.getLsbD_append, BitVec.getLsbD_append, BitVec.getLsbD_append, bit, bit, bit, bit, BitVec.getLsbD_append]
  by_cases h1 : i < 2
  · rw [if_pos h1, if_pos h1]
  by_cases h2 : i < 4
  · rw [if_neg h1, if_neg h1, if_pos (by omega), if_pos h2]
  by_cases h3 : i < 8
  · rw [if_neg h1, if_neg h1, if_neg (by omega), if_neg h2, if_pos (by omega), if_pos h3]; congr 1
  rw [if_neg h1, if_neg h1, if_neg (by omega), if_neg h2, if_neg (by omega), if_neg h3]
  by_cases h4 : i = 8
  · rw [if_pos (by omega), if_pos h4]
  by_cases h5 : i = 9
  · rw [if_neg (by omega), if_neg h4, if_pos (by omega), if_pos h5]
  by_cases h6 : i = 10
  · rw [if_neg (by omega), if_neg h4, if_neg (by omega), if_neg h5, if_pos (by omega), if_pos h6]
  by_cases h7 : i = 11
  · rw [if_neg (by omega), if_neg h4, if_neg (by omega), if_neg h5, if_neg (by omega), if_neg h6, if_pos (by omega),
      if_pos h7]
  rw [if_neg (by omega), if_neg h4, if_neg (by omega), if_neg h5, if_neg (by omega), if_neg h6, if_neg (by omega),
    if_neg h7]
  by_cases h8 : i < 14
  · rw [if_pos (by omega)]; congr 1
  · rw [if_neg (by omega), BitVec.getLsbD_of_ge s.rleEnd.code (i - 12) (by omega)]; simp

end Sys2Proof.Machine
end

