-- ==== Sys2Proof/Laws/Rle.lean ====
section
/-! SUPPORT. What the loops of the RLE commands do. Every one of them writes a list of indices from the cursor on
until the index buffer is full (`putList`); the spec of that is proved once. -/

namespace Sys2Proof.Machine

/-- Write indices from the cursor on, until the index buffer is full (R125, R134). -/
def putList : List Byte → State → State
  | [], s => s
  | v :: vs, s => if s.full then s else putList vs (put v s)

/-- How many of `n` indices still fit (R126). -/
def fits (n : Nat) (s : State) : Nat := min n (s.cfg.size - s.op)

theorem fits_of_full {s : State} (h : s.full = true) (n : Nat) : fits n s = 0 := by
  rw [full_iff] at h; unfold fits; omega

theorem fits_succ {s : State} (h : s.full ≠ true) (v : Byte) (n : Nat) :
    fits (n + 1) s = fits n (put v s) + 1 := by
  rw [Ne, full_iff] at h; simp only [fits, put_cfg, put_op]; omega

/-- What `putList` does: the indices that fit are written from the cursor on, and nothing else changes. -/
theorem putList_spec (vs : List Byte) (s : State) : ∃ idx : Memory,
    putList vs s = { s with idx := idx, op := s.op + fits vs.length s } ∧
    (s.idx.wf = true → idx.wf = true ∧ ∀ a, idx.read a =
      if s.op ≤ a ∧ a < s.op + fits vs.length s then vs.getD (a - s.op) 0 else s.idx.read a) := by
  induction vs generalizing s with
  | nil => exact ⟨s.idx, by simp [putList, fits], fun h => ⟨h, fun a => by rw [if_neg (by simp [fits])]⟩⟩
  | cons v vs ih =>
    by_cases hf : s.full = true
    · refine ⟨s.idx, by simp [putList, hf, fits_of_full hf], fun h => ⟨h, fun a => ?_⟩⟩
      rw [fits_of_full hf, if_neg (by omega)]
    · obtain ⟨idx, he, hr⟩ := ih (put v s)
      refine ⟨idx, ?_, fun h => ?_⟩
      · rw [putList, if_neg (by simpa using hf), he, List.length_cons, fits_succ hf v]
        simp only [put, State.mk.injEq, true_and, and_true]
        omega
      · obtain ⟨h1, h2⟩ := hr (by simpa using Memory.wf_write h s.op v)
        refine ⟨h1, fun a => ?_⟩
        rw [h2 a, List.length_cons, fits_succ hf v, put_idx, put_op, Memory.read_write h]
        rcases Nat.lt_trichotomy a s.op with ha | ha | ha
        · rw [if_neg (by omega), if_neg (by omega), if_neg (by omega)]
        · subst ha
          rw [if_neg (by omega), if_pos rfl, if_pos (by omega)]
          simp
        · obtain ⟨d, rfl⟩ : ∃ d, a = s.op + 1 + d := ⟨a - (s.op + 1), by omega⟩
          have e1 : s.op + 1 + d - (s.op + 1) = d := by omega
          have e2 : s.op + 1 + d - s.op = d + 1 := by omega
          have e3 : s.op + 1 + d ≠ s.op := by omega
          by_cases hd : d < fits vs.length (put v s)
          · rw [if_pos (by omega), if_pos (by omega), e1, e2]; simp
          · rw [if_neg (by omega), if_neg e3, if_neg (by omega)]

/-- Every cell `putList` leaves in IDX was there or holds one of its indices inside the index buffer (R66). -/
theorem mem_putList {vs : List Byte} {s : State} {c : Host.Cell} (h : c ∈ (putList vs s).idx) :
    c ∈ s.idx ∨ (c.1 < s.cfg.size ∧ c.2 ∈ vs) := by
  induction vs generalizing s with
  | nil => exact .inl h
  | cons v vs ih =>
    rw [putList] at h
    split at h
    · exact .inl h
    · rename_i hf
      rcases ih h with h | ⟨h1, h2⟩
      · rcases Memory.mem_write h with h | rfl
        · exact .inl h
        · exact .inr ⟨by rw [full_iff] at hf; exact Nat.lt_of_not_le hf, List.mem_cons_self ..⟩
      · exact .inr ⟨h1, List.mem_cons_of_mem _ h2⟩

theorem putList_consume (vs : List Byte) (k : Nat) (s : State) :
    putList vs (consume k s) = consume k (putList vs s) := by
  induction vs generalizing s with
  | nil => rfl
  | cons v vs ih =>
    simp only [putList, full_consume, put_consume, ih]
    split <;> rfl

@[simp] theorem fits_consume (n k : Nat) (s : State) : fits n (consume k s) = fits n s := rfl

/-- RUN8's loop writes `n` times `v` (R126). -/
theorem run8Loop_eq (n : Nat) (v : Byte) (s : State) : run8Loop n v s = putList (List.replicate n v) s := by
  induction n generalizing s with
  | zero => rfl
  | succ n ih => simp only [run8Loop, List.replicate_succ, putList, ih]

/-- RUN4's loop writes the nibbles of pixels `j` to `j + k - 1` (R127). -/
theorem run4Loop_eq (ph : RunPhase) (n : Nat) (v : Byte) (k j : Nat) (s : State) :
    run4Loop ph n v k j s = putList ((List.range' j k).map fun i => runNibble ph n i v) s := by
  induction k generalizing j s with
  | zero => rfl
  | succ k ih => simp only [run4Loop, List.range'_succ, List.map_cons, putList, ih]

/-- ABS8's loop writes the first `n` of the literals present, consumes those written, and is complete when they were
`n` (R131, R134). -/
theorem abs8Loop_eq (n : Nat) (lits : List Byte) (s : State) :
    abs8Loop n lits s =
      (consume (fits (min n lits.length) s) (putList (lits.take n) s),
        decide (fits (min n lits.length) s = n)) := by
  induction n generalizing lits s with
  | zero => simp [abs8Loop, putList, fits]
  | succ n ih =>
    cases lits with
    | nil => simp [abs8Loop, putList, fits]
    | cons b bs =>
      by_cases hf : s.full = true
      · simp [abs8Loop, putList, hf, fits_of_full hf]
      · have hm : min (n + 1) (b :: bs).length = min n bs.length + 1 := by simp only [List.length_cons]; omega
        rw [hm, fits_succ hf b]
        have h1 : abs8Loop (n + 1) (b :: bs) s = abs8Loop n bs (consume 1 (put b s)) := by simp [abs8Loop, hf]
        have h2 : putList ((b :: bs).take (n + 1)) s = putList (bs.take n) (put b s) := by simp [putList, hf]
        rw [h1, h2, ih, fits_consume, putList_consume, consume_consume, Nat.add_comm 1]
        exact Prod.ext rfl (decide_eq_decide.2 (by simp))

/-- The nibbles of a list of bytes, high first (R100). -/
def nibbles : List Byte → List Byte
  | [] => []
  | b :: bs => hiNibble b :: loNibble b :: nibbles bs

@[simp] theorem length_nibbles (bs : List Byte) : (nibbles bs).length = 2 * bs.length := by
  induction bs with
  | nil => rfl
  | cons b bs ih => simp only [nibbles, List.length_cons, ih]; omega

theorem getD_nibbles (bs : List Byte) (j : Nat) :
    (nibbles bs).getD j 0 =
      if j % 2 = 0 then hiNibble (bs.getD (j / 2) 0) else loNibble (bs.getD (j / 2) 0) := by
  induction bs generalizing j with
  | nil =>
    have h : hiNibble 0 = 0 ∧ loNibble 0 = 0 := by decide
    show (0 : Byte) = if j % 2 = 0 then hiNibble 0 else loNibble 0
    rw [h.1, h.2, ite_self]
  | cons b bs ih =>
    rcases j with _ | _ | j
    · simp [nibbles]
    · simp [nibbles]
    · have h1 : (j + 1 + 1) % 2 = j % 2 := by omega
      have h2 : (j + 1 + 1) / 2 = j / 2 + 1 := by omega
      rw [h1, h2]
      simpa [nibbles] using ih j

/-- ABS4's loop writes the first `k` of the nibbles present, consumes a byte at its high nibble, and is complete when
they were `k` (R132, R134). -/
theorem abs4Loop_eq (k : Nat) (lits : List Byte) (s : State) :
    abs4Loop k lits s =
      (consume ((fits (min k (2 * lits.length)) s + 1) / 2) (putList ((nibbles lits).take k) s),
        decide (fits (min k (2 * lits.length)) s = k)) := by
  induction k, lits, s using abs4Loop.induct with
  | case1 lits s => simp [abs4Loop, putList, fits]
  | case2 k s => simp [abs4Loop, putList, fits, nibbles]
  | case3 b bs s hf => simp [abs4Loop, putList, hf, fits_of_full hf, nibbles]
  | case4 b bs s hf =>
    have hm : min 1 (2 * (b :: bs).length) = 0 + 1 := by simp only [List.length_cons]; omega
    have hz : fits 0 (put (hiNibble b) s) = 0 := by simp [fits]
    rw [hm, fits_succ hf (hiNibble b), hz]
    simp [abs4Loop, hf, nibbles, putList]
  | case5 k b bs s hf => simp [abs4Loop, putList, hf, fits_of_full hf, nibbles]
  | case6 k b bs s hf s' hf' =>
    have hm : min (k + 2) (2 * (b :: bs).length) = (min k (2 * bs.length) + 1) + 1 := by
      simp only [List.length_cons]; omega
    have hp : (put (hiNibble b) s).full = true := hf'
    rw [hm, fits_succ hf (hiNibble b), fits_of_full hp]
    simp [abs4Loop, hf, nibbles, putList, hp]
  | case7 k b bs s hf s' hf' ih =>
    have hm : min (k + 2) (2 * (b :: bs).length) = (min k (2 * bs.length) + 1) + 1 := by
      simp only [List.length_cons]; omega
    have hp : (put (hiNibble b) s).full ≠ true := hf'
    rw [hm, fits_succ hf (hiNibble b), fits_succ hp (loNibble b)]
    simp only [s', put_consume, putList_consume, fits_consume, consume_consume] at ih
    have hc : ∀ x : Nat, (x + 1 + 1 + 1) / 2 = 1 + (x + 1) / 2 := by omega
    have h1 : abs4Loop (k + 2) (b :: bs) s =
        abs4Loop k bs (consume 1 (put (loNibble b) (put (hiNibble b) s))) := by
      simp [abs4Loop, hf, hp, put_consume]
    have h2 : putList ((nibbles (b :: bs)).take (k + 2)) s =
        putList ((nibbles bs).take k) (put (loNibble b) (put (hiNibble b) s)) := by
      simp [nibbles, putList, hf, hp]
    rw [h1, h2, ih, hc]
    exact Prod.ext rfl (decide_eq_decide.2 (by simp))

end Sys2Proof.Machine
end

