-- ==== Sys2Proof/Laws/Source.lean ====
section
/-! SUPPORT. What a read of the byte source delivers (R61, R62). -/

namespace Sys2Proof.Machine

theorem srcAvail_eq (srcLen addr n : Nat) : srcAvail srcLen addr n = min n (srcLen - addr) := by
  unfold srcAvail; split
  · omega
  · split <;> omega

/-- No answer exceeds what is available (R61). -/
theorem srcAnswer_le (s : State) (avail : Nat) : (srcAnswer s avail).1 ≤ avail := by
  unfold srcAnswer; split <;> simp

@[simp] theorem length_srcRead (s : State) (addr n : Nat) :
    (srcRead s addr n).1.length = (srcAnswer s (srcAvail s.cfg.srcLen addr n)).1 := by simp [srcRead]

theorem length_srcRead_le (s : State) (addr n : Nat) :
    (srcRead s addr n).1.length ≤ min n (s.cfg.srcLen - addr) := by
  rw [length_srcRead, ← srcAvail_eq]; exact srcAnswer_le _ _

/-- Each byte delivered is the source's own, or a free value where the host changed it (R61, R63). -/
theorem getD_srcRead (s : State) (addr n j : Nat) (h : j < (srcRead s addr n).1.length) :
    (srcRead s addr n).1.getD j 0 = srcByte s (addr + j) := by
  rw [length_srcRead] at h
  simp [srcRead, List.getD, h]

theorem srcByte_unchanged {s : State} {a : Nat} (h : a ∉ s.srcChanged) : srcByte s a = s.src.read a := by
  simp [srcByte, h]

end Sys2Proof.Machine
end

