-- ==== Sys2Proof/Laws/Engine.lean ====
section
/-! SUPPORT. Everything a step can do, said once: by the commands the engine fetches, by the transforms it selects, by
the host's accesses, by the engine's phases and by the inputs. -/

namespace Sys2Proof.Machine

/-! ### The RLE commands -/

/-- An instruction the RLE decoder can answer with (R93). -/
def Instr.isRle : Instr → Bool
  | .run8 _ _ => true
  | .run4 _ _ => true
  | .eol => true
  | .eob => true
  | .delta _ => true
  | .abs8 _ _ _ => true
  | .abs4 _ _ _ => true
  | .pass1 => false
  | .pass4 => false
  | .pass8 => false
  | .pass16 => false
  | .swap24 => false
  | .compact32 => false
  | .start _ => false
  | .regWrite _ _ _ => false
  | .regRead _ _ => false

/-- An RLE command that writes nibbles only, as every command of RLE4 does (R66, R127, R132). -/
def Instr.isNibble : Instr → Bool
  | .run8 _ _ => false
  | .run4 _ _ => true
  | .eol => true
  | .eob => true
  | .delta _ => true
  | .abs8 _ _ _ => false
  | .abs4 _ _ _ => true
  | .pass1 => false
  | .pass4 => false
  | .pass8 => false
  | .pass16 => false
  | .swap24 => false
  | .compact32 => false
  | .start _ => false
  | .regWrite _ _ _ => false
  | .regRead _ _ => false

/-- How an RLE command changes the state: it writes indices as far as they fit, or moves the cursor forward, and
consumes operand bytes it has; or it stops the decode. -/
inductive RleEffect (i : Instr) (s t : State) : Prop where
  | writes (vs : List Byte) (k : Nat) (hv : Instr.isNibble i = true → ∀ v ∈ vs, v.toNat < 16)
      (hk : k + 2 ≤ (encodeBytes i).length) (h : t = consume k (putList vs s))
  | moves (k d : Nat) (hk : k + 2 ≤ (encodeBytes i).length) (h : t = { consume k s with op := s.op + d })
  | stops (e : RleEnd) (he : e ≠ .none) (hk : 2 ≤ (encodeBytes i).length) (h : t = stop e s)

/-- The RLE decoder answers with an RLE command, in RLE4 mode with one that writes nibbles only (R93, R104). -/
theorem decode_isRle {u : AbsUnit} {m : Mode} {bytes rest : List Byte} {i : Instr}
    (h : decode u m bytes = .ok (i, rest)) :
    Instr.isRle i = true ∧
      (m = .rle4 → Instr.isNibble i = true) := by
  match bytes, h with
  | b0 :: b1 :: r, h =>
    simp only [decode, Except.ok.injEq] at h
    rcases pair_cases b0 b1 with h0 | ⟨rfl, rfl⟩ | ⟨rfl, rfl⟩ | ⟨rfl, rfl⟩ | ⟨rfl, h1⟩
    · cases m
      · rw [decodePair_rle8_run u h0] at h; cases h; exact ⟨rfl, by simp [Instr.isNibble]⟩
      · rw [decodePair_rle4_run u h0] at h; cases h; exact ⟨rfl, by simp [Instr.isNibble]⟩
    · cases h; exact ⟨rfl, by simp [Instr.isNibble]⟩
    · cases h; exact ⟨rfl, by simp [Instr.isNibble]⟩
    · match r, h with
      | [], h => cases h; exact ⟨rfl, by simp [Instr.isNibble]⟩
      | [_], h => cases h; exact ⟨rfl, by simp [Instr.isNibble]⟩
      | _ :: _ :: _, h => cases h; exact ⟨rfl, by simp [Instr.isNibble]⟩
    · cases m
      · rw [decodePair_abs8 u h1] at h; cases h; exact ⟨rfl, by simp [Instr.isNibble]⟩
      · rw [decodePair_abs4 u h1] at h; cases h; exact ⟨rfl, by simp [Instr.isNibble]⟩

theorem consumePad_cases (m : Nat) (pad : Option Byte) (s : State) :
    ∃ k, consumePad m pad s = consume k s ∧ (k = 0 ∨ (k = 1 ∧ m % 2 = 1 ∧ pad.isSome = true)) := by
  by_cases h : m % 2 = 1 ∧ pad.isSome = true
  · exact ⟨1, consumePad_of_pad h s, .inr ⟨rfl, h⟩⟩
  · exact ⟨0, consumePad_of_no_pad h s, .inl rfl⟩

theorem execAbs8_eq (n : Byte) (lits : List Byte) (pad : Option Byte) (s : State) :
    ∃ k, execAbs8 n lits pad s =
        .next (consume (fits (min n.toNat lits.length) s + k) (putList (lits.take n.toNat) s)) ∧
      (k = 0 ∨ (k = 1 ∧ pad.isSome = true ∧ fits (min n.toNat lits.length) s = n.toNat)) := by
  simp only [execAbs8, abs8Loop_eq]
  by_cases hk : fits (min n.toNat lits.length) s = n.toNat
  · obtain ⟨k, h, hc⟩ := consumePad_cases n.toNat pad
      (consume (fits (min n.toNat lits.length) s) (putList (lits.take n.toNat) s))
    refine ⟨k, by simp only [hk, decide_true, if_true] at h ⊢; rw [h, consume_consume], ?_⟩
    rcases hc with hc | hc
    · exact .inl hc
    · exact .inr ⟨hc.1, hc.2.2, hk⟩
  · exact ⟨0, by simp [hk], .inl rfl⟩

theorem execAbs4_eq (n : Byte) (lits : List Byte) (pad : Option Byte) (s : State) (p : Nat)
    (hp : p = abs4Indices s.params.rle4AbsUnit n.toNat) :
    ∃ k, execAbs4 n lits pad s =
        .next (consume ((fits (min p (2 * lits.length)) s + 1) / 2 + k) (putList ((nibbles lits).take p) s)) ∧
      (k = 0 ∨ (k = 1 ∧ pad.isSome = true ∧ fits (min p (2 * lits.length)) s = p)) := by
  subst hp
  simp only [execAbs4, abs4Loop_eq]
  by_cases hk : fits (min (abs4Indices s.params.rle4AbsUnit n.toNat) (2 * lits.length)) s =
      abs4Indices s.params.rle4AbsUnit n.toNat
  · obtain ⟨k, h, hc⟩ := consumePad_cases (abs4LiteralBytes s.params.rle4AbsUnit n.toNat) pad
      (consume ((fits (min (abs4Indices s.params.rle4AbsUnit n.toNat) (2 * lits.length)) s + 1) / 2)
        (putList ((nibbles lits).take (abs4Indices s.params.rle4AbsUnit n.toNat)) s))
    refine ⟨k, by simp only [hk, decide_true, if_true] at h ⊢; rw [h, consume_consume], ?_⟩
    rcases hc with hc | hc
    · exact .inl hc
    · exact .inr ⟨hc.1, hc.2.2, hk⟩
  · exact ⟨0, by simp [hk], .inl rfl⟩

theorem toNat_hiNibble (b : Byte) : (hiNibble b).toNat < 16 := by
  simp only [hiNibble, BitVec.toNat_setWidth]
  exact Nat.lt_of_le_of_lt (Nat.mod_le _ _) (b.extractLsb' 4 4).isLt

theorem toNat_loNibble (b : Byte) : (loNibble b).toNat < 16 := by
  simp only [loNibble, BitVec.toNat_setWidth]
  exact Nat.lt_of_le_of_lt (Nat.mod_le _ _) (b.extractLsb' 0 4).isLt

theorem toNat_runNibble (ph : RunPhase) (n j : Nat) (v : Byte) : (runNibble ph n j v).toNat < 16 := by
  cases ph <;> simp only [runNibble] <;> split <;> first | exact toNat_hiNibble v | exact toNat_loNibble v

theorem toNat_nibbles (bs : List Byte) : ∀ v ∈ nibbles bs, v.toNat < 16 := by
  induction bs with
  | nil => intro v hv; cases hv
  | cons b bs ih =>
    intro v hv
    rcases List.mem_cons.1 hv with rfl | hv
    · exact toNat_hiNibble b
    rcases List.mem_cons.1 hv with rfl | hv
    · exact toNat_loNibble b
    · exact ih v hv

theorem length_abs {n : Byte} {lits : List Byte} {pad : Option Byte} {c k : Nat} (hc : c ≤ lits.length)
    (hk : k = 0 ∨ (k = 1 ∧ pad.isSome = true)) :
    c + k + 2 ≤ (0 :: n :: (lits ++ padBytes pad) : List Byte).length := by
  simp only [List.length_cons, List.length_append]
  rcases hk with rfl | ⟨rfl, hp⟩
  · omega
  · cases pad with
    | none => cases hp
    | some b => simp only [padBytes, List.length_singleton]; omega

/-- An RLE command always answers a next state, with one of these effects (R252). -/
theorem exec_rle {i : Instr} (h : Instr.isRle i = true) (s : State) :
    ∃ t, exec i s = .next t ∧ RleEffect i s t := by
  cases i with
  | run8 n v => exact ⟨_, rfl, .writes _ 0 (by simp [Instr.isNibble]) (Nat.le_refl 2) (run8Loop_eq _ _ _)⟩
  | run4 n v =>
    refine ⟨_, rfl, .writes _ 0 (fun _ w hw => ?_) (Nat.le_refl 2) (run4Loop_eq _ _ _ _ _ _)⟩
    obtain ⟨j, -, rfl⟩ := List.mem_map.1 hw
    exact toNat_runNibble _ _ _ _
  | eol => exact ⟨s, rfl, .moves 0 0 (Nat.le_refl 2) rfl⟩
  | eob => exact ⟨_, rfl, .stops .eob (by simp) (Nat.le_refl 2) rfl⟩
  | delta d =>
    cases d with
    | none => exact ⟨_, rfl, .stops .inEnd (by simp) (Nat.le_refl 2) rfl⟩
    | some d => exact ⟨_, rfl, .moves 2 _ (Nat.le_refl 4) rfl⟩
  | abs8 n lits pad =>
    obtain ⟨k, hk, hp⟩ := execAbs8_eq n lits pad s
    refine ⟨_, hk, .writes _ _ (by simp [Instr.isNibble]) (length_abs ?_ ?_) rfl⟩
    · exact (Nat.min_le_left _ _).trans (Nat.min_le_right _ _)
    · exact hp.imp_right fun h => ⟨h.1, h.2.1⟩
  | abs4 n lits pad =>
    obtain ⟨k, hk, hp⟩ := execAbs4_eq n lits pad s _ rfl
    refine ⟨_, hk, .writes _ _ (fun _ w hw => toNat_nibbles lits w (List.mem_of_mem_take hw)) (length_abs ?_ ?_) rfl⟩
    · simp only [fits]; omega
    · exact hp.imp_right fun h => ⟨h.1, h.2.1⟩
  | pass1 => simp [Instr.isRle] at h
  | pass4 => simp [Instr.isRle] at h
  | pass8 => simp [Instr.isRle] at h
  | pass16 => simp [Instr.isRle] at h
  | swap24 => simp [Instr.isRle] at h
  | compact32 => simp [Instr.isRle] at h
  | start hi => simp [Instr.isRle] at h
  | regWrite w off v => simp [Instr.isRle] at h
  | regRead w off => simp [Instr.isRle] at h

/-! ### The row transforms -/

/-- The transform a depth selects changes ROW alone, or reaches outside it (R200, R10). -/
theorem exec_depth {bpp : BitVec 16} {i : Instr} (h : decodeDepth bpp = .ok i) (s : State) :
    (∃ row, exec i s = .next { s with row := row } ∧ (s.row.wf = true → row.wf = true)) ∨
      (exec i s = .fault .outOfBounds ∧ bpp = 24 ∧ s.cfg.rowStride < 3 * s.cfg.pixels) ∨
      (exec i s = .fault .outOfBounds ∧ bpp = 32 ∧ s.cfg.rowStride < 4 * s.cfg.pixels) := by
  unfold decodeDepth at h
  split at h
  · cases h; exact .inl ⟨s.row, rfl, id⟩
  split at h
  · cases h; exact .inl ⟨s.row, rfl, id⟩
  split at h
  · cases h; exact .inl ⟨s.row, rfl, id⟩
  split at h
  · cases h; exact .inl ⟨s.row, rfl, id⟩
  split at h
  · cases h
    by_cases hl : 3 * s.cfg.pixels ≤ s.cfg.rowStride
    · exact .inl ⟨swapPixels s.cfg.pixels s.row, by simp only [exec, execSwap24, if_pos hl],
        fun hw => wf_swapPixels hw _⟩
    · exact .inr (.inl ⟨by simp only [exec, execSwap24, if_neg hl], ‹_›, by omega⟩)
  split at h
  · cases h
    by_cases hl : 4 * s.cfg.pixels ≤ s.cfg.rowStride
    · exact .inl ⟨compactPixels s.cfg.pixels s.row, by simp only [exec, execCompact32, if_pos hl],
        fun hw => wf_compactPixels hw _⟩
    · exact .inr (.inr ⟨by simp only [exec, execCompact32, if_neg hl], ‹_›, by omega⟩)
  · cases h

/-! ### The host's accesses -/

/-- What a host access does: START, a store into a configuration register outside BUSY, nothing, or a read. -/
inductive HostEffect (a : HostAccess) (s t : State) : Prop where
  | starts (v : Word) (ha : a = .write 4 0 v) (hv : v.getLsbD 0 = true) (hb : s.busy = false) (h : t = startDecode s)
  | stores (w : Nat) (off : BitVec 8) (v : Word) (ha : a = .write w off v) (q : HostReg) (hb : s.busy = false)
      (h : t = storeConfig q v s)
  | ignored (h : t = s)
  | reads (data : List Byte) (h : t = { s with readData := data, draws := s.draws + 1 })

theorem exec_access (a : HostAccess) (s : State) : ∃ t, exec (decodeAccess a) s = .next t ∧ HostEffect a s t := by
  have start_case : ∀ v : Word, v.getLsbD 0 = true → HostEffect (.write 4 0 v) s (startDecode s) := by
    intro v hv
    cases hb : s.busy with
    | true => exact .ignored (startDecode_of_busy hb)
    | false => exact .starts v rfl hv hb rfl
  cases a with
  | write w off v =>
    by_cases hs : w = 4 ∧ off = 0 ∧ v.getLsbD 0 = true
    · refine ⟨startDecode s, by simp only [decodeAccess, if_pos hs, exec, execStart], ?_⟩
      obtain ⟨rfl, rfl, hv⟩ := hs
      exact start_case v hv
    · simp only [decodeAccess, if_neg hs, exec, execRegWrite]
      by_cases ha : aligned32 w off = true
      · rw [if_pos ha]
        have hw : w = 4 := by simp only [aligned32, Bool.and_eq_true, beq_iff_eq] at ha; exact ha.1
        cases hq : HostReg.ofOffset off with
        | none => exact ⟨s, rfl, .ignored rfl⟩
        | some q =>
          refine ⟨_, rfl, ?_⟩
          unfold writeReg
          split
          · split
            · rename_i hc hv
              have h0 : off = 0 := by
                subst hc
                unfold HostReg.ofOffset at hq
                split at hq <;> first | (exact BitVec.eq_of_toNat_eq ‹_›) | (simp at hq)
              exact absurd ⟨hw, h0, hv⟩ hs
            · exact .ignored rfl
          · cases hb : s.busy with
            | true => exact .ignored (if_pos rfl)
            | false => exact .stores w off v rfl q hb (if_neg (by simp))
      · rw [if_neg ha]; exact ⟨s, rfl, .ignored rfl⟩
  | read w off =>
    simp only [decodeAccess, exec, execRegRead]
    split
    · split <;> exact ⟨_, rfl, .reads _ rfl⟩
    · exact ⟨_, rfl, .reads _ rfl⟩

/-! ### The engine's phases -/

/-- What the reading half of RGB_ROW leaves (R176). -/
theorem readRow_cases (s : State) : ∃ bytes,
    (readRow s).1 =
      if (readRow s).2 = true then recordIoError (loadRow bytes (afterSrcRead s))
      else loadRow bytes (afterSrcRead s) :=
  ⟨(srcRead s (s.cfg.rowAddress s.r) s.cfg.rowStride).1, rfl⟩

/-- Everything an engine step can do when it answers a next state. -/
inductive EngineEffect (s t : State) : Prop where
  | rests (hp : s.phase = .idle ∨ s.phase = .done ∨ s.phase = .error) (h : t = s)
  | fails (code : ErrCode) (hp : s.phase = .check) (hc : checkError s.params s.cfg = some code)
      (h : t = raiseFatal code s)
  | accepts (hp : s.phase = .check) (hc : checkError s.params s.cfg = none) (h : t = accept s)
  | loads (m : Mode) (bytes : List Byte) (short : Bool) (hp : s.phase = .rleLoad)
      (hm : modeOf s.cfg.comp = some m) (hl : bytes.length ≤ s.cfg.payloadExtent)
      (h : t = { afterSrcRead s with
        mode := m, p := bytes, payloadShort := short, idx := [], ip := 0, op := 0, rleEnd := .none
        phase := .rleDecode })
  | stops (e : RleEnd) (k : Nat) (hp : s.phase = .rleDecode) (he : e ≠ .none) (hk : k ≤ s.p.length - s.ip)
      (h : t = stop e (consume k s))
  | executes (i : Instr) (after : List Byte) (hp : s.phase = .rleDecode) (hf : s.full = false)
      (hi : fetch s = .ok (i, after)) (he : exec i (consume 2 s) = .next t) (hr : RleEffect i (consume 2 s) t)
  | waits (hp : s.phase = .rleEmit ∨ s.phase = .rgbRow) (hs : s.sinkReady = false) (h : t = s)
  | emitsSlice (hp : s.phase = .rleEmit) (hr : s.r < s.cfg.rowCount)
      (h : t = emitRow (s.idx.slice (s.cfg.sliceBase s.r) s.cfg.pixels) 1 8 false s)
  | emitsRow (row : Memory) (e : Bool) (hp : s.phase = .rgbRow) (hr : s.r < s.cfg.rowCount) (hw : row.wf = true)
      (h : t = emitRgbRow e
        { (if e = true then recordIoError else id) (afterSrcRead s) with row := row })

theorem wf_loadRow (bytes : List Byte) (s : State) : (loadRow bytes s).row.wf = true :=
  Memory.wf_writeAll rfl 0 bytes

theorem engineStep_effect {s t : State} (h : engineStep s = .next t) : EngineEffect s t := by
  cases hp : s.phase with
  | idle => simp only [engineStep, hp, Host.Outcome.next.injEq] at h; exact .rests (.inl hp) h.symm
  | done => simp only [engineStep, hp, Host.Outcome.next.injEq] at h; exact .rests (.inr (.inl hp)) h.symm
  | error => simp only [engineStep, hp, Host.Outcome.next.injEq] at h; exact .rests (.inr (.inr hp)) h.symm
  | check =>
    simp only [engineStep, hp, Host.Outcome.next.injEq, checkStep] at h
    cases hc : checkError s.params s.cfg with
    | none => rw [hc] at h; exact .accepts hp hc h.symm
    | some code => rw [hc] at h; exact .fails code hp hc h.symm
  | rleLoad =>
    simp only [engineStep, hp, rleLoadStep] at h
    cases hm : modeOf s.cfg.comp with
    | none => rw [hm] at h; cases h
    | some m =>
      rw [hm] at h
      simp only [Host.Outcome.next.injEq] at h
      refine .loads m _ _ hp hm ?_ h.symm
      exact (length_srcRead_le s s.cfg.off s.cfg.payloadExtent).trans (Nat.min_le_left _ _)
  | rleDecode =>
    simp only [engineStep, hp, rleDecodeStep] at h
    by_cases hf : s.full = true
    · rw [if_pos hf] at h
      simp only [Host.Outcome.next.injEq] at h
      exact .stops .outFull 0 hp (by simp) (Nat.zero_le _) h.symm
    · rw [if_neg hf] at h
      cases hi : fetch s with
      | ok r =>
        obtain ⟨i, after⟩ := r
        rw [hi] at h
        obtain ⟨t', ht', hr⟩ := exec_rle (decode_isRle hi).1 (consume 2 s)
        have hn : t' = t := Host.Outcome.next.inj (ht'.symm.trans h)
        subst hn
        exact .executes i after hp (by simpa using hf) hi ht' hr
      | error e =>
        rw [hi] at h
        have hd : (e = .endBeforeB0) ∨ (e = .endBeforeB1 ∧ s.p.length - s.ip = 1) := by
          unfold fetch at hi
          match hl : s.p.drop s.ip, hi with
          | [], hi => cases hi; exact .inl rfl
          | [_], hi =>
            cases hi
            exact .inr ⟨rfl, by rw [← List.length_drop, hl]; rfl⟩
          | _ :: _ :: _, hi => cases hi
        rcases hd with rfl | ⟨rfl, hl⟩
        · simp only [Host.Outcome.next.injEq] at h
          exact .stops .inEnd 0 hp (by simp) (Nat.zero_le _) h.symm
        · simp only [Host.Outcome.next.injEq] at h
          exact .stops .inEnd 1 hp (by simp) (by omega) h.symm
  | rleEmit =>
    simp only [engineStep, hp, rleEmitStep] at h
    cases hs : s.sinkReady with
    | false => simp only [hs, Bool.false_eq_true, if_false, Host.Outcome.next.injEq] at h; exact .waits (.inl hp) hs h.symm
    | true =>
      simp only [hs, if_true] at h
      by_cases hr : s.r < s.cfg.rowCount
      · simp only [hr, if_true, Host.Outcome.next.injEq] at h; exact .emitsSlice hp hr h.symm
      · simp only [hr, if_false] at h; cases h
  | rgbRow =>
    simp only [engineStep, hp, rgbRowStep] at h
    cases hs : s.sinkReady with
    | false => simp only [hs, Bool.false_eq_true, if_false, Host.Outcome.next.injEq] at h; exact .waits (.inr hp) hs h.symm
    | true =>
      simp only [hs, if_true] at h
      by_cases hr : s.r < s.cfg.rowCount
      · simp only [hr, if_true] at h
        cases hd : decodeDepth s.cfg.bpp with
        | error e => rw [hd] at h; cases h
        | ok i =>
          rw [hd] at h
          obtain ⟨bytes, h1⟩ := readRow_cases s
          rcases exec_depth hd (readRow s).1 with ⟨row, hx, hw⟩ | ⟨hx, -⟩ | ⟨hx, -⟩
          · simp only [hx, Host.Outcome.next.injEq] at h
            refine .emitsRow row (readRow s).2 hp hr (hw ?_) ?_
            · rw [h1]; split <;> exact wf_loadRow bytes (afterSrcRead s)
            · rw [← h, h1]; split <;> rfl
          · simp only [hx] at h; cases h
          · simp only [hx] at h; cases h
      · simp only [hr, if_false] at h; cases h

/-! ### One step -/

/-- Everything a step can do when it answers a next state. -/
inductive StepEffect (s t : State) : Prop where
  | engine (rest : List Input) (hi : (s.inputs = [] ∧ rest = []) ∨ s.inputs = .engine :: rest)
      (h : EngineEffect { s with inputs := rest } t)
  | access (a : HostAccess) (rest : List Input) (hi : s.inputs = .access a :: rest)
      (h : HostEffect a { s with inputs := rest } t)
  | reset (rest : List Input) (hi : s.inputs = .reset :: rest) (h : t = applyReset { s with inputs := rest })
  | srcWrite (a : BitVec 32) (b : Byte) (rest : List Input) (hi : s.inputs = .srcWrite a b :: rest)
      (h : t = hostWritesSource a.toNat b { s with inputs := rest })
  | sink (ready : Bool) (rest : List Input) (hi : s.inputs = .sink ready :: rest)
      (h : t = { s with inputs := rest, sinkReady := ready })

theorem step_effect {s t : State} (h : step s = .next t) : StepEffect s t := by
  simp only [step, machineStep] at h
  split at h
  · rename_i hi
    refine .engine [] (.inl ⟨hi, rfl⟩) (engineStep_effect ?_)
    rw [← h, ← hi]
  · rename_i e rest hi
    cases e with
    | engine => exact .engine rest (.inr hi) (engineStep_effect h)
    | access a =>
      obtain ⟨t', ht', he⟩ := exec_access a { s with inputs := rest }
      have hn : t' = t := Host.Outcome.next.inj (ht'.symm.trans h)
      subst hn
      exact .access a rest hi he
    | reset => exact .reset rest hi (Host.Outcome.next.inj h).symm
    | srcWrite a b => exact .srcWrite a b rest hi (Host.Outcome.next.inj h).symm
    | sink ready => exact .sink ready rest hi (Host.Outcome.next.inj h).symm

end Sys2Proof.Machine
end

