-- ==== Sys2Proof/Laws/PerInstr.lean ====
section
/-! SUPPORT. Statements made once per constructor of `Instr`. -/

namespace Sys2Proof.Laws.EvenLength

/-- A complete instruction takes an even number of stream bytes (R102); the rows of the other encoding spaces take
none. -/
def Statement (i : Instr) : Prop :=
  ∀ (u : AbsUnit) (m : Mode), i.wf u m = true → (encodeBytes i).length % 2 = 0

theorem run8 (n v : Byte) : Statement (.run8 n v) := by
  intro u m _; simp [encodeBytes, encode, Code.bytes]

theorem run4 (n v : Byte) : Statement (.run4 n v) := by
  intro u m _; simp [encodeBytes, encode, Code.bytes]

theorem eol : Statement .eol := by
  intro u m _; simp [encodeBytes, encode, Code.bytes]

theorem eob : Statement .eob := by
  intro u m _; simp [encodeBytes, encode, Code.bytes]

theorem delta (d : Option (Byte × Byte)) : Statement (.delta d) := by
  intro u m _
  cases d <;> simp [encodeBytes, encode, Code.bytes]

/-- The operands of an absolute run are even in number when they are complete. -/
theorem operands {n : Byte} {m : Nat} {lits : List Byte} {pad : Option Byte}
    (h : absOperandsComplete n m lits pad = true) : (0 :: n :: (lits ++ padBytes pad) : List Byte).length % 2 = 0 := by
  simp only [absOperandsComplete, Bool.and_eq_true, beq_iff_eq] at h
  obtain ⟨⟨-, hl⟩, hp⟩ := h
  simp only [List.length_cons, List.length_append, length_padBytes, hl, hp, beq_iff_eq]
  split <;> omega

theorem abs8 (n : Byte) (lits : List Byte) (pad : Option Byte) : Statement (.abs8 n lits pad) := by
  intro u m h
  simp only [Instr.wf, Bool.and_eq_true] at h
  exact operands h.2

theorem abs4 (n : Byte) (lits : List Byte) (pad : Option Byte) : Statement (.abs4 n lits pad) := by
  intro u m h
  simp only [Instr.wf, Bool.and_eq_true] at h
  exact operands h.2

theorem pass1 : Statement .pass1 := by
  intro u m _; simp [encodeBytes, encode, Code.bytes]

theorem pass4 : Statement .pass4 := by
  intro u m _; simp [encodeBytes, encode, Code.bytes]

theorem pass8 : Statement .pass8 := by
  intro u m _; simp [encodeBytes, encode, Code.bytes]

theorem pass16 : Statement .pass16 := by
  intro u m _; simp [encodeBytes, encode, Code.bytes]

theorem swap24 : Statement .swap24 := by
  intro u m _; simp [encodeBytes, encode, Code.bytes]

theorem compact32 : Statement .compact32 := by
  intro u m _; simp [encodeBytes, encode, Code.bytes]

theorem start (hi : BitVec 31) : Statement (.start hi) := by
  intro u m _; simp [encodeBytes, encode, Code.bytes]

theorem regWrite (width : Nat) (offset : BitVec 8) (v : Word) : Statement (.regWrite width offset v) := by
  intro u m _; simp [encodeBytes, encode, Code.bytes]

theorem regRead (width : Nat) (offset : BitVec 8) : Statement (.regRead width offset) := by
  intro u m _; simp [encodeBytes, encode, Code.bytes]

end Sys2Proof.Laws.EvenLength
end

