-- ==== Sys2Proof/Tests/Slice0.lean ====
section
/-! SUPPORT. The model's own tests. Expected values come from spec/95_test_vectors.md (the vector is named) or, for
encodings, from the formats of spec/30_encoding.md and opcode_table.json. The witnesses show that the hypotheses of the
obligations can be met. -/

namespace Sys2Proof.Tests

open Sys2Proof.Machine

/-! ### Helpers -/

def testParams : Params where
  maxIndexBytes := 4294967295
  maxRowBytes := 4294967295
  rle4AbsUnit := .bytes
  rle4RunPhase := .highFirst
  bands16 := 1
  bps16 := 16

/-- A latched configuration whose rows start at source address 0. -/
def cfgOf (w hs : Int) (bpp : BitVec 16) (comp : Word) (srcLen : Nat) : Latched where
  w := w
  hs := hs
  bpp := bpp
  comp := comp
  off := 0
  srcLen := srcLen

/-- A state with the ideal source, in a phase and with a latched configuration. -/
def at' (ph : Phase) (c : Latched) : State :=
  { State.reset with params := testParams, srcModel := .ideal, phase := ph, cfg := c }

/-- An RLE8 decode of a `w` by `l` image with this payload. -/
def rle8 (w l : Int) (p : List Byte) : State :=
  { at' .rleDecode (cfgOf w l 8 1 p.length) with p := p }

/-- The same in RLE4. -/
def rle4 (w l : Int) (p : List Byte) : State :=
  { at' .rleDecode (cfgOf w l 4 2 p.length) with p := p, mode := .rle4 }

/-- A row of bytes in ROW. -/
def withRow (bs : List Byte) (s : State) : State := { s with row := Memory.writeAll [] 0 bs }

/-- The next state of an outcome. -/
def nextOf : Host.Outcome State Fault Refusal → Option State
  | .next s => some s
  | .fault _ => none
  | .refused _ => none

/-- The index, cursor and input position an RLE command leaves. -/
def rleOut (n : Nat) (o : Host.Outcome State Fault Refusal) : Option (List Byte × Nat × Nat) :=
  (nextOf o).map fun s => (s.idx.slice 0 n, s.op, s.ip)

/-- The first `n` bytes of ROW a transform leaves. -/
def rowOut (n : Nat) (o : Host.Outcome State Fault Refusal) : Option (List Byte) :=
  (nextOf o).map fun s => s.row.slice 0 n

/-! ### Well-formedness: an ill-formed term for each check -/

theorem test_wf_run8_count : (Instr.run8 0 1).wf .bytes .rle8 = false := by decide
theorem test_wf_run8_mode : (Instr.run8 4 1).wf .bytes .rle4 = false := by decide
theorem test_wf_run4_count : (Instr.run4 0 1).wf .bytes .rle4 = false := by decide
theorem test_wf_run4_mode : (Instr.run4 4 1).wf .bytes .rle8 = false := by decide
theorem test_wf_delta_operands : (Instr.delta none).wf .bytes .rle8 = false := by decide
theorem test_wf_abs8_count : (Instr.abs8 2 [1, 2] none).wf .bytes .rle8 = false := by decide
theorem test_wf_abs8_literals : (Instr.abs8 3 [1, 2] (some 0)).wf .bytes .rle8 = false := by decide
theorem test_wf_abs8_pad_missing : (Instr.abs8 3 [1, 2, 3] none).wf .bytes .rle8 = false := by decide
theorem test_wf_abs8_pad_extra : (Instr.abs8 4 [1, 2, 3, 4] (some 0)).wf .bytes .rle8 = false := by decide
theorem test_wf_abs8_mode : (Instr.abs8 4 [1, 2, 3, 4] none).wf .bytes .rle4 = false := by decide
theorem test_wf_abs4_unit : (Instr.abs4 3 [1, 2, 3] (some 0)).wf .pixels .rle4 = false := by decide
theorem test_wf_abs4_mode : (Instr.abs4 3 [1, 2, 3] (some 0)).wf .bytes .rle8 = false := by decide
theorem test_wf_write_width : (Instr.regWrite 2 0x08 1).wf .bytes .rle8 = false := by decide
theorem test_wf_write_alignment : (Instr.regWrite 4 0x09 1).wf .bytes .rle8 = false := by decide
theorem test_wf_write_ctrl : (Instr.regWrite 4 0x00 1).wf .bytes .rle8 = false := by decide
theorem test_wf_read_width : (Instr.regRead 1 0x08).wf .bytes .rle8 = false := by decide
theorem test_wf_read_alignment : (Instr.regRead 4 0x0A).wf .bytes .rle8 = false := by decide

/-! ### Decoding: the code of each row, written out from the spec -/

/-- `nnnnnnnnvvvvvvvv` with n = 4, v = 1 (V1). -/
theorem test_decode_run8 : decodeTableWord 16 0b0000010000000001 = some (.run8 4 1) := by decide

/-- `nnnnnnnnhhhhllll` with n = 5, h = 10, l = 11 (V6). -/
theorem test_decode_run4 : decodeCode .bytes .rle4 (.stream [0b00000101, 0b10101011]) = .ok (.run4 5 0xAB) := by
  decide

theorem test_decode_eol : decodeTableWord 16 0b0000000000000000 = some .eol := by decide

theorem test_decode_eob : decodeTableWord 16 0b0000000000000001 = some .eob := by decide

/-- The second word is bits 31 to 16: dx = 1 in its high byte, dy = 3 in its low byte (log 13). -/
theorem test_decode_delta : decodeTableWord 32 0b00000001000000110000000000000010 = some (.delta (some (1, 3))) := by
  decide

/-- V18's first command: n = 3, three literals, a pad. -/
theorem test_decode_abs8 :
    decodeCode .bytes .rle8 (.stream [0b00000000, 0b00000011, 7, 8, 9, 0]) = .ok (.abs8 3 [7, 8, 9] (some 0)) := by
  decide

/-- V25's command: five literal bytes and a pad under BYTES, three and a pad under PIXELS. -/
theorem test_decode_abs4 :
    decodeCode .bytes .rle4 (.stream [0, 5, 0x12, 0x34, 0x50, 0x00, 0x11, 0x22]) =
      .ok (.abs4 5 [0x12, 0x34, 0x50, 0x00, 0x11] (some 0x22)) ∧
    decodeCode .pixels .rle4 (.stream [0, 5, 0x12, 0x34, 0x50, 0x00]) = .ok (.abs4 5 [0x12, 0x34, 0x50] (some 0)) := by
  decide

/-- R201. -/
theorem test_decode_depths :
    decodeDepth 0x0001 = .ok .pass1 ∧ decodeDepth 0x0004 = .ok .pass4 ∧ decodeDepth 0x0008 = .ok .pass8 ∧
    decodeDepth 0x0010 = .ok .pass16 ∧ decodeDepth 0x0018 = .ok .swap24 ∧ decodeDepth 0x0020 = .ok .compact32 ∧
    decodeDepth 0x0002 = .error .unsupportedDepth := by
  decide

theorem test_decode_start : decodeAccess (.write 4 0x00 0x80000001) = .start 0x40000000 := by decide

/-- V76 and V74: CTRL with bit 0 clear, and BPP. -/
theorem test_decode_reg_write :
    decodeAccess (.write 4 0x00 2) = .regWrite 4 0x00 2 ∧
    decodeAccess (.write 4 0x10 0x00010018) = .regWrite 4 0x10 0x00010018 := by
  decide

theorem test_decode_reg_read : decodeAccess (.read 4 0x04) = .regRead 4 0x04 := by decide

/-- Only a missing opcode byte is no command (R103, R123); a code is one command and nothing after it. -/
theorem test_decode_rejects :
    decode .bytes .rle8 [] = .error .endBeforeB0 ∧ decode .bytes .rle8 [4] = .error .endBeforeB1 ∧
    decodeCode .bytes .rle8 (.stream [4, 1, 0, 0]) = .error .trailingBytes := by
  decide

/-- The word the host places is the command the next step runs: RUN 4, 1 (V1). -/
theorem test_withFetchWord_runs :
    rleOut 5 (step (State.reset.withFetchWord 16 0x0401)) = some ([1, 1, 1, 1, 0], 4, 2) := by
  decide

/-! ### One instruction -/

/-- V2. -/
theorem test_run8_cut : rleOut 4 (exec (.run8 5 9) (rle8 3 1 [5, 9])) = some ([9, 9, 9, 0], 3, 0) := by decide

/-- V6. -/
theorem test_run4_high_first :
    rleOut 5 (exec (.run4 5 0xAB) (rle4 5 1 [5, 0xAB])) = some ([10, 11, 10, 11, 10], 5, 0) := by decide

/-- V9 under PARITY. -/
theorem test_run4_parity :
    rleOut 3 (exec (.run4 4 0xAB) { rle4 3 1 [4, 0xAB] with params := { testParams with rle4RunPhase := .parity } }) =
      some ([11, 10, 11], 3, 0) := by decide

/-- V10: EOL does not move the cursor. -/
theorem test_eol : rleOut 2 (exec .eol (rle8 4 2 [0, 0])) = some ([0, 0], 0, 0) := by decide

/-- V12. -/
theorem test_eob :
    (nextOf (exec .eob { rle8 2 2 [0, 1] with ip := 2 })).map (fun s =>
      (s.phase, s.rleEnd, s.trunc, s.rleInPos, s.rleOutPos)) = some (.rleEmit, .eob, false, 2, 0) := by decide

/-- V13: 1 + 1 * 4. -/
theorem test_delta :
    rleOut 1 (exec (.delta (some (1, 1))) { rle8 4 2 [0, 2, 1, 1, 1, 7, 0, 1] with ip := 2 }) = some ([0], 5, 4) := by
  decide

/-- V16: the lone byte is not consumed. -/
theorem test_delta_cut :
    (nextOf (exec (.delta none) { rle8 2 1 [0, 2, 5] with ip := 2 })).map (fun s =>
      (s.rleEnd, s.trunc, s.rleInPos, s.rleOutPos)) = some (.inEnd, true, 2, 0) := by decide

/-- V18. -/
theorem test_abs8_pad :
    rleOut 5 (exec (.abs8 3 [7, 8, 9] (some 0)) { rle8 5 1 [0, 3, 7, 8, 9, 0, 2, 1] with ip := 2 }) =
      some ([7, 8, 9, 0, 0], 3, 6) := by decide

/-- V19: the third literal and the pad stay unread. -/
theorem test_abs8_full :
    rleOut 2 (exec (.abs8 3 [7, 8, 9] (some 0)) { rle8 2 1 [0, 3, 7, 8, 9, 0] with ip := 2 }) =
      some ([7, 8], 2, 4) := by decide

/-- V24: the byte whose high nibble was written counts as consumed. -/
theorem test_abs4_half_byte :
    rleOut 3 (exec (.abs4 3 [0x12, 0x34, 0x56] (some 0)) { rle4 3 1 [0, 3, 0x12, 0x34, 0x56, 0] with ip := 2 }) =
      some ([1, 2, 3], 3, 4) := by decide

/-- V25 under PIXELS: the pad after three literal bytes is consumed. -/
theorem test_abs4_pixels :
    rleOut 5 (exec (.abs4 5 [0x12, 0x34, 0x50] (some 0))
      { rle4 5 1 [0, 5, 0x12, 0x34, 0x50, 0] with ip := 2, params := { testParams with rle4AbsUnit := .pixels } }) =
      some ([1, 2, 3, 4, 5], 5, 6) := by decide

/-- V40 to V42, and a 4-bit row. -/
theorem test_pass :
    rowOut 4 (exec .pass8 (withRow [5, 6, 7, 0] (at' .rgbRow (cfgOf 3 1 8 0 4)))) = some [5, 6, 7, 0] ∧
    rowOut 4 (exec .pass16 (withRow [0x34, 0x12, 0x78, 0x56] (at' .rgbRow (cfgOf 2 1 16 0 4)))) =
      some [0x34, 0x12, 0x78, 0x56] ∧
    rowOut 4 (exec .pass1 (withRow [0xA5, 0x80, 0, 0] (at' .rgbRow (cfgOf 9 1 1 0 4)))) = some [0xA5, 0x80, 0, 0] ∧
    rowOut 4 (exec .pass4 (withRow [0x12, 0x30, 0, 0] (at' .rgbRow (cfgOf 3 1 4 0 4)))) = some [0x12, 0x30, 0, 0] := by
  decide

/-- V45: the three padding bytes are not swapped. -/
theorem test_swap24 :
    rowOut 12 (exec .swap24 (withRow [1, 2, 3, 4, 5, 6, 7, 8, 9, 0xAA, 0xBB, 0xCC] (at' .rgbRow (cfgOf 3 1 24 0 12)))) =
      some [3, 2, 1, 6, 5, 4, 9, 8, 7, 0xAA, 0xBB, 0xCC] := by decide

/-- V49: the tail keeps its source bytes. -/
theorem test_compact32 :
    rowOut 12 (exec .compact32
      (withRow [1, 2, 3, 4, 5, 6, 7, 8, 9, 10, 11, 12] (at' .rgbRow (cfgOf 3 1 32 0 12)))) =
      some [3, 2, 1, 7, 6, 5, 11, 10, 9, 10, 11, 12] := by decide

/-- The START of V63: HEIGHT = 0x80000000 is latched as -2^31, and the result registers are cleared. -/
theorem test_start :
    (nextOf (exec (.start 0) { State.reset with width := 1, height := 0x80000000, bpp := 8, rleInPos := 9 })).map
      (fun s => (s.phase, s.cfg.w, s.cfg.hs, s.cfg.rowCount, s.rleInPos)) =
      some (.check, 1, -2147483648, 2147483648, 0) := by decide

/-- V78: START while BUSY. -/
theorem test_start_busy :
    (nextOf (exec (.start 0) (rle8 2 1 [1]))).map (fun s => (s.phase, s.p)) = some (.rleDecode, [1]) := by decide

/-- V74. -/
theorem test_reg_write_bpp :
    (nextOf (exec (.regWrite 4 0x10 0x00010018) State.reset)).map (fun s => regRead s .bpp) = some 0x00000018 := by
  decide

/-- V77. -/
theorem test_reg_write_narrow :
    (nextOf (exec (.regWrite 2 0x08 7) State.reset)).map (fun s => s.width) = some 0 ∧
    (nextOf (exec (.regWrite 4 0x0A 7) State.reset)).map (fun s => s.width) = some 0 := by decide

/-- V70: IOERR_FIRST_ROW after reset, lowest byte first. -/
theorem test_reg_read_first_row :
    (nextOf (exec (.regRead 4 0x2C) State.reset)).map (fun s => s.readData) = some [0xFF, 0xFF, 0xFF, 0xFF] := by decide

/-- R68: bits 31:24 in the last byte; V72: a reserved offset reads 0. -/
theorem test_reg_read_bytes :
    (nextOf (exec (.regRead 4 0x08) { State.reset with width := 0x12345678 })).map (fun s => s.readData) =
      some [0x78, 0x56, 0x34, 0x12] ∧
    (nextOf (exec (.regRead 4 0x38) State.reset)).map (fun s => s.readData) = some [0, 0, 0, 0] := by decide

/-! ### One engine step -/

/-- V50, V59, V60 and V62: what CHECK leaves. -/
theorem test_check :
    (nextOf (engineStep (at' .check (cfgOf 4 2 2 0 0)))).map State.statusWord = some 0x13 ∧
    (nextOf (engineStep (at' .check (cfgOf 0 2 8 9 0)))).map State.statusWord = some 0x23 ∧
    (nextOf (engineStep (at' .check (cfgOf 0 2 4 1 0)))).map State.statusWord = some 0x33 ∧
    (nextOf (engineStep (at' .check (cfgOf 4 0 8 0 0)))).map (fun s => (s.statusWord, s.stride)) = some (0x006, 4) := by
  decide

/-- V32: three of six bytes with an error. -/
theorem test_rle_load :
    (nextOf (engineStep { at' .rleLoad (cfgOf 4 2 8 1 6) with
      src := Memory.writeAll [] 0 [4, 1, 4, 2, 0, 1], srcModel := .scripted [⟨3, true⟩] })).map
      (fun s => (s.phase, s.p, s.payloadShort)) = some (.rleDecode, [4, 1, 4], true) := by decide

/-- V27 and V30: a lone B0 is consumed; an image without pixels is full at once. -/
theorem test_head_stops :
    (nextOf (engineStep (rle8 2 1 [1]))).map (fun s => (s.phase, s.rleEnd, s.rleInPos, s.trunc)) =
      some (.rleEmit, .inEnd, 1, true) ∧
    (nextOf (engineStep { rle8 2 0 [] with path := .rle8 })).map State.statusWord = some 0x200A := by decide

/-- L1-4: display row 0 is the upper half of IDX. -/
theorem test_rle_emit :
    (nextOf (engineStep { at' .rleEmit (cfgOf 4 2 8 1 6) with
      idx := Memory.writeAll [] 0 [1, 1, 1, 1, 2, 2, 2, 2], rleEnd := .outFull })).map (fun s => s.trace) =
      some [⟨0, [2, 2, 2, 2], 1, 8, false⟩] := by decide

/-- Program F, display row 0: a short read is an IoError and the row is still emitted. -/
theorem test_rgb_row :
    (nextOf (engineStep { at' .rgbRow (cfgOf 5 2 8 0 12) with
      src := Memory.writeAll [] 0 [0xA0, 0xA1, 0xA2, 0xA3, 0xA4, 0xA5, 0xA6, 0xA7, 0xB0, 0xB1, 0xB2, 0xB3] })).map
      (fun s => (s.trace, s.ioerrCount, s.ioerrFirstRow)) =
      some ([⟨0, [0xB0, 0xB1, 0xB2, 0xB3, 0, 0, 0, 0], 1, 8, true⟩], 1, 0) := by decide

/-- V80: a reset keeps the trace. -/
theorem test_reset_input :
    (nextOf (step { at' .rgbRow (cfgOf 5 2 8 0 12) with
      width := 5, trace := [⟨0, [1], 1, 8, false⟩], inputs := [.reset] })).map (fun s => (s.width, s.phase, s.trace)) =
      some (0, .idle, [⟨0, [1], 1, 8, false⟩]) := by decide

/-! ### Witnesses: the hypotheses of the obligations can be met -/

/-- A decode about to start, undisturbed, whose register values are those of its latched configuration. -/
def starting (w hs : Int) (bpp : BitVec 16) (comp : Word) : State := at' .check (cfgOf w hs bpp comp 6)

theorem cfgOf_inRange {w hs : Int} (bpp : BitVec 16) (comp : Word) {n : Nat} (h1 : -2147483648 ≤ w)
    (h2 : w < 2147483648) (h3 : -2147483648 ≤ hs) (h4 : hs < 2147483648) (h5 : n < 4294967296) :
    (cfgOf w hs bpp comp n).InRange :=
  ⟨h1, h2, h3, h4, (by decide : 0 < 4294967296), h5⟩

theorem starting_inv (w hs : Int) (bpp : BitVec 16) (comp : Word) (h1 : -2147483648 ≤ w) (h2 : w < 2147483648)
    (h3 : -2147483648 ≤ hs) (h4 : hs < 2147483648) : StateInv (starting w hs bpp comp) := by
  constructor
  case latchedRange => exact cfgOf_inRange bpp comp h1 h2 h3 h4 (by decide)
  all_goals simp [starting, at', cfgOf, State.reset, Phase.accepted, Phase.usesIndex, Memory.wf, Memory.wfFrom]

theorem starting_undisturbed (w hs : Int) (bpp : BitVec 16) (comp : Word) :
    (starting w hs bpp comp).StartsUndisturbed := ⟨rfl, rfl, rfl⟩

/-- A state in RLE_DECODE the rules produce: nothing of `p` decoded yet. -/
theorem rle8_inv (p : List Byte) (hp : p.length < 4294967296) :
    StateInv { rle8 2 2 p with path := .rle8, stride := 4 } := by
  constructor
  case latchedRange => exact cfgOf_inRange 8 1 (by decide) (by decide) (by decide) (by decide) hp
  case checked => intro _; exact (rfl : checkError testParams (cfgOf 2 2 8 1 0) = none)
  case strideIs => intro _; exact (by decide : (4 : Word) = BitVec.ofNat 32 (min (cfgOf 2 2 8 1 0).rowStride 4294967295))
  all_goals simp [rle8, at', cfgOf, State.reset, Phase.accepted, Phase.usesIndex, Memory.wf, Memory.wfFrom, pathOf, modeOf]

theorem witness_DecodeInvertsEncode :
    (Instr.run8 255 0).wf .bytes .rle8 = true ∧ (Instr.run4 1 0xAB).wf .bytes .rle4 = true ∧
    Instr.eol.wf .bytes .rle4 = true ∧ Instr.eob.wf .pixels .rle8 = true ∧
    (Instr.delta (some (255, 0))).wf .bytes .rle8 = true ∧
    (Instr.abs8 3 [7, 8, 9] (some 0)).wf .bytes .rle8 = true ∧ (Instr.abs8 4 [1, 2, 3, 4] none).wf .bytes .rle8 = true ∧
    (Instr.abs4 3 [1, 2, 3] (some 9)).wf .bytes .rle4 = true ∧ (Instr.abs4 3 [1, 2] none).wf .pixels .rle4 = true ∧
    Instr.compact32.wf .bytes .rle8 = true ∧ (Instr.start 0x7FFFFFFF).wf .bytes .rle8 = true ∧
    (Instr.regWrite 4 0xFC 1).wf .bytes .rle8 = true ∧ (Instr.regRead 4 0).wf .bytes .rle8 = true := by decide

theorem witness_EncodeInvertsDecode :
    decode .bytes .rle8 [0, 3, 7] = .ok (.abs8 3 [7] none, []) ∧
    decode .bytes .rle4 [0, 3, 7, 8, 9, 5, 4, 1] = .ok (.abs4 3 [7, 8, 9] (some 5), [4, 1]) ∧
    decode .bytes .rle8 [0, 2, 5] = .ok (.delta none, [5]) := by decide

/-- Each clause at the ends of its range. -/
theorem witness_EveryPairHasOneClass :
    decode .bytes .rle8 [1, 0] = .ok (.run8 1 0, []) ∧ decode .bytes .rle8 [255, 255] = .ok (.run8 255 255, []) ∧
    decode .bytes .rle4 [1, 0] = .ok (.run4 1 0, []) ∧ decode .bytes .rle4 [255, 255] = .ok (.run4 255 255, []) ∧
    decode .bytes .rle8 [0, 0] = .ok (.eol, []) ∧ decode .bytes .rle4 [0, 1] = .ok (.eob, []) := by decide

theorem witness_EveryPairHasOneClass_operands :
    decode .bytes .rle8 [0, 2, 1, 3] = .ok (.delta (some (1, 3)), []) ∧
    decode .bytes .rle8 [0, 2, 1] = .ok (.delta none, [1]) ∧ decode .bytes .rle8 [0, 2] = .ok (.delta none, []) ∧
    decode .bytes .rle8 [0, 3] = .ok (.abs8 3 [] none, []) ∧ decode .bytes .rle8 [0, 255] = .ok (.abs8 255 [] none, []) ∧
    decode .pixels .rle4 [0, 3] = .ok (.abs4 3 [] none, []) ∧
    decode .pixels .rle4 [0, 255] = .ok (.abs4 255 [] none, []) := by decide

/-- Absolute runs with a command after them (R98, R99): odd and even counts, both units of RLE4, and a missing pad. -/
theorem witness_EveryPairHasOneClass_midstream :
    decode .bytes .rle8 [0, 3, 7, 8, 9, 6, 4, 1] = .ok (.abs8 3 [7, 8, 9] (some 6), [4, 1]) ∧
    decode .bytes .rle8 [0, 4, 7, 8, 9, 6, 4, 1] = .ok (.abs8 4 [7, 8, 9, 6] none, [4, 1]) ∧
    decode .bytes .rle8 [0, 3, 7, 8, 9] = .ok (.abs8 3 [7, 8, 9] none, []) ∧
    decode .bytes .rle4 [0, 3, 7, 8, 9, 6, 4, 1] = .ok (.abs4 3 [7, 8, 9] (some 6), [4, 1]) ∧
    decode .pixels .rle4 [0, 4, 7, 8, 4, 1] = .ok (.abs4 4 [7, 8] none, [4, 1]) ∧
    decode .pixels .rle4 [0, 5, 7, 8, 9, 6, 4, 1] = .ok (.abs4 5 [7, 8, 9] (some 6), [4, 1]) := by decide

theorem witness_CommandLengthFromThePair :
    decode .bytes .rle8 [4, 1, 9] = .ok (.run8 4 1, [9]) ∧ (Instr.run8 4 1).wf .bytes .rle8 = true ∧
    decode .bytes .rle8 [0, 2, 1, 3] = .ok (.delta (some (1, 3)), []) ∧
    decode .bytes .rle4 [0, 3, 7, 8, 9, 5] = .ok (.abs4 3 [7, 8, 9] (some 5), []) ∧
    (Instr.abs4 3 [7, 8, 9] (some 5)).wf .bytes .rle4 = true ∧
    decode .pixels .rle4 [0, 3, 7, 8] = .ok (.abs4 3 [7, 8] none, []) ∧
    (Instr.abs4 3 [7, 8] none).wf .pixels .rle4 = true := by decide

theorem witness_StepTakesTheEnginesTurn :
    (rle8 2 1 [1]).inputs = [] ∧ ({ rle8 2 1 [1] with inputs := [.engine, .reset] } : State).inputs = [.engine, .reset] :=
  ⟨rfl, rfl⟩

theorem witness_StepRunsTheFetchedCommand :
    (rle8 2 1 [2, 5]).inputs = [] ∧ (rle8 2 1 [2, 5]).phase = .rleDecode ∧
    (rle8 2 1 [2, 5]).op < (rle8 2 1 [2, 5]).cfg.size ∧ fetch (rle8 2 1 [2, 5]) = .ok (.run8 2 5, []) := by decide

theorem witness_StepRunsTheHostAccess :
    ({ State.reset with inputs := [.access (.read 4 4)] } : State).inputs = [.access (.read 4 4)] := rfl

theorem witness_StepRunsTheSelectedTransform :
    (at' .rgbRow (cfgOf 1 1 24 0 4)).inputs = [] ∧ (at' .rgbRow (cfgOf 1 1 24 0 4)).phase = .rgbRow ∧
    (at' .rgbRow (cfgOf 1 1 24 0 4)).sinkReady = true ∧ (at' .rgbRow (cfgOf 1 1 24 0 4)).r < 1 ∧
    decodeDepth 24 = .ok .swap24 ∧
    (nextOf (exec .swap24 (readRow (at' .rgbRow (cfgOf 1 1 24 0 4))).1)).isSome = true := by decide

/-- The three ways the head stops: S = op, N = ip, N = ip + 1. -/
theorem witness_HeadStopsOnAnExhaustedBuffer :
    ({ rle8 2 1 [1] with op := 2 } : State).cfg.size = ({ rle8 2 1 [1] with op := 2 } : State).op ∧
    (rle8 2 1 []).op < (rle8 2 1 []).cfg.size ∧ (rle8 2 1 []).p.length = (rle8 2 1 []).ip ∧
    (rle8 2 1 [1]).op < (rle8 2 1 [1]).cfg.size ∧ (rle8 2 1 [1]).p.length = (rle8 2 1 [1]).ip + 1 := by decide

/-- The write clauses of RUN8, RUN4, ABS8 and ABS4: a canonical IDX that already holds something. -/
theorem witness_WritesKeepIdx :
    ({ rle8 3 1 [2, 5] with idx := [(1, 7)] } : State).idx.wf = true ∧
    (3 : Nat) = min (min (3 : Byte).toNat [7, 8, 9].length) ((rle8 3 1 []).cfg.size - (rle8 3 1 []).op) ∧
    (2 : Nat) = min (min (3 : Byte).toNat [7, 8].length) ((rle8 3 1 []).cfg.size - (rle8 3 1 []).op) ∧
    (2 : Nat) = min (min 6 (2 * [7, 8, 9].length)) ((rle4 2 1 []).cfg.size - (rle4 2 1 []).op) := by decide

theorem witness_CompleteCommandConsumesItsLength :
    fetch (rle8 5 1 [0, 3, 7, 8, 9, 0]) = .ok (.abs8 3 [7, 8, 9] (some 0), []) ∧
    (Instr.abs8 3 [7, 8, 9] (some 0)).wf .bytes .rle8 = true ∧ 0 + (3 : Byte).toNat ≤ (rle8 5 1 []).cfg.size ∧
    fetch (rle4 6 1 [0, 3, 7, 8, 9, 0]) = .ok (.abs4 3 [7, 8, 9] (some 0), []) ∧
    0 + abs4Indices .bytes (3 : Byte).toNat ≤ (rle4 6 1 []).cfg.size ∧
    (nextOf (engineStep (rle8 5 1 [0, 3, 7, 8, 9, 0]))).isSome = true := by decide

theorem witness_CommandsMoveForwardWithinThePayload :
    (rle8 2 1 [2, 5]).phase = .rleDecode ∧ (rle8 2 1 [2, 5]).ip ≤ (rle8 2 1 [2, 5]).p.length ∧
    (nextOf (engineStep (rle8 2 1 [2, 5]))).isSome = true := by decide

/-- Both modes; a payload and, with DATA_OFFSET = SRC_LEN, none (V28). -/
theorem witness_RleLoadTakesTheSnapshot :
    (at' .rleLoad (cfgOf 2 1 8 1 6)).cfg.comp = 1 ∧ (at' .rleLoad (cfgOf 2 1 4 2 0)).cfg.comp = 2 ∧
    (6 : Nat) = (cfgOf 2 1 8 1 6).payloadExtent ∧ (0 : Nat) = (cfgOf 2 1 4 2 0).payloadExtent := by decide

/-- The three ranges of `addr` with SRC_LEN = 6 and n = 4, each at its ends, and a delivered byte. -/
theorem witness_SrcReadObeysItsLaws :
    (2 + 4 ≤ (at' .rgbRow (cfgOf 1 1 8 0 6)).cfg.srcLen) ∧
    (3 < (at' .rgbRow (cfgOf 1 1 8 0 6)).cfg.srcLen ∧ (at' .rgbRow (cfgOf 1 1 8 0 6)).cfg.srcLen < 3 + 4) ∧
    (5 < (at' .rgbRow (cfgOf 1 1 8 0 6)).cfg.srcLen ∧ (at' .rgbRow (cfgOf 1 1 8 0 6)).cfg.srcLen < 5 + 4) ∧
    (at' .rgbRow (cfgOf 1 1 8 0 6)).cfg.srcLen ≤ 6 ∧
    3 < (srcRead (at' .rgbRow (cfgOf 1 1 8 0 6)) 0 4).1.length ∧
    0 + 3 ∉ (at' .rgbRow (cfgOf 1 1 8 0 6)).srcChanged := by decide

theorem witness_IdealSourceDeliversAll : (at' .rgbRow (cfgOf 1 1 8 0 6)).srcModel = .ideal := rfl

theorem witness_SourceWriteChangesOnlyTheSource :
    ({ rle8 2 1 [1] with inputs := [.srcWrite 3 9] } : State).inputs = [.srcWrite 3 9] ∧
    (rle8 2 1 [1]).src.wf = true ∧ (rle8 2 1 [1]).busy = true ∧ State.reset.busy = false := by decide

/-- A second byte changed, and a byte written as it is, while one address is already remembered. -/
theorem witness_SourceWriteChangesOnlyTheSource_remembered :
    (nextOf (step { rle8 2 1 [1] with srcChanged := [5], inputs := [.srcWrite 3 9] })).map (fun t => t.srcChanged) =
      some [3, 5] ∧
    (nextOf (step { rle8 2 1 [1] with srcChanged := [5], inputs := [.srcWrite 3 0] })).map (fun t => t.srcChanged) =
      some [5] := by decide

theorem witness_Swap24SwapsEveryPixel :
    (withRow [1, 2, 3, 9] (at' .rgbRow (cfgOf 1 1 24 0 4))).cfg.bpp = 24 ∧
    (withRow [1, 2, 3, 9] (at' .rgbRow (cfgOf 1 1 24 0 4))).row.wf = true := by decide

theorem witness_Compact32PacksEveryPixel :
    (withRow [1, 2, 3, 9] (at' .rgbRow (cfgOf 1 1 32 0 4))).cfg.bpp = 32 ∧
    (withRow [1, 2, 3, 9] (at' .rgbRow (cfgOf 1 1 32 0 4))).row.wf = true := by decide

/-- Two 8-bit pixels take a row of four bytes, too short for two triples. -/
theorem witness_TransformOutsideTheRowFaults :
    (cfgOf 2 1 8 0 4).rowStride < 3 * (2 : Int).toNat ∧ (cfgOf 2 1 8 0 4).rowStride < 4 * (2 : Int).toNat := by decide

theorem witness_StrideProperties :
    (1 : Int) ≤ (cfgOf 1 1 24 0 4).w ∧ (cfgOf 1 1 24 0 4).bpp = 24 ∧ (cfgOf 2147483647 1 32 0 4).bpp = 32 ∧
    (1 : Int) ≤ (cfgOf 2147483647 1 32 0 4).w ∧ (cfgOf 1 1 1 0 4).bpp = 1 := by decide

theorem witness_SignificantBytesFitTheRow :
    (1 : Int) ≤ (cfgOf 1 1 1 0 4).w ∧ (cfgOf 1 1 1 0 4).bpp = 1 ∧ (cfgOf 1 1 4 0 4).bpp = 4 ∧
    (cfgOf 1 1 8 0 4).bpp = 8 ∧ (cfgOf 1 1 16 0 4).bpp = 16 ∧ (cfgOf 1 1 24 0 4).bpp = 24 ∧
    (cfgOf 1 1 32 0 4).bpp = 32 := by decide

/-- A row of each shape (PASS, SWAP24, COMPACT32), bottom-up and top-down, in full and short. -/
theorem witness_RgbRowStepEmitsItsRow :
    (at' .rgbRow (cfgOf 5 2 8 0 12)).phase = .rgbRow ∧ (at' .rgbRow (cfgOf 5 2 8 0 12)).sinkReady = true ∧
    (at' .rgbRow (cfgOf 5 2 8 0 12)).r < (cfgOf 5 2 8 0 12).rowCount ∧
    checkError testParams (cfgOf 5 2 8 0 12) = none ∧ checkError testParams (cfgOf 5 (-2) 24 0 12) = none ∧
    checkError testParams (cfgOf 5 2 32 0 12) = none ∧
    (srcRead (at' .rgbRow (cfgOf 5 2 8 0 12)) (0 + 1 * 8) 8).1.length = 4 ∧
    (srcRead (at' .rgbRow (cfgOf 5 2 8 0 12)) (0 + 0 * 8) 8).1.length = 8 := by decide

theorem witness_RleEmitStepEmitsItsSlice :
    (at' .rleEmit (cfgOf 4 (-2) 8 1 6)).phase = .rleEmit ∧ (at' .rleEmit (cfgOf 4 (-2) 8 1 6)).sinkReady = true ∧
    (at' .rleEmit (cfgOf 4 (-2) 8 1 6)).r < (-2 : Int).natAbs := by decide

theorem witness_EngineWaitsForTheSink :
    ({ at' .rgbRow (cfgOf 1 1 8 0 4) with sinkReady := false } : State).sinkReady = false ∧
    (at' .rgbRow (cfgOf 1 1 8 0 4)).phase = .rgbRow ∧ (at' .rleEmit (cfgOf 1 1 8 1 4)).phase = .rleEmit := by decide

/-- L1-2: four rows of one byte, the same bytes in opposite file orders. -/
theorem witness_OppositeStorageOrdersReadAlike :
    ∃ s t : State, 0 < s.cfg.hs ∧ t.cfg = { s.cfg with hs := -s.cfg.hs } ∧ s.srcModel = .ideal ∧ t.srcModel = .ideal ∧
      s.srcChanged = [] ∧ t.srcChanged = [] ∧ s.cfg.off + s.cfg.rowCount * s.cfg.rowStride ≤ s.cfg.srcLen ∧
      (∀ k < s.cfg.rowCount, ∀ j < s.cfg.rowStride, t.src.read (s.cfg.off + k * s.cfg.rowStride + j) =
        s.src.read (s.cfg.off + (s.cfg.rowCount - 1 - k) * s.cfg.rowStride + j)) ∧ 3 < s.cfg.rowCount :=
  ⟨{ at' .rgbRow (cfgOf 1 4 8 0 16) with src := [(0, 0x40), (4, 0x30), (8, 0x20), (12, 0x10)] },
    { at' .rgbRow (cfgOf 1 (-4) 8 0 16) with src := [(0, 0x10), (4, 0x20), (8, 0x30), (12, 0x40)] }, by decide⟩

/-- One configuration for each way CHECK fails, next to its bound: V50, V51, V53, V55, V56, and a row and an index
buffer one byte too large. -/
theorem witness_CheckReportsTheFirstFailure :
    (at' .check (cfgOf 4 2 2 0 0)).phase = .check ∧ checkError testParams (cfgOf 4 2 2 0 0) = some .unsupportedBitDepth ∧
    checkError testParams (cfgOf 4 2 8 3 0) = some .unsupportedCompression ∧
    checkError testParams (cfgOf 0 2 8 0 0) = some .invalidGeometry ∧
    checkError testParams (cfgOf 4 2 4 1 0) = some .unsupportedCombination ∧
    checkError testParams (cfgOf 4 2 8 2 0) = some .unsupportedCombination ∧
    checkError { testParams with maxRowBytes := 7 } (cfgOf 5 2 8 0 0) = some .resourceExhausted ∧
    checkError { testParams with maxIndexBytes := 9 } (cfgOf 5 (-2) 8 1 0) = some .resourceExhausted := by decide

/-- Each accepted kind with its buffer exactly large enough, and an image without rows (V62). -/
theorem witness_CheckAcceptsALegalConfiguration :
    (0 : Int) < (cfgOf 5 2 8 0 0).w ∧ (cfgOf 5 2 8 0 0).rowStride ≤ 8 ∧ (cfgOf 4 0 8 0 0).hs = 0 ∧
    (cfgOf 5 (-2) 8 1 0).size ≤ 10 ∧ (cfgOf 5 2 4 2 0).bpp = 4 ∧ (cfgOf 5 2 4 2 0).size ≤ 10 := by decide

theorem witness_FatalErrorsComeFromCheckOnly :
    (nextOf (step (at' .check (cfgOf 4 2 2 0 0)))).map (fun t => t.phase) = some .error ∧
    (at' .check (cfgOf 4 2 2 0 0)).phase ≠ .error := by decide

theorem witness_EngineRestsOutsideADecode :
    (at' .done (cfgOf 1 1 8 0 0)).busy = false ∧ (at' .error (cfgOf 1 1 8 0 0)).busy = false ∧
    State.reset.busy = false := by decide

/-- The three ways: the engine's turn, a reset, a START (V79, Program G). -/
theorem witness_ErrorIsLeftByStartOrReset :
    (nextOf (step (at' .error (cfgOf 4 2 2 0 0)))).map (fun t => t.phase) = some .error ∧
    (nextOf (step { at' .error (cfgOf 4 2 2 0 0) with inputs := [.reset] })).map (fun t => t.phase) = some .idle ∧
    (nextOf (step { at' .error (cfgOf 4 2 2 0 0) with inputs := [.access (.write 4 0 1)] })).map (fun t => t.phase) =
      some .check := by decide

/-- In DONE and ERROR: the engine's turn, a configuration write, a CTRL write that is no START and a START. -/
theorem witness_ResultsAreKeptUntilStartOrReset :
    (nextOf (step { at' .done (cfgOf 4 2 8 1 6) with rleEnd := .outFull, path := .rle8 })).map State.statusWord =
      some 0x200A ∧
    (nextOf (step { at' .error (cfgOf 4 2 2 0 0) with
      err := .unsupportedBitDepth, inputs := [.access (.write 4 0x08 7)] })).map State.statusWord = some 0x13 ∧
    (nextOf (step { at' .done (cfgOf 4 2 8 1 6) with rleInPos := 4, inputs := [.access (.write 4 0 2)] })).map
      (fun t => t.rleInPos) = some 4 ∧ (2 : Word).getLsbD 0 = false ∧
    (nextOf (step { at' .done (cfgOf 4 2 8 1 6) with rleInPos := 4, inputs := [.access (.write 4 0 1)] })).map
      (fun t => t.rleInPos) = some 0 ∧ (1 : Word).getLsbD 0 = true := by decide

theorem witness_StartLatchesAndClears :
    State.reset.busy = false ∧ (rle8 2 1 [1]).busy = true ∧ (3 : Word).getLsbD 0 = true ∧
    (2 : Word).getLsbD 0 = false := by decide

/-- A store, and each way a write is ignored, the read-only and reserved offsets at both ends. -/
theorem witness_RegWriteStoresConfiguration :
    State.reset.busy = false ∧ (rle8 2 1 [1]).busy = true ∧ 0x20 ≤ (0x20 : BitVec 8).toNat ∧
    0x20 ≤ (0xFC : BitVec 8).toNat := by decide

/-- Every aligned offset has a value that meets the clauses (here after reset, with IOERR_FIRST_ROW all ones); while
BUSY the offsets 0, 0x1C and 0x38 meet the premise. -/
theorem witness_RegReadReturnsTheRegister :
    State.reset.busy = false ∧ ((0x00 : BitVec 8) ≠ 0x04 ∧ (0x1C : BitVec 8) ≠ 0x04 ∧
      (0x1C : BitVec 8).toNat < 0x20 ∧ 0x38 ≤ (0x38 : BitVec 8).toNat) ∧
    ∀ off : BitVec 8, off.toNat % 4 = 0 → ∃ v : Word,
      (off = 0x00 → v = 0) ∧ (off = 0x04 → v = State.reset.statusWord) ∧ (off = 0x08 → v = State.reset.width) ∧
      (off = 0x0C → v = State.reset.height) ∧ (off = 0x10 → v = State.reset.bpp.setWidth 32) ∧
      (off = 0x14 → v = State.reset.comp) ∧ (off = 0x18 → v = State.reset.dataOffset) ∧
      (off = 0x1C → v = State.reset.srcLen) ∧ (off = 0x20 → v = State.reset.stride) ∧
      (off = 0x24 → v = State.reset.rowsEmitted) ∧ (off = 0x28 → v = State.reset.ioerrCount) ∧
      (off = 0x2C → v = State.reset.ioerrFirstRow) ∧ (off = 0x30 → v = State.reset.rleInPos) ∧
      (off = 0x34 → v = State.reset.rleOutPos) ∧ (0x38 ≤ off.toNat → v = 0) := by
  refine ⟨rfl, by decide, fun off _ => ⟨if off = 0x2C then 0xFFFFFFFF else 0, ?_⟩⟩
  by_cases h : off = 0x2C
  · subst h; decide
  · rw [if_neg h]
    refine ⟨fun _ => rfl, fun _ => by decide, fun _ => rfl, fun _ => rfl, fun _ => rfl, fun _ => rfl, fun _ => rfl,
      fun _ => rfl, fun _ => rfl, fun _ => rfl, fun _ => rfl, fun h' => absurd h' h, fun _ => rfl, fun _ => rfl,
      fun _ => rfl⟩

theorem witness_BusyReadsReportOnlyState :
    (rle8 2 1 [1]).busy = true ∧ (0x20 : BitVec 8).toNat % 4 = 0 ∧ (0x34 : BitVec 8).toNat % 4 = 0 := by decide

theorem witness_RegisterBytesAreLittleEndian :
    ((1 : Nat) ≠ 4) ∧ (0x02 : BitVec 8).toNat % 4 ≠ 0 ∧ (3 : Nat) < 4 := by decide

theorem witness_ResetGivesTheStatedValues :
    ({ rle8 2 1 [1] with inputs := [.reset] } : State).inputs = [.reset] ∧
    (nextOf (step { rle8 2 1 [1] with inputs := [.reset] })).isSome = true := by decide

theorem witness_ResetKeepsTheTrace :
    ({ rle8 2 1 [1] with inputs := [.reset, .engine] } : State).inputs = [.reset, .engine] := rfl

/-- In the middle of a decode and at its start. -/
theorem witness_StepKeepsTheInvariant :
    ∃ s t : State, StateInv s ∧ step s = .next t ∧ s.phase = .rleDecode :=
  ⟨_, _, rle8_inv [2, 5] (by decide), rfl, rfl⟩

/-- At DONE on both paths, without rows (R186): a termination reason exactly on the run-length path. -/
theorem witness_StepKeepsTheInvariant_done :
    StateInv { at' .done (cfgOf 2 0 8 0 6) with path := .rgb, stride := 4 } ∧
    StateInv { at' .done (cfgOf 2 0 8 1 6) with
      path := .rle8, stride := 4, rleEnd := .outFull, payloadShort := true } := by
  constructor <;> constructor
  case left.latchedRange =>
    exact cfgOf_inRange 8 0 (by decide) (by decide) (by decide) (by decide) (by decide)
  case right.latchedRange =>
    exact cfgOf_inRange 8 1 (by decide) (by decide) (by decide) (by decide) (by decide)
  case left.checked => intro _; exact (rfl : checkError testParams (cfgOf 2 0 8 0 6) = none)
  case right.checked => intro _; exact (rfl : checkError testParams (cfgOf 2 0 8 1 6) = none)
  case left.strideIs =>
    intro _; exact (by decide : (4 : Word) = BitVec.ofNat 32 (min (cfgOf 2 0 8 0 6).rowStride 4294967295))
  case right.strideIs =>
    intro _; exact (by decide : (4 : Word) = BitVec.ofNat 32 (min (cfgOf 2 0 8 1 6).rowStride 4294967295))
  all_goals simp [at', cfgOf, State.reset, State.busy, Phase.stateCode, Phase.accepted, Phase.usesIndex, Memory.wf,
    Memory.wfFrom, pathOf, modeOf, Latched.rowCount]

theorem witness_NoStepStops : StateInv (starting 4 2 8 1) :=
  starting_inv 4 2 8 1 (by decide) (by decide) (by decide) (by decide)

theorem witness_StepKeepsMemoriesCanonical :
    ∃ s t : State, step s = .next t ∧ s.src.wf = true ∧ s.idx.wf = true ∧ s.row.wf = true ∧ s.idx ≠ [] :=
  ⟨{ rle8 3 1 [2, 5] with idx := [(1, 7)] }, _, rfl, by decide, by decide, by decide, by decide⟩

/-- A step that emits a row and one that does not. -/
theorem witness_TraceGrowsByTheNextRowOnly :
    (nextOf (step (at' .rleEmit (cfgOf 4 2 8 1 6)))).map (fun t => t.trace.length) = some 1 ∧
    (nextOf (step (rle8 2 1 [2, 5]))).map (fun t => t.trace.length) = some 0 := by decide

theorem witness_ConfigurationChangesByHostOrReset :
    (nextOf (step (rle8 2 1 [2, 5]))).isSome = true ∧
    (∀ w off v rest, (rle8 2 1 [2, 5]).inputs ≠ .access (.write w off v) :: rest) ∧
    (∀ rest, (rle8 2 1 [2, 5]).inputs ≠ .reset :: rest) :=
  ⟨by decide, by simp [rle8, at', State.reset], by simp [rle8, at', State.reset]⟩

/-- Also with a configuration write and a START to come. -/
theorem witness_LatchedConfigurationIsConstant :
    (rle8 2 1 [1]).busy = true ∧
    (nextOf (step { rle8 2 1 [1] with inputs := [.access (.write 4 0x08 7)] })).map (fun t => t.width) = some 0 ∧
    (nextOf (step { rle8 2 1 [1] with inputs := [.access (.write 4 0 1)] })).map (fun t => t.cfg.w) = some 2 := by
  decide

theorem witness_ParametersAreConstant :
    (nextOf (step { rle8 2 1 [1] with inputs := [.reset] })).map (fun t => t.params) = some testParams := by decide

theorem witness_LoadedPayloadHidesTheSource :
    (rle8 2 1 [2, 5]).phase = .rleDecode ∧ (at' .rleEmit (cfgOf 4 2 8 1 6)).phase = .rleEmit := by decide

theorem witness_RleDecodeEndsWithinItsBound :
    (rle8 2 1 [2, 5]).phase = .rleDecode ∧ (rle8 2 1 [2, 5]).inputs = [] ∧
    (nextOf (engineStep (rle8 2 1 [2, 5]))).map (fun t => (t.phase, t.ip)) = some (.rleDecode, 2) ∧
    (rle8 2 1 [2, 5]).ip ≤ (rle8 2 1 [2, 5]).p.length := by decide

/-- A run-length image, an uncompressed one and one that CHECK refuses. -/
theorem witness_EveryDecodeEnds :
    (StateInv (starting 4 2 8 1) ∧ (starting 4 2 8 1).StartsUndisturbed) ∧
    (StateInv (starting 4 2 8 0) ∧ (starting 4 2 8 0).StartsUndisturbed) ∧
    (StateInv (starting 0 2 8 0) ∧ (starting 0 2 8 0).StartsUndisturbed) :=
  ⟨⟨starting_inv _ _ _ _ (by decide) (by decide) (by decide) (by decide), starting_undisturbed _ _ _ _⟩,
    ⟨starting_inv _ _ _ _ (by decide) (by decide) (by decide) (by decide), starting_undisturbed _ _ _ _⟩,
    ⟨starting_inv _ _ _ _ (by decide) (by decide) (by decide) (by decide), starting_undisturbed _ _ _ _⟩⟩

/-- An image without rows and one of the largest row count (V62, V63). -/
theorem witness_EveryDecodeEmitsItsRowsInOrder :
    (StateInv (starting 4 0 8 0) ∧ (starting 4 0 8 0).StartsUndisturbed) ∧
    (StateInv (starting 1 (-2147483648) 8 0) ∧ (starting 1 (-2147483648) 8 0).StartsUndisturbed) :=
  ⟨⟨starting_inv _ _ _ _ (by decide) (by decide) (by decide) (by decide), starting_undisturbed _ _ _ _⟩,
    ⟨starting_inv _ _ _ _ (by decide) (by decide) (by decide) (by decide), starting_undisturbed _ _ _ _⟩⟩

end Sys2Proof.Tests
end

/-! PROOFS of the family 00_scope.md: the fault of R10, the parameters of R5 and the absence of stops (R103, R252). -/

namespace Sys2Proof.Machine

/-! ### A row too short for its pixels (R10) -/

theorem exec_swap24_of_short_row {s : State} (h : s.cfg.rowStride < 3 * s.cfg.pixels) :
    exec .swap24 s = .fault .outOfBounds :=
  if_neg (Nat.not_le.2 h)

theorem exec_compact32_of_short_row {s : State} (h : s.cfg.rowStride < 4 * s.cfg.pixels) :
    exec .compact32 s = .fault .outOfBounds :=
  if_neg (Nat.not_le.2 h)

/-- Settles O27: the bound a transform checks fails on such a row. -/
theorem transformOutsideTheRowFaults : Obligations.TransformOutsideTheRowFaults :=
  fun _ => ⟨exec_swap24_of_short_row, exec_compact32_of_short_row⟩

/-! ### The implementation parameters (R5)

What the shared operations without a lemma in Laws/State.lean do to them, then each kind of effect in turn. -/

@[simp] theorem putList_params (vs : List Byte) (s : State) : (putList vs s).params = s.params := by
  obtain ⟨idx, h, -⟩ := putList_spec vs s
  rw [h]

@[simp] theorem startDecode_params (s : State) : (startDecode s).params = s.params := by
  unfold startDecode; split <;> rfl

@[simp] theorem storeConfig_params (q : HostReg) (v : Word) (s : State) :
    (storeConfig q v s).params = s.params := by
  cases q <;> rfl

@[simp] theorem nextPhase_params (s : State) : (nextPhase s).params = s.params := by
  unfold nextPhase; split_ifs <;> rfl

@[simp] theorem accept_params (s : State) : (accept s).params = s.params :=
  nextPhase_params _

@[simp] theorem emitRgbRow_params (e : Bool) (s : State) : (emitRgbRow e s).params = s.params :=
  emitRow_params _ _ _ _ _

theorem RleEffect.params_eq {i : Instr} {s t : State} (h : RleEffect i s t) : t.params = s.params := by
  cases h with
  | writes _ _ _ _ ht => simp [ht]
  | moves _ _ _ ht => simp [ht]
  | stops _ _ _ ht => simp [ht]

theorem EngineEffect.params_eq {s t : State} (h : EngineEffect s t) : t.params = s.params := by
  cases h with
  | rests _ ht => rw [ht]
  | fails _ _ _ ht => simp [ht]
  | accepts _ _ ht => simp [ht]
  | loads _ _ _ _ _ _ ht => simp [ht]
  | stops _ _ _ _ _ ht => simp [ht]
  | executes _ _ _ _ _ _ hr => simpa using hr.params_eq
  | waits _ _ ht => rw [ht]
  | emitsSlice _ _ ht => simp [ht]
  | emitsRow _ e _ _ _ ht => cases e <;> simp [ht]

theorem HostEffect.params_eq {a : HostAccess} {s t : State} (h : HostEffect a s t) : t.params = s.params := by
  cases h with
  | starts _ _ _ _ ht => simp [ht]
  | stores _ _ _ _ _ _ ht => simp [ht]
  | ignored ht => rw [ht]
  | reads _ ht => rw [ht]

/-- Settles O53, by everything a step can do. -/
theorem parametersAreConstant : Obligations.ParametersAreConstant := by
  intro s t h
  cases step_effect h with
  | engine _ _ he => exact he.params_eq
  | access _ _ _ he => exact he.params_eq
  | reset _ _ ht => simp [ht]
  | srcWrite _ _ _ _ ht => simp [ht]
  | sink _ _ _ ht => rw [ht]

/-! ### No step stops (R10, R103, R252)

An engine step can stop in three phases only. RLE_LOAD needs a compression with a mode, RLE_EMIT and RGB_ROW need a row
left to emit, and RGB_ROW needs a depth with a transform whose pixels fit the row. CHECK has seen to the compression
and the depth. -/

theorem legal_depth_of_check {q : Params} {c : Latched} (h : checkError q c = none) :
    c.bpp = 1 ∨ c.bpp = 4 ∨ c.bpp = 8 ∨ c.bpp = 16 ∨ c.bpp = 24 ∨ c.bpp = 32 := by
  by_contra hb
  rw [checkError, if_pos hb] at h
  cases h

theorem legal_compression_of_check {q : Params} {c : Latched} (h : checkError q c = none) :
    c.comp = 0 ∨ c.comp = 1 ∨ c.comp = 2 := by
  by_contra hc
  rw [checkError, if_neg (not_not.2 (legal_depth_of_check h)), if_pos hc] at h
  cases h

/-- An accepted depth selects a transform (R201, R225). -/
theorem decodeDepth_of_check {q : Params} {c : Latched} (h : checkError q c = none) :
    ∃ i, decodeDepth c.bpp = .ok i := by
  rcases legal_depth_of_check h with hb | hb | hb | hb | hb | hb <;> rw [hb] <;> exact ⟨_, rfl⟩

/-- An accepted compression of the run-length path selects a mode (R120, R225). -/
theorem modeOf_of_check {q : Params} {c : Latched} (h : checkError q c = none) (h0 : c.comp ≠ 0) :
    ∃ m, modeOf c.comp = some m := by
  rcases legal_compression_of_check h with hc | hc | hc
  · exact absurd hc h0
  · exact ⟨.rle8, by rw [hc]; rfl⟩
  · exact ⟨.rle4, by rw [hc]; rfl⟩

/-- The transform of the latched depth finds its pixels inside the row (R172, R200). -/
theorem exec_latched_depth {s : State} {i : Instr} (h : decodeDepth s.cfg.bpp = .ok i) :
    ∃ row, exec i s = .next { s with row := row } := by
  rcases exec_depth h s with ⟨row, hx, -⟩ | ⟨-, hb, hlt⟩ | ⟨-, hb, hlt⟩
  · exact ⟨row, hx⟩
  · exact absurd (three_pixels_le_stride hb) (Nat.not_le.2 hlt)
  · exact absurd (four_pixels_le_stride hb) (Nat.not_le.2 hlt)

@[simp] theorem readRow_cfg (s : State) : (readRow s).1.cfg = s.cfg := by
  obtain ⟨bytes, h⟩ := readRow_cases s
  rw [h]; split <;> simp

theorem rleLoadStep_next {s : State} (h : ∃ m, modeOf s.cfg.comp = some m) : ∃ t, rleLoadStep s = .next t := by
  obtain ⟨m, hm⟩ := h
  simp [rleLoadStep, hm]

/-- The head of the decode loop and every command answer a next state, whatever the payload (R103). -/
theorem rleDecodeStep_next (s : State) : ∃ t, rleDecodeStep s = .next t := by
  unfold rleDecodeStep
  split
  · exact ⟨_, rfl⟩
  · split
    · rename_i hf
      obtain ⟨t, ht, -⟩ := exec_rle (decode_isRle hf).1 (consume 2 s)
      exact ⟨t, ht⟩
    · exact ⟨_, rfl⟩
    · exact ⟨_, rfl⟩

theorem rleEmitStep_next {s : State} (hr : s.r < s.cfg.rowCount) : ∃ t, rleEmitStep s = .next t := by
  unfold rleEmitStep
  rw [if_pos hr]
  split <;> exact ⟨_, rfl⟩

theorem rgbRowStep_next {s : State} (hr : s.r < s.cfg.rowCount) (hd : ∃ i, decodeDepth s.cfg.bpp = .ok i) :
    ∃ t, rgbRowStep s = .next t := by
  obtain ⟨i, hi⟩ := hd
  obtain ⟨row, hx⟩ := exec_latched_depth (s := (readRow s).1) (by simpa using hi)
  unfold rgbRowStep
  simp only [if_pos hr, hi, hx]
  split <;> exact ⟨_, rfl⟩

theorem engineStep_next {s : State} (h : StateInv s) : ∃ t, engineStep s = .next t := by
  unfold engineStep
  cases hp : s.phase with
  | idle => exact ⟨_, rfl⟩
  | check => exact ⟨_, rfl⟩
  | rleLoad => exact rleLoadStep_next (modeOf_of_check (h.checked (by rw [hp]; rfl)) (h.rlePath (.inl hp)))
  | rleDecode => exact rleDecodeStep_next s
  | rleEmit => exact rleEmitStep_next (h.emitRowLeft hp)
  | rgbRow => exact rgbRowStep_next (h.rgbPath hp).2 (decodeDepth_of_check (h.checked (by rw [hp]; rfl)))
  | done => exact ⟨_, rfl⟩
  | error => exact ⟨_, rfl⟩

/-- The invariant does not speak of the inputs to come. -/
theorem StateInv.with_inputs {s : State} (h : StateInv s) (rest : List Input) :
    StateInv { s with inputs := rest } :=
  { h with }

theorem inputStep_next {s : State} (h : StateInv s) (e : Input) : ∃ t, inputStep e s = .next t := by
  cases e with
  | engine => exact engineStep_next h
  | access a =>
    obtain ⟨t, ht, -⟩ := exec_access a s
    exact ⟨t, ht⟩
  | reset => exact ⟨_, rfl⟩
  | srcWrite a b => exact ⟨_, rfl⟩
  | sink ready => exact ⟨_, rfl⟩

/-- Settles O48: the invariant rules out the engine's three stops, and no other input can stop. -/
theorem noStepStops : Obligations.NoStepStops := by
  intro s h
  unfold step machineStep
  cases s.inputs with
  | nil => exact engineStep_next h
  | cons e rest => exact inputStep_next (h.with_inputs rest) e

end Sys2Proof.Machine

/-! PROOFS of the family 10_state.md: the unread state (R51, R52), `ip` and `op` (R31, R32), the engine at rest (R33),
reads while BUSY (R53), STATUS (R23), reset (R52) and the latched configuration (R34). -/

namespace Sys2Proof

/-- The command decoded and the bytes left over are all the bytes (R93, R98, R99). -/
theorem encodeBytes_append_of_decode {u : AbsUnit} {m : Mode} {bytes rest : List Byte} {i : Instr}
    (h : decode u m bytes = .ok (i, rest)) : encodeBytes i ++ rest = bytes := by
  match bytes, h with
  | b0 :: b1 :: r, h =>
    simp only [decode, Except.ok.injEq] at h
    rcases pair_cases b0 b1 with h0 | ⟨rfl, rfl⟩ | ⟨rfl, rfl⟩ | ⟨rfl, rfl⟩ | ⟨rfl, h1⟩
    · cases m with
      | rle8 => rw [decodePair_rle8_run u h0] at h; cases h; rfl
      | rle4 => rw [decodePair_rle4_run u h0] at h; cases h; rfl
    · rw [decodePair_eol] at h; cases h; rfl
    · rw [decodePair_eob] at h; cases h; rfl
    · match r, h with
      | [], h => cases h; rfl
      | [_], h => cases h; rfl
      | _ :: _ :: _, h => cases h; rfl
    · cases m with
      | rle8 =>
        rw [decodePair_abs8 u h1] at h; cases h
        simp [encodeBytes, encode, Code.bytes, takeAbsOperands_append]
      | rle4 =>
        rw [decodePair_abs4 u h1] at h; cases h
        simp [encodeBytes, encode, Code.bytes, takeAbsOperands_append]

namespace Machine

/-! ### What `putList` keeps -/

@[simp] theorem putList_phase (vs : List Byte) (s : State) : (putList vs s).phase = s.phase := by
  obtain ⟨idx, h, -⟩ := putList_spec vs s
  rw [h]

@[simp] theorem putList_ip (vs : List Byte) (s : State) : (putList vs s).ip = s.ip := by
  obtain ⟨idx, h, -⟩ := putList_spec vs s
  rw [h]

@[simp] theorem putList_p (vs : List Byte) (s : State) : (putList vs s).p = s.p := by
  obtain ⟨idx, h, -⟩ := putList_spec vs s
  rw [h]

theorem op_le_putList (vs : List Byte) (s : State) : s.op ≤ (putList vs s).op := by
  obtain ⟨idx, h, -⟩ := putList_spec vs s
  rw [h]
  exact Nat.le_add_right _ _

/-! ### The unread state (R51, R52)

A step from `s.forget` does what a step from `s` does, up to what is forgotten after it. First what forgetting keeps and
which updates it commutes with, then the host's accesses, then the engine phase by phase. -/

/-- Forgetting touches nothing but the latched configuration, the engine variables and the buffers. -/
theorem forget_frame (s : State) : ∃ cfg mode ip op r p idx row, s.forget =
    { s with cfg := cfg, mode := mode, ip := ip, op := op, r := r, p := p, idx := idx, row := row } := by
  unfold State.forget
  split <;> exact ⟨_, _, _, _, _, _, _, _, rfl⟩

@[simp] theorem forget_phase (s : State) : s.forget.phase = s.phase := by
  obtain ⟨_, _, _, _, _, _, _, _, h⟩ := forget_frame s
  rw [h]

@[simp] theorem forget_busy (s : State) : s.forget.busy = s.busy := by
  simp only [State.busy, forget_phase]

@[simp] theorem forget_inputs (s : State) : s.forget.inputs = s.inputs := by
  obtain ⟨_, _, _, _, _, _, _, _, h⟩ := forget_frame s
  rw [h]

@[simp] theorem forget_draws (s : State) : s.forget.draws = s.draws := by
  obtain ⟨_, _, _, _, _, _, _, _, h⟩ := forget_frame s
  rw [h]

@[simp] theorem forget_forget (s : State) : s.forget.forget = s.forget := by
  cases hp : s.phase <;> simp only [State.forget, hp]

theorem onNext_forget_forget (o : Host.Outcome State Fault Refusal) :
    onNext State.forget (onNext State.forget o) = onNext State.forget o := by
  cases o with
  | next s => exact congrArg Host.Outcome.next (forget_forget s)
  | fault _ => rfl
  | refused _ => rfl

theorem forget_with_inputs (s : State) (rest : List Input) :
    ({ s with inputs := rest } : State).forget = { s.forget with inputs := rest } := by
  cases hp : s.phase <;> simp only [State.forget, hp]

theorem forget_with_sinkReady (s : State) (ready : Bool) :
    ({ s with sinkReady := ready } : State).forget = { s.forget with sinkReady := ready } := by
  cases hp : s.phase <;> simp only [State.forget, hp]

theorem forget_with_read (s : State) (data : List Byte) (n : Nat) :
    ({ s with readData := data, draws := n } : State).forget =
      { s.forget with readData := data, draws := n } := by
  cases hp : s.phase <;> simp only [State.forget, hp]

theorem forget_hostWritesSource (a : Nat) (b : Byte) (s : State) :
    (hostWritesSource a b s).forget = hostWritesSource a b s.forget := by
  cases hp : s.phase <;> simp only [State.forget, hostWritesSource, State.busy, hp]

theorem forget_storeConfig (q : HostReg) (v : Word) (s : State) :
    (storeConfig q v s).forget = storeConfig q v s.forget := by
  cases hp : s.phase <;> cases q <;> simp only [State.forget, storeConfig, hp]

/-! ### The host's accesses and reset -/

theorem applyReset_forget (s : State) : applyReset s.forget = applyReset s := by
  obtain ⟨_, _, _, _, _, _, _, _, h⟩ := forget_frame s
  rw [h]; rfl

theorem startDecode_forget (s : State) : (startDecode s.forget).forget = (startDecode s).forget := by
  cases hb : s.busy with
  | true => rw [startDecode_of_busy hb, startDecode_of_busy (by rwa [forget_busy]), forget_forget]
  | false =>
    obtain ⟨_, _, _, _, _, _, _, _, h⟩ := forget_frame s
    have hb' := (forget_busy s).trans hb
    unfold startDecode
    rw [hb, hb', h]
    rfl

theorem regRead_forget (s : State) (q : HostReg) : regRead s.forget q = regRead s q := by
  obtain ⟨_, _, _, _, _, _, _, _, h⟩ := forget_frame s
  rw [h]; rfl

theorem writeReg_forget (q : HostReg) (v : Word) (s : State) :
    (writeReg q v s.forget).forget = (writeReg q v s).forget := by
  unfold writeReg
  rw [forget_busy]
  split_ifs
  · exact startDecode_forget s
  · exact forget_forget s
  · exact forget_forget s
  · rw [← forget_storeConfig, forget_forget]

theorem execRegWrite_forget (w : Nat) (off : BitVec 8) (v : Word) (s : State) :
    onNext State.forget (execRegWrite w off v s.forget) = onNext State.forget (execRegWrite w off v s) := by
  unfold execRegWrite
  split
  · split
    · exact congrArg Host.Outcome.next (writeReg_forget _ v s)
    · exact congrArg Host.Outcome.next (forget_forget s)
  · exact congrArg Host.Outcome.next (forget_forget s)

/-- A read answers the same and leaves the forgotten parts alone. -/
theorem execRegRead_forget (w : Nat) (off : BitVec 8) (s : State) :
    execRegRead w off s.forget = onNext State.forget (execRegRead w off s) := by
  simp only [execRegRead, regRead_forget, forget_draws]
  split
  · split <;> exact congrArg Host.Outcome.next (forget_with_read s _ _).symm
  · exact congrArg Host.Outcome.next (forget_with_read s _ _).symm

theorem exec_access_forget (a : HostAccess) (s : State) :
    onNext State.forget (exec (decodeAccess a) s.forget) = onNext State.forget (exec (decodeAccess a) s) := by
  cases a with
  | write w off v =>
    simp only [decodeAccess]
    split_ifs
    · exact congrArg Host.Outcome.next (startDecode_forget s)
    · exact execRegWrite_forget w off v s
  | read w off =>
    exact (congrArg _ (execRegRead_forget w off s)).trans (onNext_forget_forget _)

/-! ### CHECK and RLE_LOAD -/

theorem forget_before_load {s : State} (hp : s.phase = .check ∨ s.phase = .rleLoad) :
    s.forget = { s with mode := .rle8, ip := 0, op := 0, r := 0, p := [], idx := [], row := [] } := by
  rcases hp with hp | hp <;> simp only [State.forget, hp]

theorem checkStep_forget {s : State} (hp : s.phase = .check) :
    (checkStep s.forget).forget = (checkStep s).forget := by
  rw [forget_before_load (.inl hp)]
  simp only [checkStep]
  split
  · rfl
  · unfold accept nextPhase
    simp only
    split_ifs <;> rfl

theorem rleLoadStep_forget {s : State} (hp : s.phase = .rleLoad) :
    onNext State.forget (rleLoadStep s.forget) = onNext State.forget (rleLoadStep s) := by
  rw [forget_before_load (.inr hp)]
  unfold rleLoadStep
  simp only
  split <;> rfl

/-! ### RLE_DECODE -/

theorem forget_of_rleDecode {s : State} (hp : s.phase = .rleDecode) : s.forget = { s with r := 0, row := [] } := by
  simp only [State.forget, hp]

theorem put_forget {s : State} (hp : s.phase = .rleDecode) (v : Byte) : put v s.forget = (put v s).forget := by
  rw [forget_of_rleDecode hp, forget_of_rleDecode (put_phase v s ▸ hp)]; rfl

theorem consume_forget {s : State} (hp : s.phase = .rleDecode) (k : Nat) :
    consume k s.forget = (consume k s).forget := by
  rw [forget_of_rleDecode hp, forget_of_rleDecode (consume_phase k s ▸ hp)]; rfl

theorem full_forget {s : State} (hp : s.phase = .rleDecode) : s.forget.full = s.full := by
  rw [forget_of_rleDecode hp]; rfl

theorem fits_forget {s : State} (hp : s.phase = .rleDecode) (n : Nat) : fits n s.forget = fits n s := by
  rw [forget_of_rleDecode hp]; rfl

theorem putList_forget {s : State} (hp : s.phase = .rleDecode) (vs : List Byte) :
    putList vs s.forget = (putList vs s).forget := by
  induction vs generalizing s with
  | nil => rfl
  | cons v vs ih =>
    rw [putList, putList, full_forget hp, put_forget hp]
    split
    · rfl
    · exact ih hp

/-- A stop clears the row counter (R136), and ROW is unread in both phases it leads to. -/
theorem stop_forget {s : State} (hp : s.phase = .rleDecode) (e : RleEnd) :
    (stop e s.forget).forget = (stop e s).forget := by
  rw [forget_of_rleDecode hp]
  unfold stop finish
  split_ifs <;> rfl

theorem consumePad_forget {s : State} (hp : s.phase = .rleDecode) (m : Nat) (pad : Option Byte) :
    consumePad m pad s.forget = (consumePad m pad s).forget := by
  unfold consumePad
  split
  · exact consume_forget hp 1
  · rfl

theorem abs8Loop_forget {s : State} (hp : s.phase = .rleDecode) (n : Nat) (lits : List Byte) :
    abs8Loop n lits s.forget = ((abs8Loop n lits s).1.forget, (abs8Loop n lits s).2) := by
  rw [abs8Loop_eq, abs8Loop_eq, fits_forget hp, putList_forget hp, consume_forget (by rwa [putList_phase])]

theorem abs4Loop_forget {s : State} (hp : s.phase = .rleDecode) (n : Nat) (lits : List Byte) :
    abs4Loop n lits s.forget = ((abs4Loop n lits s).1.forget, (abs4Loop n lits s).2) := by
  rw [abs4Loop_eq, abs4Loop_eq, fits_forget hp, putList_forget hp, consume_forget (by rwa [putList_phase])]

theorem abs8Loop_phase (n : Nat) (lits : List Byte) (s : State) : (abs8Loop n lits s).1.phase = s.phase := by
  simp [abs8Loop_eq]

theorem abs4Loop_phase (n : Nat) (lits : List Byte) (s : State) : (abs4Loop n lits s).1.phase = s.phase := by
  simp [abs4Loop_eq]

theorem execAbs8_forget {s : State} (hp : s.phase = .rleDecode) (n : Byte) (lits : List Byte) (pad : Option Byte) :
    execAbs8 n lits pad s.forget = onNext State.forget (execAbs8 n lits pad s) := by
  simp only [execAbs8, abs8Loop_forget hp, consumePad_forget ((abs8Loop_phase _ _ s).trans hp), onNext]
  split <;> rfl

theorem execAbs4_forget {s : State} (hp : s.phase = .rleDecode) (n : Byte) (lits : List Byte) (pad : Option Byte) :
    execAbs4 n lits pad s.forget = onNext State.forget (execAbs4 n lits pad s) := by
  have hq : s.forget.params = s.params := by rw [forget_of_rleDecode hp]
  simp only [execAbs4, hq, abs4Loop_forget hp, consumePad_forget ((abs4Loop_phase _ _ s).trans hp), onNext]
  split <;> rfl

theorem execDelta_forget {s : State} (hp : s.phase = .rleDecode) (d : Option (Byte × Byte)) :
    onNext State.forget (execDelta d s.forget) = onNext State.forget (execDelta d s) := by
  cases d with
  | none => exact congrArg Host.Outcome.next (stop_forget hp .inEnd)
  | some d =>
    rw [forget_of_rleDecode hp]
    simp only [execDelta, onNext, State.forget, consume_phase, hp]
    rfl

/-- No RLE command reads the row counter or ROW. -/
theorem exec_rle_forget {i : Instr} (hi : Instr.isRle i = true) {s : State} (hp : s.phase = .rleDecode) :
    onNext State.forget (exec i s.forget) = onNext State.forget (exec i s) := by
  cases i with
  | run8 n v =>
    simp only [exec, execRun8, run8Loop_eq, putList_forget hp, onNext, forget_forget]
  | run4 n v =>
    have hq : s.forget.params = s.params := by rw [forget_of_rleDecode hp]
    simp only [exec, execRun4, hq, run4Loop_eq, putList_forget hp, onNext, forget_forget]
  | eol => exact congrArg Host.Outcome.next (forget_forget s)
  | eob => exact congrArg Host.Outcome.next (stop_forget hp .eob)
  | delta d => exact execDelta_forget hp d
  | abs8 n lits pad => exact (congrArg _ (execAbs8_forget hp n lits pad)).trans (onNext_forget_forget _)
  | abs4 n lits pad => exact (congrArg _ (execAbs4_forget hp n lits pad)).trans (onNext_forget_forget _)
  | pass1 => cases hi
  | pass4 => cases hi
  | pass8 => cases hi
  | pass16 => cases hi
  | swap24 => cases hi
  | compact32 => cases hi
  | start hi' => cases hi
  | regWrite w off v => cases hi
  | regRead w off => cases hi

theorem fetch_forget {s : State} (hp : s.phase = .rleDecode) : fetch s.forget = fetch s := by
  rw [forget_of_rleDecode hp]; rfl

theorem rleDecodeStep_forget {s : State} (hp : s.phase = .rleDecode) :
    onNext State.forget (rleDecodeStep s.forget) = onNext State.forget (rleDecodeStep s) := by
  simp only [rleDecodeStep, full_forget hp, fetch_forget hp, consume_forget hp]
  split
  · exact congrArg Host.Outcome.next (stop_forget hp .outFull)
  · split
    · rename_i hf
      exact exec_rle_forget (decode_isRle hf).1 hp
    · exact congrArg Host.Outcome.next (stop_forget (s := consume 1 s) hp .inEnd)
    · exact congrArg Host.Outcome.next (stop_forget hp .inEnd)

/-! ### RLE_EMIT -/

theorem rleEmitStep_forget {s : State} (hp : s.phase = .rleEmit) :
    onNext State.forget (rleEmitStep s.forget) = onNext State.forget (rleEmitStep s) := by
  have hf : s.forget = { s with mode := .rle8, ip := 0, op := 0, p := [], row := [] } := by
    simp only [State.forget, hp]
  rw [hf]
  simp only [rleEmitStep]
  split
  · split
    · simp only [onNext, State.forget, emitRow_phase, hp]
      split_ifs <;> rfl
    · rfl
  · simp only [onNext, State.forget, hp]

/-! ### RGB_ROW -/

/-- `s` without the variables of the run-length path. -/
def State.withoutRle (s : State) : State := { s with mode := .rle8, ip := 0, op := 0, p := [], idx := [] }

theorem forget_withoutRle {s : State} (hp : s.phase = .rgbRow ∨ s.phase = .done) :
    s.withoutRle.forget = s.forget := by
  rcases hp with hp | hp <;> simp only [State.forget, State.withoutRle, hp]

/-- The row read replaces ROW, so only the run-length variables still differ after it (R67, R176). -/
theorem readRow_forget {s : State} (hp : s.phase = .rgbRow) :
    readRow s.forget = ((readRow s).1.withoutRle, (readRow s).2) := by
  have hf : s.forget = { s.withoutRle with row := [] } := by simp only [State.forget, State.withoutRle, hp]
  rw [hf]
  refine Prod.ext ?_ rfl
  change (if (readRow s).2 = true then _ else _) = State.withoutRle (if (readRow s).2 = true then _ else _)
  split <;> rfl

theorem exec_swap24_of_long_row {s : State} (h : 3 * s.cfg.pixels ≤ s.cfg.rowStride) :
    exec .swap24 s = .next { s with row := swapPixels s.cfg.pixels s.row } :=
  if_pos h

theorem exec_swap24_withoutRle (s : State) :
    exec .swap24 s.withoutRle = onNext State.withoutRle (exec .swap24 s) := by
  rcases Nat.lt_or_ge s.cfg.rowStride (3 * s.cfg.pixels) with h | h
  · rw [exec_swap24_of_short_row h, exec_swap24_of_short_row (s := s.withoutRle) h]; rfl
  · rw [exec_swap24_of_long_row h, exec_swap24_of_long_row (s := s.withoutRle) h]; rfl

theorem exec_compact32_of_long_row {s : State} (h : 4 * s.cfg.pixels ≤ s.cfg.rowStride) :
    exec .compact32 s = .next { s with row := compactPixels s.cfg.pixels s.row } :=
  if_pos h

theorem exec_compact32_withoutRle (s : State) :
    exec .compact32 s.withoutRle = onNext State.withoutRle (exec .compact32 s) := by
  rcases Nat.lt_or_ge s.cfg.rowStride (4 * s.cfg.pixels) with h | h
  · rw [exec_compact32_of_short_row h, exec_compact32_of_short_row (s := s.withoutRle) h]; rfl
  · rw [exec_compact32_of_long_row h, exec_compact32_of_long_row (s := s.withoutRle) h]; rfl

/-- No row transform reads the variables of the run-length path (R200). -/
theorem exec_depth_withoutRle {bpp : BitVec 16} {i : Instr} (h : decodeDepth bpp = .ok i) (s : State) :
    exec i s.withoutRle = onNext State.withoutRle (exec i s) := by
  unfold decodeDepth at h
  split_ifs at h <;> cases h
  · rfl
  · rfl
  · rfl
  · rfl
  · exact exec_swap24_withoutRle s
  · exact exec_compact32_withoutRle s

theorem forget_emitRgbRow_withoutRle {s : State} (hp : s.phase = .rgbRow) (e : Bool) :
    (emitRgbRow e s.withoutRle).forget = (emitRgbRow e s).forget := by
  change (emitRgbRow e s).withoutRle.forget = _
  refine forget_withoutRle ?_
  simp only [emitRgbRow, emitRow_phase]
  split
  · exact .inr rfl
  · exact .inl hp

@[simp] theorem readRow_phase (s : State) : (readRow s).1.phase = s.phase := by
  obtain ⟨bytes, h⟩ := readRow_cases s
  rw [h]; split <;> simp

theorem rgbRowStep_forget {s : State} (hp : s.phase = .rgbRow) :
    onNext State.forget (rgbRowStep s.forget) = onNext State.forget (rgbRowStep s) := by
  have hs : s.forget.sinkReady = s.sinkReady ∧ s.forget.r = s.r ∧ s.forget.cfg = s.cfg := by
    simp only [State.forget, hp, and_self]
  obtain ⟨hready, hr, hcfg⟩ := hs
  simp only [rgbRowStep, hready, hr, hcfg, readRow_forget hp]
  split
  · split
    · split
      · rename_i i hi
        rw [exec_depth_withoutRle hi]
        rcases exec_depth hi (readRow s).1 with ⟨row, hx, -⟩ | ⟨hx, -⟩ | ⟨hx, -⟩
        · have ht : ({ (readRow s).1 with row := row } : State).phase = .rgbRow := (readRow_phase s).trans hp
          rw [hx]
          exact congrArg Host.Outcome.next (forget_emitRgbRow_withoutRle ht _)
        · rw [hx]; rfl
        · rw [hx]; rfl
      · rfl
    · rfl
  · exact congrArg Host.Outcome.next (forget_forget s)

/-! ### Every step -/

theorem engineStep_forget (s : State) :
    onNext State.forget (engineStep s.forget) = onNext State.forget (engineStep s) := by
  unfold engineStep
  rw [forget_phase]
  cases hp : s.phase with
  | idle => exact congrArg Host.Outcome.next (forget_forget s)
  | check => exact congrArg Host.Outcome.next (checkStep_forget hp)
  | rleLoad => exact rleLoadStep_forget hp
  | rleDecode => exact rleDecodeStep_forget hp
  | rleEmit => exact rleEmitStep_forget hp
  | rgbRow => exact rgbRowStep_forget hp
  | done => exact congrArg Host.Outcome.next (forget_forget s)
  | error => exact congrArg Host.Outcome.next (forget_forget s)

theorem inputStep_forget (e : Input) (s : State) :
    onNext State.forget (inputStep e s.forget) = onNext State.forget (inputStep e s) := by
  cases e with
  | engine => exact engineStep_forget s
  | access a => exact exec_access_forget a s
  | reset => exact congrArg (onNext State.forget ∘ Host.Outcome.next) (applyReset_forget s)
  | srcWrite a b =>
    simp only [inputStep, onNext, ← forget_hostWritesSource, forget_forget]
  | sink ready =>
    simp only [inputStep, onNext, ← forget_with_sinkReady, forget_forget]

/-- Settles O55: taking an input off commutes with forgetting, and no input and no phase of the engine reads what is
forgotten. -/
theorem hiddenStateIsNeverRead : Obligations.HiddenStateIsNeverRead := by
  intro s
  simp only [step, machineStep, forget_inputs]
  cases s.inputs with
  | nil => exact (engineStep_forget s).symm
  | cons e rest =>
    simp only [← forget_with_inputs]
    exact (inputStep_forget e _).symm

/-! ### `ip` and `op` in RLE_DECODE (R31, R32) -/

theorem length_encodeBytes_of_fetch {s : State} {i : Instr} {after : List Byte} (h : fetch s = .ok (i, after)) :
    (encodeBytes i).length ≤ s.p.length - s.ip := by
  have hl := congrArg List.length (encodeBytes_append_of_decode h)
  rw [List.length_append, List.length_drop] at hl
  omega

/-- An RLE command moves `ip` by at most its operand bytes, past the pair the head has consumed (R124). -/
theorem RleEffect.forward {i : Instr} {s t : State} (h : RleEffect i s t) :
    t.p = s.p ∧ s.op ≤ t.op ∧ s.ip ≤ t.ip ∧ t.ip + 2 ≤ s.ip + (encodeBytes i).length := by
  cases h with
  | writes vs k _ hk ht =>
    subst ht
    have hip : (consume k (putList vs s)).ip = s.ip + k := by simp
    exact ⟨putList_p vs s, op_le_putList vs s, by omega, by omega⟩
  | moves k d hk ht =>
    subst ht
    exact ⟨rfl, Nat.le_add_right _ _, Nat.le_add_right _ _, Nat.add_le_add_left hk s.ip⟩
  | stops e _ hk ht =>
    subst ht
    exact ⟨rfl, Nat.le_refl _, Nat.le_refl _, Nat.add_le_add_left hk s.ip⟩

/-- An RLE_DECODE step stops, with at most a lone `B0` consumed, or runs the command fetched (R123). -/
theorem rleDecode_effect {s t : State} (hp : s.phase = .rleDecode) (h : engineStep s = .next t) :
    (∃ e k, k ≤ s.p.length - s.ip ∧ t = stop e (consume k s)) ∨
      ∃ i after, fetch s = .ok (i, after) ∧ RleEffect i (consume 2 s) t := by
  cases engineStep_effect h with
  | stops e k _ _ hk ht => exact .inl ⟨e, k, hk, ht⟩
  | executes i after _ _ hi _ hr => exact .inr ⟨i, after, hi, hr⟩
  | rests hq => simp [hp] at hq
  | fails _ hq => simp [hp] at hq
  | accepts hq => simp [hp] at hq
  | loads _ _ _ hq => simp [hp] at hq
  | waits hq => simp [hp] at hq
  | emitsSlice hq => simp [hp] at hq
  | emitsRow _ _ hq => simp [hp] at hq

/-- Settles O19: a stop consumes at most a byte that is there, and a command the bytes it was decoded from. -/
theorem commandsMoveForwardWithinThePayload : Obligations.CommandsMoveForwardWithinThePayload := by
  intro s t hp hip hstep
  rcases rleDecode_effect hp hstep with ⟨e, k, hk, rfl⟩ | ⟨i, after, hi, hr⟩
  · have hle : s.ip + k ≤ s.p.length := by omega
    exact ⟨Nat.le_add_right _ _, hle, rfl, Nat.le_refl _⟩
  · have hlen := length_encodeBytes_of_fetch hi
    obtain ⟨hpay, hop, hle, hge⟩ := hr.forward
    simp only [consume_p, consume_op, consume_ip] at hpay hop hle hge
    rw [hpay]
    exact ⟨by omega, by omega, rfl, hop⟩

/-! ### Outside a decode (R33, R255) -/

theorem engineStep_of_not_busy {s : State} (h : s.busy = false) : engineStep s = .next s := by
  unfold engineStep
  cases hp : s.phase with
  | idle | done | error => rfl
  | check | rleLoad | rleDecode | rleEmit | rgbRow => exact absurd ((busy_iff s).2 (by simp [hp])) (by simp [h])

/-- Settles O37. -/
theorem engineRestsOutsideADecode : Obligations.EngineRestsOutsideADecode :=
  fun _ => engineStep_of_not_busy

/-! ### Reads while BUSY (R53) -/

theorem exec_regRead_aligned {off : BitVec 8} (h : off.toNat % 4 = 0) (s : State) :
    exec (.regRead 4 off) s = .next { s with
      readData := leBytes ((HostReg.ofOffset off).elim 0 (regRead s)), draws := s.draws + 1 } := by
  have ha : aligned32 4 off = true := by simp [aligned32, h]
  simp only [exec, execRegRead, if_pos ha]
  cases HostReg.ofOffset off <;> rfl

theorem regRead_status_of_busy {s : State} (h : s.busy = true) :
    regRead s .status = busyStatus (Config.busyRead s.draws) := by
  simp [regRead, h, HostReg.isResult]

theorem busyStatus_state (d : Word) : (busyStatus d).extractLsb' 0 2 = 1 := by
  rw [busyStatus, BitVec.extractLsb'_or, BitVec.extractLsb'_and]
  simp

theorem busyStatus_bit11 (d : Word) : (busyStatus d).getLsbD 11 = false := by
  rw [busyStatus, BitVec.getLsbD_or, BitVec.getLsbD_and]
  simp

theorem busyStatus_reserved (d : Word) : (busyStatus d).extractLsb' 14 18 = 0 := by
  simp [busyStatus, BitVec.extractLsb'_and, BitVec.extractLsb'_or]

/-- Settles O42. -/
theorem busyReadsReportOnlyState : Obligations.BusyReadsReportOnlyState := by
  intro s hb
  refine ⟨⟨_, exec_regRead_aligned (by decide) s, ?_⟩, fun off ha _ _ => ⟨_, exec_regRead_aligned ha s⟩⟩
  have hv : (HostReg.ofOffset 0x04).elim 0 (regRead s) = busyStatus (Config.busyRead s.draws) :=
    regRead_status_of_busy hb
  rw [hv]
  exact ⟨busyStatus_state _, busyStatus_bit11 _, busyStatus_reserved _⟩

/-! ### STATUS (R23) -/

theorem statusWord_state (s : State) : s.statusWord.extractLsb' 0 2 = s.phase.stateCode := by
  refine BitVec.eq_of_getLsbD_eq fun i hi => ?_
  rw [BitVec.getLsbD_extractLsb', getLsbD_statusWord, if_pos (by omega)]
  simp [hi]

theorem statusWord_path (s : State) : s.statusWord.extractLsb' 2 2 = s.path.code := by
  refine BitVec.eq_of_getLsbD_eq fun i hi => ?_
  rw [BitVec.getLsbD_extractLsb', getLsbD_statusWord, if_neg (by omega), if_pos (by omega)]
  simp [hi]

theorem statusWord_err (s : State) : s.statusWord.extractLsb' 4 4 = s.err.code := by
  refine BitVec.eq_of_getLsbD_eq fun i hi => ?_
  rw [BitVec.getLsbD_extractLsb', getLsbD_statusWord, if_neg (by omega), if_neg (by omega), if_pos (by omega)]
  simp [hi]

theorem getLsbD_statusWord_high (s : State) {i : Nat} (h : 12 ≤ i) :
    s.statusWord.getLsbD i = s.rleEnd.code.getLsbD (i - 12) := by
  rw [getLsbD_statusWord]
  repeat rw [if_neg (by omega)]

theorem statusWord_rleEnd (s : State) : s.statusWord.extractLsb' 12 2 = s.rleEnd.code := by
  refine BitVec.eq_of_getLsbD_eq fun i hi => ?_
  rw [BitVec.getLsbD_extractLsb', getLsbD_statusWord_high s (by omega)]
  simp [hi]

theorem statusWord_reserved (s : State) : s.statusWord.extractLsb' 14 18 = 0 := by
  refine BitVec.eq_of_getLsbD_eq fun i hi => ?_
  rw [BitVec.getLsbD_extractLsb', getLsbD_statusWord_high s (by omega)]
  simp [hi, BitVec.getLsbD_of_ge s.rleEnd.code (14 + i - 12) (by omega)]

theorem Phase.stateCode_eq (p : Phase) : p.stateCode =
    if p = .idle then 0 else if p = .done then 2 else if p = .error then 3 else 1 := by
  cases p <;> rfl

theorem Path.code_eq (p : Path) : p.code =
    if p = .none then 0 else if p = .rgb then 1 else if p = .rle8 then 2 else 3 := by
  cases p <;> rfl

theorem ErrCode.code_eq (e : ErrCode) : e.code =
    if e = .none then 0 else if e = .unsupportedBitDepth then 1
      else if e = .unsupportedCompression then 2 else if e = .invalidGeometry then 3
      else if e = .unsupportedCombination then 4 else 5 := by
  cases e <;> rfl

theorem RleEnd.code_eq (e : RleEnd) : e.code =
    if e = .none then 0 else if e = .eob then 1 else if e = .outFull then 2 else 3 := by
  cases e <;> rfl

theorem exec_regWrite_status (v : Word) (s : State) : exec (.regWrite 4 0x04 v) s = .next s := by
  change Host.Outcome.next (if s.busy = true then s else s) = .next s
  rw [ite_self]

/-- Settles O44. -/
theorem statusFieldsStandInPlace : Obligations.StatusFieldsStandInPlace := by
  intro s
  refine ⟨?_, ?_, ?_, ?_, ?_, ?_, ?_, ?_, statusWord_reserved s, fun v => exec_regWrite_status v s⟩
  · rw [statusWord_state, Phase.stateCode_eq]
  · rw [statusWord_path, Path.code_eq]
  · rw [statusWord_err, ErrCode.code_eq]
  · exact getLsbD_statusWord s 8
  · exact getLsbD_statusWord s 9
  · exact getLsbD_statusWord s 10
  · exact getLsbD_statusWord s 11
  · rw [statusWord_rleEnd, RleEnd.code_eq]

/-! ### Reset (R52, R270) -/

theorem step_of_reset {s : State} {rest : List Input} (h : s.inputs = .reset :: rest) :
    step s = .next (applyReset { s with inputs := rest }) := by
  simp only [step, machineStep, h, inputStep]

theorem statusWord_reset : State.reset.statusWord = 0 := by decide

theorem statusWord_applyReset (s : State) : (applyReset s).statusWord = 0 :=
  statusWord_reset

/-- Settles O45. -/
theorem resetGivesTheStatedValues : Obligations.ResetGivesTheStatedValues := by
  intro t h
  have hr : ∃ s, t = applyReset s := by
    rcases h with rfl | ⟨s, rest, hi, ht⟩
    · exact ⟨State.reset, rfl⟩
    · exact ⟨_, Host.Outcome.next.inj (ht.symm.trans (step_of_reset hi))⟩
  obtain ⟨s, rfl⟩ := hr
  exact ⟨statusWord_applyReset s, rfl, rfl, rfl, rfl, rfl, rfl, rfl, rfl, rfl, rfl, rfl, rfl, rfl, rfl, rfl, rfl,
    rfl⟩

/-! ### The configuration during a decode (R34, R221, R224) -/

/-- The latched configuration and the configuration registers of `s` are kept in `t`. -/
structure KeepsConfig (s t : State) : Prop where
  cfg        : t.cfg = s.cfg
  width      : t.width = s.width
  height     : t.height = s.height
  bpp        : t.bpp = s.bpp
  comp       : t.comp = s.comp
  dataOffset : t.dataOffset = s.dataOffset
  srcLen     : t.srcLen = s.srcLen

theorem KeepsConfig.refl (s : State) : KeepsConfig s s := ⟨rfl, rfl, rfl, rfl, rfl, rfl, rfl⟩

theorem putList_keepsConfig (vs : List Byte) (s : State) : KeepsConfig s (putList vs s) := by
  obtain ⟨idx, h, -⟩ := putList_spec vs s
  rw [h]
  exact ⟨rfl, rfl, rfl, rfl, rfl, rfl, rfl⟩

theorem nextPhase_keepsConfig (s : State) : KeepsConfig s (nextPhase s) := by
  unfold nextPhase
  split_ifs <;> exact ⟨rfl, rfl, rfl, rfl, rfl, rfl, rfl⟩

theorem RleEffect.keepsConfig {i : Instr} {s t : State} (h : RleEffect i s t) : KeepsConfig s t := by
  cases h with
  | writes vs _ _ _ ht => rw [ht]; exact { putList_keepsConfig vs s with }
  | moves _ _ _ ht => rw [ht]; exact { KeepsConfig.refl s with }
  | stops _ _ _ ht => rw [ht]; exact { KeepsConfig.refl s with }

/-- No engine step touches the configuration, latched or not. -/
theorem EngineEffect.keepsConfig {s t : State} (h : EngineEffect s t) : KeepsConfig s t := by
  cases h with
  | rests _ ht => rw [ht]; exact .refl s
  | fails _ _ _ ht => rw [ht]; exact { KeepsConfig.refl s with }
  | accepts _ _ ht => rw [ht]; exact { nextPhase_keepsConfig _ with }
  | loads _ _ _ _ _ _ ht => rw [ht]; exact { KeepsConfig.refl s with }
  | stops _ _ _ _ _ ht => rw [ht]; exact { KeepsConfig.refl s with }
  | executes _ _ _ _ _ _ hr => exact { hr.keepsConfig with }
  | waits _ _ ht => rw [ht]; exact .refl s
  | emitsSlice _ _ ht => rw [ht]; exact { KeepsConfig.refl s with }
  | emitsRow _ e _ _ _ ht => rw [ht]; cases e <;> exact { KeepsConfig.refl s with }

/-- While BUSY a host access touches the configuration neither (R221, R224). -/
theorem HostEffect.keepsConfig {a : HostAccess} {s t : State} (hb : s.busy = true) (h : HostEffect a s t) :
    KeepsConfig s t := by
  cases h with
  | starts _ _ _ hn => simp [hb] at hn
  | stores _ _ _ _ _ hn => simp [hb] at hn
  | ignored ht => rw [ht]; exact .refl s
  | reads _ ht => rw [ht]; exact { KeepsConfig.refl s with }

theorem step_keepsConfig {s t : State} (hb : s.busy = true) (h : step s = .next t)
    (hreset : ∀ rest, s.inputs ≠ .reset :: rest) : KeepsConfig s t := by
  cases step_effect h with
  | engine _ _ he => exact { he.keepsConfig with }
  | access _ rest _ he => exact { HostEffect.keepsConfig (s := { s with inputs := rest }) hb he with }
  | reset rest hi _ => exact absurd hi (hreset rest)
  | srcWrite _ _ _ _ ht => rw [ht]; exact { KeepsConfig.refl s with }
  | sink _ _ _ ht => rw [ht]; exact { KeepsConfig.refl s with }

/-- Settles O52. -/
theorem latchedConfigurationIsConstant : Obligations.LatchedConfigurationIsConstant := by
  intro s t hb hstep hreset
  obtain ⟨hcfg, hwidth, hheight, hbpp, hcomp, hoff, hlen⟩ := step_keepsConfig hb hstep hreset
  exact ⟨hcfg, hwidth, hheight, hbpp, hcomp, hoff, hlen⟩

end Machine

end Sys2Proof

/-! PROOFS of the family 20_memory.md: the byte source (R61 to R63), the payload snapshot (R64, R65), the register bytes
(R68), the sink (R69, R70) and the output trace (R78). -/

namespace Sys2Proof.Machine

/-! ### The engine's step by its phase (R33) -/

theorem engineStep_of_rleLoad {s : State} (hp : s.phase = .rleLoad) : engineStep s = rleLoadStep s := by
  simp only [engineStep, hp]

theorem engineStep_of_rleDecode {s : State} (hp : s.phase = .rleDecode) : engineStep s = rleDecodeStep s := by
  simp only [engineStep, hp]

theorem engineStep_of_rleEmit {s : State} (hp : s.phase = .rleEmit) : engineStep s = rleEmitStep s := by
  simp only [engineStep, hp]

theorem engineStep_of_rgbRow {s : State} (hp : s.phase = .rgbRow) : engineStep s = rgbRowStep s := by
  simp only [engineStep, hp]

/-! ### The byte source (R61, R62) -/

/-- Settles O21: what is delivered is at most `min n (srcLen - addr)` bytes. -/
theorem srcReadObeysItsLaws : Obligations.SrcReadObeysItsLaws := by
  intro s addr n
  have hlen := length_srcRead_le s addr n
  refine ⟨fun _ => by omega, fun _ _ => by omega, fun _ => List.eq_nil_of_length_eq_zero (by omega), fun j hj => ?_⟩
  refine ⟨by omega, fun hkept => ?_⟩
  rw [getD_srcRead s addr n j hj, srcByte_unchanged hkept]

theorem srcAnswer_of_ideal {s : State} (h : s.srcModel = .ideal) (avail : Nat) :
    srcAnswer s avail = (avail, false) := by
  simp only [srcAnswer, h]

/-- Settles O22. -/
theorem idealSourceDeliversAll : Obligations.IdealSourceDeliversAll := by
  intro s addr n h
  refine ⟨congrArg Prod.snd (srcAnswer_of_ideal h _), ?_, congrArg SourceModel.next h⟩
  rw [length_srcRead, srcAnswer_of_ideal h, srcAvail_eq]

/-! ### The host writes a source byte (R63, R273) -/

theorem step_of_srcWrite {s : State} {a : BitVec 32} {b : Byte} {rest : List Input}
    (h : s.inputs = .srcWrite a b :: rest) :
    step s = .next (hostWritesSource a.toNat b { s with inputs := rest }) := by
  simp only [step, machineStep, h, inputStep]

theorem hostWritesSource_srcChanged_of_not_busy {s : State} (hb : s.busy = false) (a : Nat) (b : Byte) :
    (hostWritesSource a b s).srcChanged = s.srcChanged := by
  simp [hostWritesSource, hb]

theorem mem_hostWritesSource_srcChanged {s : State} (hb : s.busy = true) (a : Nat) (b : Byte) (x : Nat) :
    x ∈ (hostWritesSource a b s).srcChanged ↔ x ∈ s.srcChanged ∨ (x = a ∧ s.src.read a ≠ b) := by
  by_cases hdiff : s.src.read a = b
  · simp [hostWritesSource, hdiff]
  · by_cases hmem : a ∈ s.srcChanged
    · have hx : x = a → x ∈ s.srcChanged := fun h => h ▸ hmem
      simpa [hostWritesSource, hb, hdiff, hmem] using hx
    · simp [hostWritesSource, hb, hdiff, hmem, or_comm]

/-- Settles O23: an address not remembered is another one than the written, or was given the byte it had. -/
theorem sourceWriteChangesOnlyTheSource : Obligations.SourceWriteChangesOnlyTheSource := by
  intro s a b rest h
  have hread := fun hwf => Memory.read_write (m := s.src) hwf a.toNat b
  refine ⟨s.src.write a.toNat b, (hostWritesSource a.toNat b s).srcChanged, step_of_srcWrite h,
    fun hb => mem_hostWritesSource_srcChanged hb a.toNat b, fun hb => hostWritesSource_srcChanged_of_not_busy hb _ _,
    fun hwf => ⟨Memory.wf_write hwf _ _, hread hwf, fun hb x hx => ?_⟩⟩
  rw [mem_hostWritesSource_srcChanged hb, not_or, not_and, not_not] at hx
  obtain ⟨-, hsame⟩ := hx
  rw [hread hwf]
  by_cases hxa : x = a.toNat
  · rw [if_pos hxa, hxa, hsame hxa]
  · rw [if_neg hxa]

/-! ### The payload snapshot (R64, R65, R122) -/

theorem modeOf_of_rle {comp : Word} (h : comp = 1 ∨ comp = 2) :
    modeOf comp = some (if comp = 1 then .rle8 else .rle4) := by
  rcases h with rfl | rfl <;> rfl

/-- Settles O20: the phase answers with an empty IDX. -/
theorem rleLoadTakesTheSnapshot : Obligations.RleLoadTakesTheSnapshot := by
  intro s n hp hc hn
  subst hn
  refine ⟨[], ?_, Memory.wf_nil, Memory.read_nil⟩
  rw [engineStep_of_rleLoad hp, rleLoadStep, modeOf_of_rle hc]
  rfl

/-! ### The source behind the snapshot (R64, R80, R181)

An engine step of RLE_DECODE or RLE_EMIT from `s.withSource …` is the step from `s` with the same source put back. -/

/-- `s` beside another byte source: other contents, changed addresses and answers. -/
def State.withSource (s : State) (src : Memory) (changed : List Nat) (model : SourceModel) : State :=
  { s with src := src, srcChanged := changed, srcModel := model }

section
variable (s : State) (src : Memory) (changed : List Nat) (model : SourceModel)

theorem full_withSource : (s.withSource src changed model).full = s.full := rfl

theorem put_withSource (v : Byte) :
    put v (s.withSource src changed model) = (put v s).withSource src changed model := rfl

theorem putList_withSource (vs : List Byte) :
    putList vs (s.withSource src changed model) = (putList vs s).withSource src changed model := by
  induction vs generalizing s with
  | nil => rfl
  | cons v vs ih =>
    rw [putList, putList, full_withSource, put_withSource, ih]
    split <;> rfl

theorem consumePad_withSource (m : Nat) (pad : Option Byte) :
    consumePad m pad (s.withSource src changed model) = (consumePad m pad s).withSource src changed model := by
  unfold consumePad
  split <;> rfl

theorem abs8Loop_withSource (n : Nat) (lits : List Byte) :
    abs8Loop n lits (s.withSource src changed model) =
      ((abs8Loop n lits s).1.withSource src changed model, (abs8Loop n lits s).2) := by
  rw [abs8Loop_eq, abs8Loop_eq, putList_withSource]; rfl

theorem abs4Loop_withSource (n : Nat) (lits : List Byte) :
    abs4Loop n lits (s.withSource src changed model) =
      ((abs4Loop n lits s).1.withSource src changed model, (abs4Loop n lits s).2) := by
  rw [abs4Loop_eq, abs4Loop_eq, putList_withSource]; rfl

/-- No RLE command reads the byte source or touches it. -/
theorem exec_rle_withSource {i : Instr} (hi : Instr.isRle i = true) :
    exec i (s.withSource src changed model) = onNext (State.withSource · src changed model) (exec i s) := by
  cases i with
  | run8 n v => simp only [exec, execRun8, run8Loop_eq, putList_withSource, onNext]
  | run4 n v =>
    simp only [exec, execRun4, run4Loop_eq, putList_withSource, onNext]; rfl
  | eol => rfl
  | eob => rfl
  | delta d => cases d <;> rfl
  | abs8 n lits pad =>
    simp only [exec, execAbs8, abs8Loop_withSource, consumePad_withSource, onNext]
    split <;> rfl
  | abs4 n lits pad =>
    have hq : (s.withSource src changed model).params = s.params := rfl
    simp only [exec, execAbs4, hq, abs4Loop_withSource, consumePad_withSource, onNext]
    split <;> rfl
  | pass1 | pass4 | pass8 | pass16 | swap24 | compact32 | start _ | regWrite _ _ _ | regRead _ _ => cases hi

theorem rleDecodeStep_withSource :
    rleDecodeStep (s.withSource src changed model) =
      onNext (State.withSource · src changed model) (rleDecodeStep s) := by
  have hfetch : fetch (s.withSource src changed model) = fetch s := rfl
  unfold rleDecodeStep
  rw [full_withSource, hfetch]
  split
  · rfl
  · split
    · rename_i hf
      exact exec_rle_withSource (consume 2 s) src changed model (decode_isRle hf).1
    · rfl
    · rfl

theorem rleEmitStep_withSource :
    rleEmitStep (s.withSource src changed model) =
      onNext (State.withSource · src changed model) (rleEmitStep s) := by
  have hready : (s.withSource src changed model).sinkReady = s.sinkReady := rfl
  have hr : (s.withSource src changed model).r = s.r := rfl
  have hcfg : (s.withSource src changed model).cfg = s.cfg := rfl
  simp only [rleEmitStep, hready, hr, hcfg]
  split_ifs <;> rfl

end

/-- Settles O54: the step of each of the two phases commutes with exchanging the source. -/
theorem loadedPayloadHidesTheSource : Obligations.LoadedPayloadHidesTheSource := by
  intro s src changed model hp
  change engineStep (s.withSource src changed model) = onNext (State.withSource · src changed model) (engineStep s)
  rcases hp with hp | hp
  · rw [engineStep_of_rleDecode hp, engineStep_of_rleDecode (s := s.withSource src changed model) hp]
    exact rleDecodeStep_withSource s src changed model
  · rw [engineStep_of_rleEmit hp, engineStep_of_rleEmit (s := s.withSource src changed model) hp]
    exact rleEmitStep_withSource s src changed model

/-! ### The register bytes (R68) -/

theorem aligned32_eq_false {w : Nat} {off : BitVec 8} (h : w ≠ 4 ∨ off.toNat % 4 ≠ 0) :
    aligned32 w off = false := by
  simpa [aligned32, ← imp_iff_not_or] using h

theorem extractLsb'_byte (v : Word) (j : Nat) : v.extractLsb' (8 * j) 8 = BitVec.ofNat 8 (v.toNat / 256 ^ j) := by
  rw [BitVec.extractLsb', Nat.shiftRight_eq_div_pow, Nat.pow_mul]

theorem getD_leBytes (v : Word) {j : Nat} (h : j < 4) : (leBytes v).getD j 0 = v.extractLsb' (8 * j) 8 := by
  match j, h with
  | 0, _ => rfl
  | 1, _ => rfl
  | 2, _ => rfl
  | 3, _ => rfl

/-- Settles O43. -/
theorem registerBytesAreLittleEndian : Obligations.RegisterBytesAreLittleEndian := by
  refine ⟨fun s w off h => ⟨fun v => ?_, ?_⟩, fun v j => ⟨rfl, fun hj => ?_⟩⟩
  · simp [exec, execRegWrite, aligned32_eq_false h]
  · simp [exec, execRegRead, aligned32_eq_false h]
  · rw [getD_leBytes v hj, extractLsb'_byte]

/-! ### The output trace (R69, R78, R271)

What keeps the trace, then the two steps that emit a row. -/

@[simp] theorem putList_trace (vs : List Byte) (s : State) : (putList vs s).trace = s.trace := by
  obtain ⟨idx, h, -⟩ := putList_spec vs s
  rw [h]

@[simp] theorem startDecode_trace (s : State) : (startDecode s).trace = s.trace := by
  unfold startDecode; split <;> rfl

@[simp] theorem storeConfig_trace (q : HostReg) (v : Word) (s : State) : (storeConfig q v s).trace = s.trace := by
  cases q <;> rfl

@[simp] theorem nextPhase_trace (s : State) : (nextPhase s).trace = s.trace := by
  unfold nextPhase; split_ifs <;> rfl

@[simp] theorem accept_trace (s : State) : (accept s).trace = s.trace :=
  nextPhase_trace _

theorem RleEffect.trace_eq {i : Instr} {s t : State} (h : RleEffect i s t) : t.trace = s.trace := by
  cases h with
  | writes _ _ _ _ ht => simp [ht]
  | moves _ _ _ ht => simp [ht]
  | stops _ _ _ ht => simp [ht]

theorem HostEffect.trace_eq {a : HostAccess} {s t : State} (h : HostEffect a s t) : t.trace = s.trace := by
  cases h with
  | starts _ _ _ _ ht => simp [ht]
  | stores _ _ _ _ _ _ ht => simp [ht]
  | ignored ht => rw [ht]
  | reads _ ht => rw [ht]

/-- `t` comes from `s`, in a row phase, by emitting the row `r` (R42, R48, R69). -/
structure EmitsNextRow (s t : State) : Prop where
  phase       : s.phase = .rgbRow ∨ s.phase = .rleEmit
  rowsEmitted : t.rowsEmitted = s.rowsEmitted + 1
  r           : t.r = s.r + 1
  trace       : ∃ e : EmitEvent, t.trace = s.trace ++ [e] ∧ e.row = BitVec.ofNat 32 s.r

theorem EngineEffect.keeps_trace_or_emits {s t : State} (h : EngineEffect s t) :
    t.trace = s.trace ∨ EmitsNextRow s t := by
  cases h with
  | rests _ ht => exact .inl (by rw [ht])
  | fails _ _ _ ht => exact .inl (by simp [ht])
  | accepts _ _ ht => exact .inl (by simp [ht])
  | loads _ _ _ _ _ _ ht => exact .inl (by simp [ht])
  | stops _ _ _ _ _ ht => exact .inl (by simp [ht])
  | executes _ _ _ _ _ _ hr => exact .inl (by simpa using hr.trace_eq)
  | waits _ _ ht => exact .inl (by rw [ht])
  | emitsSlice hp _ ht => subst ht; exact .inr ⟨.inr hp, rfl, rfl, _, rfl, rfl⟩
  | emitsRow _ e hp _ _ ht => subst ht; cases e <;> exact .inr ⟨.inl hp, rfl, rfl, _, rfl, rfl⟩

/-- Settles O50, by everything a step can do. -/
theorem traceGrowsByTheNextRowOnly : Obligations.TraceGrowsByTheNextRowOnly := by
  intro s t h
  cases step_effect h with
  | engine _ _ he =>
    rcases he.keeps_trace_or_emits with hkept | ⟨hp, hrows, hr, htrace⟩
    · exact .inl hkept
    · exact .inr ⟨hp, hrows, hr, htrace⟩
  | access _ _ _ he => exact .inl he.trace_eq
  | reset _ _ ht => exact .inl (by simp [ht])
  | srcWrite _ _ _ _ ht => exact .inl (by simp [ht])
  | sink _ _ _ ht => exact .inl (by rw [ht])

/-! ### Waiting for the sink (R70, R276) -/

theorem rgbRowStep_of_waiting {s : State} (h : s.sinkReady = false) : rgbRowStep s = .next s := by
  simp [rgbRowStep, h]

theorem rleEmitStep_of_waiting {s : State} (h : s.sinkReady = false) : rleEmitStep s = .next s := by
  simp [rleEmitStep, h]

/-- Settles O32. -/
theorem engineWaitsForTheSink : Obligations.EngineWaitsForTheSink := by
  intro s hs hp
  rcases hp with hp | hp
  · exact ⟨(engineStep_of_rgbRow hp).trans (rgbRowStep_of_waiting hs), (busy_iff s).2 (by simp [hp])⟩
  · exact ⟨(engineStep_of_rleEmit hp).trans (rleEmitStep_of_waiting hs), (busy_iff s).2 (by simp [hp])⟩

end Sys2Proof.Machine

/-! PROOFS of the family 30_encoding.md: the class of every opcode pair (R93, R98, R99) and the length of a complete
command (R102). -/

namespace Sys2Proof

/-! ### The class of a pair (R93) -/

/-- The literal byte count of an ABS4 in the words of R99. -/
theorem abs4LiteralBytes_eq (u : AbsUnit) (n : Nat) :
    abs4LiteralBytes u n = if u = .bytes then n else (n + 1) / 2 := by
  cases u <;> rfl

/-- Settles O3: the decoder's equation for each class of pairs. -/
theorem everyPairHasOneClass : Obligations.EveryPairHasOneClass := by
  intro u m b0 b1 after
  refine ⟨(decodePair u m b0 b1 after).1, (decodePair u m b0 b1 after).2, rfl, ?run8, ?run4, ?eol, ?eob, ?delta, ?cut,
    ?abs8, ?abs4⟩
  case run8 => rintro h0 rfl; rw [decodePair_rle8_run u h0]; exact ⟨rfl, rfl⟩
  case run4 => rintro h0 rfl; rw [decodePair_rle4_run u h0]; exact ⟨rfl, rfl⟩
  case eol => rintro rfl rfl; rw [decodePair_eol]; exact ⟨rfl, rfl⟩
  case eob => rintro rfl rfl; rw [decodePair_eob]; exact ⟨rfl, rfl⟩
  case delta => rintro rfl rfl dx dy tail rfl; rw [decodePair_delta]; exact ⟨rfl, rfl⟩
  case cut => rintro rfl rfl hlen; rw [decodePair_delta_cut u m hlen]; exact ⟨rfl, rfl⟩
  case abs8 =>
    rintro rfl h1 rfl n rfl
    rw [decodePair_abs8 u h1, takeAbsOperands_eq]
    exact ⟨rfl, rfl⟩
  case abs4 =>
    rintro rfl h1 rfl n rfl
    rw [decodePair_abs4 u h1, takeAbsOperands_eq, abs4LiteralBytes_eq]
    exact ⟨rfl, rfl⟩

/-! ### The length of a complete command (R102) -/

theorem absOperandsComplete_iff (n : Byte) (m : Nat) (lits : List Byte) (pad : Option Byte) :
    absOperandsComplete n m lits pad = true ↔
      3 ≤ n.toNat ∧ lits.length = m ∧ pad.isSome = (m % 2 == 1) := by
  simp [absOperandsComplete, and_assoc]

theorem length_encodeBytes_abs8 (n : Byte) (lits : List Byte) (pad : Option Byte) :
    (encodeBytes (.abs8 n lits pad)).length = lits.length + (padBytes pad).length + 2 := by
  simp [encodeBytes, encode, Code.bytes]

theorem length_encodeBytes_abs4 (n : Byte) (lits : List Byte) (pad : Option Byte) :
    (encodeBytes (.abs4 n lits pad)).length = lits.length + (padBytes pad).length + 2 := by
  simp [encodeBytes, encode, Code.bytes]

/-- A byte holds two indices: the literal bytes are the index count halved, rounded up (R99, R132). -/
theorem abs4LiteralBytes_eq_half_indices (u : AbsUnit) (n : Nat) :
    (Machine.abs4Indices u n + 1) / 2 = abs4LiteralBytes u n := by
  cases u with
  | bytes => simp only [Machine.abs4Indices, abs4LiteralBytes]; omega
  | pixels => rfl

namespace Machine

/-- In RLE_DECODE with room in the index buffer the fetched command runs, with `ip` past its pair (R123, R124). -/
theorem engineStep_of_fetch {s : State} {i : Instr} {after : List Byte} (hp : s.phase = .rleDecode)
    (hroom : s.op < s.cfg.size) (hf : fetch s = .ok (i, after)) : engineStep s = exec i (consume 2 s) := by
  have hnot : ¬ s.full = true := by rw [full_iff]; omega
  rw [engineStep_of_rleDecode hp, rleDecodeStep, if_neg hnot, hf]

theorem fits_of_room {n : Nat} {s : State} (h : s.op + n ≤ s.cfg.size) : fits n s = n := by
  unfold fits; omega

/-- The pad of a complete run is consumed whole (R133). -/
theorem consumePad_of_complete {m : Nat} {pad : Option Byte} (h : pad.isSome = (m % 2 == 1)) (s : State) :
    consumePad m pad s = consume (padBytes pad).length s := by
  cases pad with
  | none => exact consumePad_of_no_pad (by simp) s
  | some b => exact consumePad_of_pad ⟨by simpa using h.symm, rfl⟩ s

/-- ABS8 with complete operands and room for its count writes and consumes all of them (R131, R133). -/
theorem execAbs8_of_complete {n : Byte} {lits : List Byte} {pad : Option Byte} {s : State}
    (h : absOperandsComplete n n.toNat lits pad = true) (hroom : s.op + n.toNat ≤ s.cfg.size) :
    execAbs8 n lits pad s = .next (consume (lits.length + (padBytes pad).length) (putList lits s)) := by
  obtain ⟨-, hlen, hpad⟩ := (absOperandsComplete_iff ..).1 h
  have hfits : fits (min n.toNat lits.length) s = n.toNat := by
    rw [hlen, Nat.min_self]; exact fits_of_room hroom
  simp only [execAbs8, abs8Loop_eq, hfits, decide_true, if_true, consumePad_of_complete hpad, consume_consume,
    List.take_of_length_le hlen.le]
  rw [hlen]

/-- ABS4 with complete operands and room for its index count consumes all of them (R132, R133). -/
theorem execAbs4_of_complete {n : Byte} {lits : List Byte} {pad : Option Byte} {s : State}
    (h : absOperandsComplete n (abs4LiteralBytes s.params.rle4AbsUnit n.toNat) lits pad = true)
    (hroom : s.op + abs4Indices s.params.rle4AbsUnit n.toNat ≤ s.cfg.size) :
    execAbs4 n lits pad s = .next (consume (lits.length + (padBytes pad).length)
      (putList ((nibbles lits).take (abs4Indices s.params.rle4AbsUnit n.toNat)) s)) := by
  obtain ⟨-, hlen, hpad⟩ := (absOperandsComplete_iff ..).1 h
  have hhalf := abs4LiteralBytes_eq_half_indices s.params.rle4AbsUnit n.toNat
  have hfits : fits (min (abs4Indices s.params.rle4AbsUnit n.toNat) (2 * lits.length)) s =
      abs4Indices s.params.rle4AbsUnit n.toNat := by
    rw [Nat.min_eq_left (by omega)]; exact fits_of_room hroom
  simp only [execAbs4, abs4Loop_eq, hfits, decide_true, if_true, consumePad_of_complete hpad, consume_consume]
  rw [hhalf, hlen]

/-- A complete command which, when it is an absolute run, finds room in the index buffer for all it writes: what R102's
length needs to be consumed whole (R134). -/
structure RunsWhole (i : Instr) (s : State) (m : Mode) : Prop where
  complete : i.wf s.params.rle4AbsUnit m = true
  abs8Fits : ∀ n lits pad, i = .abs8 n lits pad → s.op + n.toNat ≤ s.cfg.size
  abs4Fits : ∀ n lits pad, i = .abs4 n lits pad → s.op + abs4Indices s.params.rle4AbsUnit n.toNat ≤ s.cfg.size

/-- A command that runs whole moves `ip` past its operand bytes; the head has moved it past the pair (R124). -/
theorem exec_ip_of_runsWhole {i : Instr} {s t : State} {m : Mode} (hi : Instr.isRle i = true) (h : RunsWhole i s m)
    (he : exec i s = .next t) : t.ip + 2 = s.ip + (encodeBytes i).length := by
  obtain ⟨hwf, h8, h4⟩ := h
  cases i with
  | run8 n v =>
    cases he
    rw [run8Loop_eq, putList_ip]; rfl
  | run4 n v =>
    cases he
    rw [run4Loop_eq, putList_ip]; rfl
  | eol => cases he; rfl
  | eob => cases he; rfl
  | delta d =>
    cases d with
    | none => cases hwf
    | some d => cases he; rfl
  | abs8 n lits pad =>
    rw [Instr.wf, Bool.and_eq_true] at hwf
    cases (execAbs8_of_complete hwf.2 (h8 n lits pad rfl)).symm.trans he
    rw [length_encodeBytes_abs8, consume_ip, putList_ip, Nat.add_assoc]
  | abs4 n lits pad =>
    rw [Instr.wf, Bool.and_eq_true] at hwf
    cases (execAbs4_of_complete hwf.2 (h4 n lits pad rfl)).symm.trans he
    rw [length_encodeBytes_abs4, consume_ip, putList_ip, Nat.add_assoc]
  | pass1 => cases hi
  | pass4 => cases hi
  | pass8 => cases hi
  | pass16 => cases hi
  | swap24 => cases hi
  | compact32 => cases hi
  | start _ => cases hi
  | regWrite _ _ _ => cases hi
  | regRead _ _ => cases hi

/-- What follows the fetched command is the payload past its bytes. -/
theorem drop_of_fetch {s : State} {i : Instr} {after : List Byte} (h : fetch s = .ok (i, after)) :
    s.p.drop (s.ip + (encodeBytes i).length) = after := by
  rw [← List.drop_drop, ← encodeBytes_append_of_decode h, List.drop_left]

/-- Settles O18: the head takes the pair, the command the operand bytes it was decoded from. -/
theorem completeCommandConsumesItsLength : Obligations.CompleteCommandConsumesItsLength := by
  intro s t i after hp hroom hf hwf h8 h4 hstep
  have hexec : exec i (consume 2 s) = .next t := (engineStep_of_fetch hp hroom hf).symm.trans hstep
  have hmoved := exec_ip_of_runsWhole (s := consume 2 s) (decode_isRle hf).1 ⟨hwf, h8, h4⟩ hexec
  have hip : t.ip = s.ip + (encodeBytes i).length := by rw [consume_ip] at hmoved; omega
  exact ⟨hip, hip ▸ drop_of_fetch hf⟩

end Machine

end Sys2Proof

/-! PROOFS of the family 40_rle_decompressor.md: the head of an RLE_DECODE step (R121, R123, R124), the commands (R126 to
R133, R142) and the bound of the decode (R138). -/

namespace Sys2Proof.Machine

/-! ### The head of the decode loop (R121, R123, R124) -/

theorem step_of_no_inputs {s : State} (h : s.inputs = []) : step s = engineStep s := by
  simp only [step, machineStep, h]

/-- Settles O7. -/
theorem stepRunsTheFetchedCommand : Obligations.StepRunsTheFetchedCommand := by
  intro s i after hin hp hroom hf
  exact (step_of_no_inputs hin).trans (engineStep_of_fetch hp hroom hf)

theorem fetch_of_no_byte {s : State} (h : s.p.length ≤ s.ip) : fetch s = .error .endBeforeB0 := by
  rw [fetch, List.drop_of_length_le h, decode]

theorem fetch_of_lone_byte {s : State} (h : s.p.length = s.ip + 1) : fetch s = .error .endBeforeB1 := by
  obtain ⟨b, hb⟩ : ∃ b, s.p.drop s.ip = [b] := List.length_eq_one_iff.1 (by rw [List.length_drop]; omega)
  rw [fetch, hb, decode]

theorem engineStep_of_full {s : State} (hp : s.phase = .rleDecode) (hf : s.cfg.size ≤ s.op) :
    engineStep s = .next (stop .outFull s) := by
  rw [engineStep_of_rleDecode hp, rleDecodeStep, if_pos ((full_iff s).2 hf)]

/-- With room in the index buffer, a step that fetches no command stops, a lone `B0` consumed (R123). -/
theorem engineStep_of_fetch_error {s : State} {e : DecodeError} (hp : s.phase = .rleDecode)
    (hroom : s.op < s.cfg.size) (hf : fetch s = .error e) :
    engineStep s = .next (stop .inEnd (if e = .endBeforeB1 then consume 1 s else s)) := by
  have hnot : ¬ s.full = true := by rw [full_iff]; omega
  rw [engineStep_of_rleDecode hp, rleDecodeStep, if_neg hnot, hf]
  cases e <;> rfl

/-- Settles O10: the three stops of the head, each with what `stop` writes. -/
theorem headStopsOnAnExhaustedBuffer : Obligations.HeadStopsOnAnExhaustedBuffer := by
  intro s hp
  refine ⟨fun hfull => ?_, fun hroom hN => ?_, fun hroom hN => ?_⟩
  · rw [engineStep_of_full hp hfull]; rfl
  · rw [engineStep_of_fetch_error hp hroom (fetch_of_no_byte hN)]; rfl
  · rw [engineStep_of_fetch_error hp hroom (fetch_of_lone_byte hN)]; rfl

/-! ### The commands that write no index (R128, R129, R130) -/

/-- Settles O13. -/
theorem eolHasNoEffect : Obligations.EolHasNoEffect :=
  fun _ => rfl

/-- Settles O14: EOB is `stop`. -/
theorem eobStopsTheDecode : Obligations.EobStopsTheDecode :=
  fun _ => rfl

/-- Settles O15: with its operands DELTA moves, without them it is `stop`. -/
theorem deltaMovesTheCursor : Obligations.DeltaMovesTheCursor :=
  fun _ => ⟨fun _ _ => rfl, rfl⟩

/-! ### The runs (R126, R127, R142) -/

/-- Settles O11: RUN8 writes a list of `n` times `v`. -/
theorem run8WritesItsPixels : Obligations.Run8WritesItsPixels := by
  intro n v s
  obtain ⟨idx, hstate, hidx⟩ := putList_spec (List.replicate n.toNat v) s
  rw [List.length_replicate] at hstate hidx
  refine ⟨idx, ?_, fun hwf => ⟨(hidx hwf).1, fun a => ?_⟩⟩
  · rw [exec, execRun8, run8Loop_eq, hstate, fits]
  · rw [(hidx hwf).2 a, fits]
    split
    · exact List.getD_replicate _ (by omega)
    · rfl

theorem hiNibble_eq (b : Byte) : hiNibble b = BitVec.ofNat 8 (b.toNat / 16) := by
  apply BitVec.eq_of_toNat_eq
  simp [hiNibble, Nat.shiftRight_eq_div_pow]
  omega

theorem loNibble_eq (b : Byte) : loNibble b = BitVec.ofNat 8 (b.toNat % 16) := by
  apply BitVec.eq_of_toNat_eq
  simp [loNibble]

/-- Which nibble a pixel of RUN4 takes, in the words of R127 and R142. -/
theorem runNibble_eq (ph : RunPhase) (n j : Nat) (v : Byte) : runNibble ph n j v =
    if (ph = .highFirst ∧ j % 2 = 0) ∨ (ph = .parity ∧ (n - j) % 2 = 1) then BitVec.ofNat 8 (v.toNat / 16)
    else BitVec.ofNat 8 (v.toNat % 16) := by
  rw [← hiNibble_eq, ← loNibble_eq]
  cases ph <;> simp [runNibble]

/-- Settles O12: RUN4 writes the list of its pixels' nibbles. -/
theorem run4WritesItsNibbles : Obligations.Run4WritesItsNibbles := by
  intro n v s
  obtain ⟨idx, hstate, hidx⟩ := putList_spec
    ((List.range' 0 n.toNat).map fun i => runNibble s.params.rle4RunPhase n.toNat i v) s
  rw [List.length_map, List.length_range'] at hstate hidx
  refine ⟨idx, ?_, fun hwf => ⟨(hidx hwf).1, fun a => ?_⟩⟩
  · rw [exec, execRun4, run4Loop_eq, hstate, fits]
  · rw [(hidx hwf).2 a, fits, ← runNibble_eq]
    split
    · have hj : a - s.op < n.toNat := by omega
      simp [List.getD, hj]
    · rfl

/-! ### The absolute runs (R131, R132, R133) -/

/-- The pad byte is consumed after a whole run of odd byte count, when it is there (R133, R134). -/
theorem consumePad_of_whole_run (whole : Prop) [Decidable whole] (m : Nat) (pad : Option Byte) (s : State) :
    (if decide whole = true then consumePad m pad s else s) =
      consume (if whole ∧ m % 2 = 1 ∧ pad.isSome = true then 1 else 0) s := by
  by_cases hw : whole
  · by_cases hpad : m % 2 = 1 ∧ pad.isSome = true
    · simp [hw, hpad, consumePad_of_pad hpad]
    · simp [hw, hpad, consumePad_of_no_pad hpad]
  · simp [hw]

/-- ABS8 with its pad counted exactly (R131, R133). -/
theorem exec_abs8 (n : Byte) (lits : List Byte) (pad : Option Byte) (s : State) {k : Nat}
    (hk : k = fits (min n.toNat lits.length) s) :
    exec (.abs8 n lits pad) s = .next (consume
      (k + if k = n.toNat ∧ n.toNat % 2 = 1 ∧ pad.isSome = true then 1 else 0) (putList (lits.take n.toNat) s)) := by
  simp only [exec, execAbs8, abs8Loop_eq, ← hk, consumePad_of_whole_run, consume_consume]

/-- ABS4 with its pad counted exactly (R132, R133). -/
theorem exec_abs4 (n : Byte) (lits : List Byte) (pad : Option Byte) (s : State) {p k : Nat}
    (hp : p = abs4Indices s.params.rle4AbsUnit n.toNat) (hk : k = fits (min p (2 * lits.length)) s) :
    exec (.abs4 n lits pad) s = .next (consume
      ((k + 1) / 2 + if k = p ∧ (p + 1) / 2 % 2 = 1 ∧ pad.isSome = true then 1 else 0)
      (putList ((nibbles lits).take p) s)) := by
  have hm : abs4LiteralBytes s.params.rle4AbsUnit n.toNat = (p + 1) / 2 := by
    rw [hp, abs4LiteralBytes_eq_half_indices]
  simp only [exec, execAbs4, abs4Loop_eq, ← hp, ← hk, hm, consumePad_of_whole_run, consume_consume]

/-- What writing the first `n` of the indices `vs` and then consuming `c` bytes leaves. -/
theorem consume_putList_take_spec (c n : Nat) (vs : List Byte) (s : State) {k : Nat}
    (hk : k = fits (min n vs.length) s) : ∃ idx : Memory,
    consume c (putList (vs.take n) s) = { s with idx := idx, op := s.op + k, ip := s.ip + c } ∧
    (s.idx.wf = true → idx.wf = true ∧
      ∀ a, idx.read a = if s.op ≤ a ∧ a < s.op + k then vs.getD (a - s.op) 0 else s.idx.read a) := by
  obtain ⟨idx, hstate, hidx⟩ := putList_spec (vs.take n) s
  rw [List.length_take, ← hk] at hstate hidx
  refine ⟨idx, by rw [hstate]; rfl, fun hwf => ⟨(hidx hwf).1, fun a => ?_⟩⟩
  rw [(hidx hwf).2 a]
  split
  · have hj : a - s.op < n := by unfold fits at hk; omega
    simp [List.getD, hj]
  · rfl

/-- Settles O16: ABS8 writes the first `n` of its literals. -/
theorem abs8WritesItsLiterals : Obligations.Abs8WritesItsLiterals := by
  intro n lits pad s k hk
  obtain ⟨idx, hstate, hidx⟩ := consume_putList_take_spec
    (k + if k = n.toNat ∧ n.toNat % 2 = 1 ∧ pad.isSome = true then 1 else 0) n.toNat lits s hk
  refine ⟨idx, ?_, hidx⟩
  rw [exec_abs8 n lits pad s hk, hstate, Nat.add_assoc]

/-- The index count of an ABS4 in the words of R132. -/
theorem abs4Indices_eq (u : AbsUnit) (n : Nat) : abs4Indices u n = if u = .bytes then 2 * n else n := by
  cases u <;> rfl

/-- Settles O17: ABS4 writes the first `p` of the nibbles of its literals. -/
theorem abs4WritesItsNibbles : Obligations.Abs4WritesItsNibbles := by
  intro n lits pad s p m k hp hm hk
  rw [← abs4Indices_eq] at hp
  subst hm
  have hk' : k = fits (min p (nibbles lits).length) s := by rw [length_nibbles]; exact hk
  obtain ⟨idx, hstate, hidx⟩ := consume_putList_take_spec
    ((k + 1) / 2 + if k = p ∧ (p + 1) / 2 % 2 = 1 ∧ pad.isSome = true then 1 else 0) p (nibbles lits) s hk'
  simp only [getD_nibbles, hiNibble_eq, loNibble_eq] at hidx
  refine ⟨idx, ?_, hidx⟩
  rw [exec_abs4 n lits pad s hp hk, hstate, Nat.add_assoc]

/-! ### The bound of the decode (R138)

A step that goes on consumes the pair it fetched and keeps the payload and the inputs, so the bytes left fall by 2 a
step, and with fewer than 2 left the step stops. -/

@[simp] theorem putList_inputs (vs : List Byte) (s : State) : (putList vs s).inputs = s.inputs := by
  obtain ⟨idx, h, -⟩ := putList_spec vs s
  rw [h]

theorem RleEffect.inputs_eq {i : Instr} {s t : State} (h : RleEffect i s t) : t.inputs = s.inputs := by
  cases h with
  | writes _ _ _ _ ht => simp [ht]
  | moves _ _ _ ht => simp [ht]
  | stops _ _ _ ht => simp [ht]

theorem stop_phase_ne_rleDecode (e : RleEnd) (s : State) : (stop e s).phase ≠ .rleDecode := by
  rw [stop_phase]; split <;> decide

/-- What a step that stays in RLE_DECODE does: it had a pair to consume, and did (R123, R124, R138). -/
theorem rleDecode_continues {s t : State} (hp : s.phase = .rleDecode) (h : engineStep s = .next t)
    (ht : t.phase = .rleDecode) :
    s.ip + 2 ≤ t.ip ∧ s.ip + 2 ≤ s.p.length ∧ t.p = s.p ∧ t.inputs = s.inputs := by
  rcases rleDecode_effect hp h with ⟨e, k, -, rfl⟩ | ⟨i, after, hi, hr⟩
  · exact absurd ht (stop_phase_ne_rleDecode e _)
  · obtain ⟨hpay, -, hle, hge⟩ := hr.forward
    have hlen := length_encodeBytes_of_fetch hi
    rw [consume_ip] at hle hge
    exact ⟨hle, by omega, hpay, hr.inputs_eq⟩

theorem engineStep_next_of_rleDecode {s : State} (hp : s.phase = .rleDecode) : ∃ t, engineStep s = .next t := by
  rw [engineStep_of_rleDecode hp]; exact rleDecodeStep_next s

/-- A run that begins with a step to `t` is that step and a run from `t`. -/
theorem run_succ_of_step (M : Host.Core) {s t : M.State} (h : M.step s = .next t) (k : Nat) :
    M.run (k + 1) s = M.run k t := by
  rw [Host.Core.run, h]

/-- An undisturbed engine with `d` payload bytes left leaves RLE_DECODE within `floor(d/2) + 1` steps (R138). -/
theorem run_leaves_rleDecode {s : State} {d : Nat} (hp : s.phase = .rleDecode) (hin : s.inputs = [])
    (hd : s.p.length - s.ip ≤ d) :
    ∃ (k : Nat) (t : State), k ≤ d / 2 + 1 ∧ Sys2Proof.core.run k s = .next t ∧ t.phase ≠ .rleDecode := by
  induction d using Nat.strongRecOn generalizing s with
  | _ d ih =>
    obtain ⟨t, ht⟩ := engineStep_next_of_rleDecode hp
    have hrun := run_succ_of_step Sys2Proof.core ((step_of_no_inputs hin).trans ht)
    by_cases hq : t.phase = .rleDecode
    · obtain ⟨hmove, hpair, hpay, hkeep⟩ := rleDecode_continues hp ht hq
      obtain ⟨k, t', hk, ht', hleft⟩ :=
        ih (d - 2) (by omega) hq (hkeep.trans hin) (by rw [hpay]; omega)
      exact ⟨k + 1, t', by omega, (hrun k).trans ht', hleft⟩
    · exact ⟨1, t, by omega, hrun 0, hq⟩

/-- Settles O56: a step that goes on consumes a pair, and the run by induction on the bytes left. -/
theorem rleDecodeEndsWithinItsBound : Obligations.RleDecodeEndsWithinItsBound := by
  intro s hp
  refine ⟨fun t ht => ⟨fun hq => (rleDecode_continues hp ht hq).1, fun hip => ?_⟩, fun hin => ?_⟩
  · exact (commandsMoveForwardWithinThePayload s t hp hip ht).2.1
  · exact run_leaves_rleDecode hp hin (Nat.le_refl _)

end Sys2Proof.Machine

/-! PROOFS of the family 41_row_extractor.md: the row geometry (R172, R174, R175, R187), the two row steps (R176 to
R179, R182, R183) and the order of the rows of a decode (R185). -/

namespace Sys2Proof.Machine

/-! ### The stride and the significant bytes (R171, R172, R187) -/

/-- Settles O28: each legal depth makes the stride linear in the width. -/
theorem strideProperties : Obligations.StrideProperties := by
  intro c _ hb
  rcases hb with hb | hb | hb | hb | hb | hb <;> simp [Latched.rowStride, Latched.pixels, hb] <;> omega

theorem dataBytes_le_rowStride (c : Latched) : dataBytes c.pixels c.bpp ≤ c.rowStride := by
  unfold dataBytes
  split
  · rename_i hb
    have hrow := four_pixels_le_stride hb
    omega
  · unfold Latched.rowStride
    omega

/-- Settles O29: at depth 32 only the colour bytes count (R204), elsewhere the bits of the pixels, and the stride rounds
both up. -/
theorem significantBytesFitTheRow : Obligations.SignificantBytesFitTheRow := by
  intro c _
  refine ⟨fun hb => ?_, fun hb => ?_, fun hb => ?_, fun hb => ?_, fun hb => ?_, fun hb => ?_,
    dataBytes_le_rowStride c⟩ <;> rw [hb]
  · simp [dataBytes]
  · simp [dataBytes]; omega
  · simp [dataBytes]; omega
  · simp [dataBytes]; omega
  · simp [dataBytes]; omega
  · simp [dataBytes]

/-! ### The stored rows (R174, R175) -/

theorem fileRow_lt {c : Latched} {r : Nat} (hr : r < c.rowCount) : c.fileRow r < c.rowCount := by
  unfold Latched.fileRow; split <;> omega

/-- With all rows inside the source, so is the row that display row `r` is read from. -/
theorem rowAddress_add_stride_le {c : Latched} {r : Nat} (hr : r < c.rowCount) :
    c.rowAddress r + c.rowStride ≤ c.off + c.rowCount * c.rowStride := by
  have hrows := Nat.mul_le_mul_right c.rowStride (fileRow_lt hr)
  rw [Nat.succ_mul] at hrows
  unfold Latched.rowAddress
  omega

theorem srcByte_of_no_change {s : State} (h : s.srcChanged = []) (a : Nat) : srcByte s a = s.src.read a :=
  srcByte_unchanged (by simp [h])

/-- A read inside an ideal source that did not change delivers its bytes (R61, R62). -/
theorem srcRead_of_ideal_inside {s : State} {addr n : Nat} (hm : s.srcModel = .ideal) (hc : s.srcChanged = [])
    (hle : addr + n ≤ s.cfg.srcLen) : srcRead s addr n = (s.src.slice addr n, false) := by
  simp only [srcRead, srcAnswer_of_ideal hm, srcAvail, if_pos hle, srcByte_of_no_change hc, Memory.slice]

/-- Settles O33: both sources deliver whole rows, and the row read from the one is stored in the other where its order
puts it. -/
theorem oppositeStorageOrdersReadAlike : Obligations.OppositeStorageOrdersReadAlike := by
  intro s t hhs hcfg hms hmt hcs hct hlen hbytes r hr
  have hrows : t.cfg.rowCount = s.cfg.rowCount := by rw [hcfg]; exact Int.natAbs_neg _
  have hstride : t.cfg.rowStride = s.cfg.rowStride := by rw [hcfg]; rfl
  have hs : s.cfg.rowAddress r = s.cfg.off + (s.cfg.rowCount - 1 - r) * s.cfg.rowStride := by
    rw [Latched.rowAddress, Latched.fileRow, if_pos hhs]
  have ht : t.cfg.rowAddress r = s.cfg.off + r * s.cfg.rowStride := by
    rw [Latched.rowAddress, hstride, Latched.fileRow, hcfg, if_neg (by simpa using hhs.le)]
  have hins : s.cfg.rowAddress r + s.cfg.rowStride ≤ s.cfg.srcLen := (rowAddress_add_stride_le hr).trans hlen
  have hint : t.cfg.rowAddress r + t.cfg.rowStride ≤ t.cfg.srcLen :=
    (rowAddress_add_stride_le (hrows ▸ hr)).trans (by rw [hrows, hstride, hcfg]; exact hlen)
  rw [srcRead_of_ideal_inside hms hcs hins, srcRead_of_ideal_inside hmt hct hint, hs, ht, hstride]
  refine congrArg (·, false) (List.map_congr_left fun j hj => ?_)
  exact (hbytes r j hr (List.mem_range.1 hj)).symm

/-! ### RLE_EMIT (R182, R183, R184) -/

theorem rleEmitStep_of_row_left {s : State} (hs : s.sinkReady = true) (hr : s.r < s.cfg.rowCount) :
    rleEmitStep s = .next (emitRow (s.idx.slice (s.cfg.sliceBase s.r) s.cfg.pixels) 1 8 false s) := by
  rw [rleEmitStep, if_pos hs, if_pos hr]

/-- Settles O31: the data are the slice of IDX at `sliceBase`. -/
theorem rleEmitStepEmitsItsSlice : Obligations.RleEmitStepEmitsItsSlice := by
  intro s hp hs hr
  refine ⟨s.idx.slice (s.cfg.sliceBase s.r) s.cfg.pixels, ?_, Memory.length_slice _ _ _,
    fun j hj => Memory.getD_slice _ _ _ _ hj⟩
  rw [engineStep_of_rleEmit hp, rleEmitStep_of_row_left hs hr, emitRow, hp]
  rfl

/-! ### RGB_ROW (R176 to R179, R203, R204) -/

/-- The row buffer after the transform the latched depth selects (R201). -/
def reorderedRow (c : Latched) (row : Memory) : Memory :=
  if c.bpp = 24 then swapPixels c.pixels row else if c.bpp = 32 then compactPixels c.pixels row else row

theorem exec_reorders {s : State} {i : Instr} (h : decodeDepth s.cfg.bpp = .ok i) :
    exec i s = .next { s with row := reorderedRow s.cfg s.row } := by
  have hpass : s.cfg.bpp ≠ 24 → s.cfg.bpp ≠ 32 → reorderedRow s.cfg s.row = s.row := fun h1 h2 => by
    rw [reorderedRow, if_neg h1, if_neg h2]
  unfold decodeDepth at h
  split_ifs at h with h1 h4 h8 h16 h24 h32 <;> cases h
  · rw [hpass (by rw [h1]; decide) (by rw [h1]; decide)]; rfl
  · rw [hpass (by rw [h4]; decide) (by rw [h4]; decide)]; rfl
  · rw [hpass (by rw [h8]; decide) (by rw [h8]; decide)]; rfl
  · rw [hpass (by rw [h16]; decide) (by rw [h16]; decide)]; rfl
  · rw [exec_swap24_of_long_row (three_pixels_le_stride h24), reorderedRow, if_pos h24]
  · rw [reorderedRow, if_neg h24, if_pos h32]
    exact if_pos (four_pixels_le_stride h32)

theorem wf_reorderedRow (c : Latched) {row : Memory} (h : row.wf = true) : (reorderedRow c row).wf = true := by
  unfold reorderedRow
  split_ifs
  · exact wf_swapPixels h _
  · exact wf_compactPixels h _
  · exact h

/-- ROW after the read half: the bytes delivered, and zeros where none were (R67, R176). -/
theorem read_loaded_row (bytes : List Byte) (j : Nat) : (Memory.writeAll [] 0 bytes).read j = bytes.getD j 0 := by
  rw [Memory.read_writeAll Memory.wf_nil]
  split
  · rfl
  · rw [List.getD_eq_default _ _ (by omega)]; rfl

/-- The read half of RGB_ROW with its IoError, field by field (R176, R177). -/
theorem readRow_eq {s : State} {bytes : List Byte} {ioErr : Bool}
    (hb : bytes = (srcRead s (s.cfg.rowAddress s.r) s.cfg.rowStride).1)
    (he : ioErr = ((srcRead s (s.cfg.rowAddress s.r) s.cfg.rowStride).2 || decide (bytes.length < s.cfg.rowStride))) :
    readRow s = ({ s with
      row := Memory.writeAll [] 0 bytes
      ioerr := s.ioerr || ioErr
      ioerrCount := if ioErr = true ∧ s.ioerrCount ≠ 0xFFFFFFFF then s.ioerrCount + 1 else s.ioerrCount
      ioerrFirstRow := if ioErr = true ∧ s.ioerrFirstRow = 0xFFFFFFFF then BitVec.ofNat 32 s.r else s.ioerrFirstRow
      srcModel := s.srcModel.next, draws := s.draws + 1 }, ioErr) := by
  simp only [readRow, ← hb, ← he]
  cases ioErr with
  | false => simp [loadRow, afterSrcRead]
  | true =>
    simp only [recordIoError, loadRow, afterSrcRead, if_true, Bool.or_true, true_and, ne_eq, ite_not]
    rfl

theorem rgbRowStep_of_row_left {s : State} (hs : s.sinkReady = true) (hr : s.r < s.cfg.rowCount)
    (hc : checkError s.params s.cfg = none) :
    rgbRowStep s = .next (emitRgbRow (readRow s).2
      { (readRow s).1 with row := reorderedRow (readRow s).1.cfg (readRow s).1.row }) := by
  obtain ⟨i, hi⟩ := decodeDepth_of_check hc
  have hx := exec_reorders (s := (readRow s).1) (i := i) (by rwa [readRow_cfg])
  simp only [rgbRowStep, if_pos hs, if_pos hr, hi, hx]

/-- The bands of a legal depth, in the words of R179. -/
theorem bandsOf_legal (q : Params) {b : BitVec 16} (h : b = 1 ∨ b = 4 ∨ b = 8 ∨ b = 16 ∨ b = 24 ∨ b = 32) :
    bandsOf q b = if b = 16 then q.bands16 else if b.toNat < 16 then 1 else 3 := by
  rcases h with rfl | rfl | rfl | rfl | rfl | rfl <;> rfl

/-- The bits a sample of a legal depth, in the words of R179. -/
theorem bpsOf_legal (q : Params) {b : BitVec 16} (h : b = 1 ∨ b = 4 ∨ b = 8 ∨ b = 16 ∨ b = 24 ∨ b = 32) :
    bpsOf q b = if b = 16 then q.bps16 else BitVec.ofNat 8 (min b.toNat 8) := by
  rcases h with rfl | rfl | rfl | rfl | rfl | rfl <;> rfl

/-- Up to depth 16 a row is emitted as read (R202). -/
theorem reorderedRow_of_shallow {c : Latched} (h : c.bpp.toNat ≤ 16) (row : Memory) : reorderedRow c row = row := by
  have h24 : c.bpp ≠ 24 := fun hb => by simp [hb] at h
  have h32 : c.bpp ≠ 32 := fun hb => by simp [hb] at h
  rw [reorderedRow, if_neg h24, if_neg h32]

/-- Pixel `i` of a row of depth 24 (R203). -/
theorem read_reorderedRow_24 {c : Latched} (hb : c.bpp = 24) {row : Memory} (hw : row.wf = true) {i : Nat}
    (hi : i < c.pixels) :
    (reorderedRow c row).read (3 * i) = row.read (3 * i + 2) ∧
      (reorderedRow c row).read (3 * i + 1) = row.read (3 * i + 1) ∧
      (reorderedRow c row).read (3 * i + 2) = row.read (3 * i) := by
  simp only [reorderedRow, if_pos hb, read_swapPixels hw]
  refine ⟨?_, ?_, ?_⟩ <;> rw [if_pos (by omega)] <;> congr 1 <;> omega

/-- Pixel `i` of a row of depth 32 (R204). -/
theorem read_reorderedRow_32 {c : Latched} (hb : c.bpp = 32) {row : Memory} (hw : row.wf = true) {i : Nat}
    (hi : i < c.pixels) :
    (reorderedRow c row).read (3 * i) = row.read (4 * i + 2) ∧
      (reorderedRow c row).read (3 * i + 1) = row.read (4 * i + 1) ∧
      (reorderedRow c row).read (3 * i + 2) = row.read (4 * i) := by
  have h24 : c.bpp ≠ 24 := by rw [hb]; decide
  simp only [reorderedRow, if_neg h24, if_pos hb, read_compactPixels hw]
  refine ⟨?_, ?_, ?_⟩ <;> rw [if_pos (by omega)] <;> congr 1 <;> omega

/-- Behind its pixels a row keeps its bytes (R203, R204). -/
theorem read_reorderedRow_tail (c : Latched) {row : Memory} (hw : row.wf = true) {j : Nat} (hj : 3 * c.pixels ≤ j) :
    (reorderedRow c row).read j = row.read j := by
  have hout : ¬ j < 3 * c.pixels := Nat.not_lt.2 hj
  unfold reorderedRow
  split_ifs
  · rw [read_swapPixels hw, if_neg hout]
  · rw [read_compactPixels hw, if_neg hout]
  · rfl

/-- Settles O30: the step reads, reorders and emits; the bytes emitted are those of ROW, which are the bytes delivered
with the lanes the transform gives them. -/
theorem rgbRowStepEmitsItsRow : Obligations.RgbRowStepEmitsItsRow := by
  intro s k n bytes ioErr hp hs hr hc hk hn hb he
  have hkn : s.cfg.off + k * n = s.cfg.rowAddress s.r := by rw [hk, hn]; rfl
  have hn' : n = s.cfg.rowStride := hn
  rw [hkn, hn'] at hb he
  have hw : (Memory.writeAll [] 0 bytes).wf = true := Memory.wf_writeAll Memory.wf_nil 0 bytes
  have hdepth := legal_depth_of_check hc
  have hdata : ∀ j, j < n → ((reorderedRow s.cfg (Memory.writeAll [] 0 bytes)).slice 0 n).getD j 0 =
      (reorderedRow s.cfg (Memory.writeAll [] 0 bytes)).read j := fun j hj => by
    rw [Memory.getD_slice _ _ _ _ hj, Nat.zero_add]
  refine ⟨(reorderedRow s.cfg (Memory.writeAll [] 0 bytes)).slice 0 n,
    reorderedRow s.cfg (Memory.writeAll [] 0 bytes), ?_, wf_reorderedRow _ hw, Memory.length_slice _ _ _,
    fun j hj => (hdata j hj).symm, fun hb16 j hj => ?_, fun hb24 i hi => ?_, fun hb32 i hi => ?_,
    fun _ j hj hjn => ?_⟩
  · rw [engineStep_of_rgbRow hp, rgbRowStep_of_row_left hs hr hc, readRow_eq hb he, emitRgbRow, emitRow, hn',
      ← bandsOf_legal _ hdepth, ← bpsOf_legal _ hdepth, ← hp]
    rfl
  · rw [hdata j hj, reorderedRow_of_shallow hb16, read_loaded_row]
  · have hfit := three_pixels_le_stride hb24
    have hi' : i < s.cfg.pixels := hi
    rw [hdata _ (by omega), hdata _ (by omega), hdata _ (by omega)]
    simpa only [read_loaded_row] using read_reorderedRow_24 hb24 hw hi
  · have hfit := four_pixels_le_stride hb32
    have hi' : i < s.cfg.pixels := hi
    rw [hdata _ (by omega), hdata _ (by omega), hdata _ (by omega)]
    simpa only [read_loaded_row] using read_reorderedRow_32 hb32 hw hi
  · rw [hdata j hjn, read_reorderedRow_tail _ hw hj, read_loaded_row]


/-! ### The rows of a decode (R185)

`RowsDue` says phase by phase which rows an undisturbed decode has emitted and what keeps it going, `stepsLeft` how many
steps it can still take (R278). Every step before the end keeps the one and lowers the other, and appends the rows it
counts. -/

/-- How far an undisturbed decode has come with its rows in each phase (R42, R48), and what its next step needs. -/
def State.RowsDue (s : State) : Prop :=
  match s.phase with
  | .idle => False
  | .check => s.rowsEmitted = 0
  | .rleLoad => s.rowsEmitted = 0 ∧ checkError s.params s.cfg = none ∧ s.cfg.comp ≠ 0
  | .rleDecode => s.rowsEmitted = 0
  | .rleEmit => s.rowsEmitted.toNat = s.r ∧ s.r < s.cfg.rowCount
  | .rgbRow => s.rowsEmitted.toNat = s.r ∧ s.r < s.cfg.rowCount ∧ checkError s.params s.cfg = none
  | .done => s.rowsEmitted.toNat = s.cfg.rowCount
  | .error => s.rowsEmitted = 0

/-- A bound of the steps an undisturbed decode still takes (R278). -/
def State.stepsLeft (s : State) : Nat :=
  match s.phase with
  | .idle => 0
  | .check => 1 + (if s.cfg.comp = 0 then 0 else 1 + (s.cfg.payloadExtent / 2 + 1)) + s.cfg.rowCount
  | .rleLoad => 1 + (s.cfg.payloadExtent / 2 + 1) + s.cfg.rowCount
  | .rleDecode => (s.p.length - s.ip) / 2 + 1 + s.cfg.rowCount
  | .rleEmit => s.cfg.rowCount - s.r
  | .rgbRow => s.cfg.rowCount - s.r
  | .done => 0
  | .error => 0

/-- From `s` to `t` the trace grew by the rows ROWS_EMITTED counts, in order (R42, R78, R185). -/
def EmitsInOrder (s t : State) : Prop :=
  ∃ rows : List EmitEvent, t.trace = s.trace ++ rows ∧ t.rowsEmitted.toNat = s.rowsEmitted.toNat + rows.length ∧
    rows.map (fun e => e.row.toNat) = List.range' s.rowsEmitted.toNat rows.length

theorem EmitsInOrder.of_kept {s t : State} (htrace : t.trace = s.trace) (hrows : t.rowsEmitted = s.rowsEmitted) :
    EmitsInOrder s t :=
  ⟨[], by simp [htrace], by simp [hrows], rfl⟩

theorem EmitsInOrder.trans {s t u : State} (h : EmitsInOrder s t) (h' : EmitsInOrder t u) : EmitsInOrder s u := by
  obtain ⟨rows, htrace, hcount, hmap⟩ := h
  obtain ⟨rows', htrace', hcount', hmap'⟩ := h'
  refine ⟨rows ++ rows', by rw [htrace', htrace, List.append_assoc], by rw [List.length_append]; omega, ?_⟩
  rw [List.map_append, hmap, hmap', hcount, List.length_append, List.range'_append_1]

/-- Emitting row `r` after `r` rows, with 32-bit counters that hold it. -/
theorem EmitsNextRow.emitsInOrder {s t : State} (h : EmitsNextRow s t) (hcount : s.rowsEmitted.toNat = s.r)
    (hr : s.r + 1 < 2 ^ 32) : EmitsInOrder s t := by
  obtain ⟨-, hrows, -, e, htrace, hrow⟩ := h
  have hnat : e.row.toNat = s.rowsEmitted.toNat := by
    rw [hrow, hcount, BitVec.toNat_ofNat, Nat.mod_eq_of_lt (by omega)]
  refine ⟨[e], htrace, ?_, by simp [hnat]⟩
  rw [hrows, BitVec.toNat_add, List.length_singleton]
  exact Nat.mod_eq_of_lt (by rw [hcount]; exact hr)

/-- An undisturbed decode in `s` has come nearer to its end in `t`. -/
structure Advances (s t : State) : Prop where
  inputs    : t.inputs = s.inputs
  sinkReady : t.sinkReady = s.sinkReady
  emits     : EmitsInOrder s t
  due       : t.RowsDue
  nearer    : t.stepsLeft < s.stepsLeft

/-- CHECK ends the decode, with an error or without a row, or begins one of the two paths (R225, R227, R243). -/
theorem advances_of_check {s : State} (hp : s.phase = .check) (hdue : s.RowsDue) :
    ∃ t, engineStep s = .next t ∧ Advances s t := by
  have hnone : s.rowsEmitted = 0 := by simpa only [State.RowsDue, hp] using hdue
  have hstep : engineStep s = .next (checkStep s) := by simp only [engineStep, hp]
  refine ⟨checkStep s, hstep, ?_⟩
  unfold checkStep
  cases hc : checkError s.params s.cfg with
  | some code => exact ⟨rfl, rfl, .of_kept rfl rfl, hnone, by simp [State.stepsLeft, hp]⟩
  | none =>
    simp only [accept, nextPhase]
    split_ifs with hcomp hL
    · exact ⟨rfl, rfl, .of_kept rfl rfl, by simp [State.RowsDue, hnone, hL], by simp [State.stepsLeft, hp]⟩
    · exact ⟨rfl, rfl, .of_kept rfl rfl, ⟨by rw [hnone]; rfl, Nat.pos_of_ne_zero hL, hc⟩,
        by simp [State.stepsLeft, hp]⟩
    · refine ⟨rfl, rfl, .of_kept rfl rfl, ⟨hnone, hc, hcomp⟩, ?_⟩
      simp only [State.stepsLeft, hp, if_neg hcomp]
      omega

/-- RLE_LOAD leaves at most the payload extent to decode (R65, R122). -/
theorem advances_of_rleLoad {s : State} (hp : s.phase = .rleLoad) (hdue : s.RowsDue) :
    ∃ t, engineStep s = .next t ∧ Advances s t := by
  obtain ⟨hnone, hc, hcomp⟩ : s.rowsEmitted = 0 ∧ checkError s.params s.cfg = none ∧ s.cfg.comp ≠ 0 := by
    simpa only [State.RowsDue, hp] using hdue
  obtain ⟨m, hm⟩ := modeOf_of_check hc hcomp
  have hlen := (length_srcRead_le s s.cfg.off s.cfg.payloadExtent).trans (Nat.min_le_left _ _)
  have hstep := engineStep_of_rleLoad hp
  simp only [rleLoadStep, hm] at hstep
  refine ⟨_, hstep, rfl, rfl, .of_kept rfl rfl, hnone, ?_⟩
  have hhalf := Nat.div_le_div_right (c := 2) hlen
  simp only [State.stepsLeft, hp, afterSrcRead_cfg]
  omega

theorem stepsLeft_stop_le (e : RleEnd) (s : State) : (stop e s).stepsLeft ≤ s.cfg.rowCount := by
  unfold State.stepsLeft
  rw [stop_phase]
  split_ifs <;> simp

theorem rowsDue_stop {e : RleEnd} {s : State} (h : s.rowsEmitted = 0) : (stop e s).RowsDue := by
  unfold State.RowsDue
  rw [stop_phase]
  split_ifs with hL
  · simp [h, hL]
  · simpa [h] using Nat.pos_of_ne_zero hL

/-- A command leaves the decode in RLE_DECODE or is a stop. -/
theorem RleEffect.keeps_phase_or_stops {i : Instr} {s t : State} (h : RleEffect i s t) :
    t.phase = s.phase ∨ ∃ e, t = stop e s := by
  cases h with
  | writes _ _ _ _ ht => exact .inl (by simp [ht])
  | moves _ _ _ ht => exact .inl (by simp [ht])
  | stops e _ _ ht => exact .inr ⟨e, ht⟩

@[simp] theorem putList_rowsEmitted (vs : List Byte) (s : State) :
    (putList vs s).rowsEmitted = s.rowsEmitted := by
  obtain ⟨idx, h, -⟩ := putList_spec vs s
  rw [h]

@[simp] theorem putList_sinkReady (vs : List Byte) (s : State) : (putList vs s).sinkReady = s.sinkReady := by
  obtain ⟨idx, h, -⟩ := putList_spec vs s
  rw [h]

theorem RleEffect.rowsEmitted_eq {i : Instr} {s t : State} (h : RleEffect i s t) :
    t.rowsEmitted = s.rowsEmitted := by
  cases h with
  | writes _ _ _ _ ht => simp [ht]
  | moves _ _ _ ht => simp [ht]
  | stops _ _ _ ht => simp [ht]

theorem RleEffect.sinkReady_eq {i : Instr} {s t : State} (h : RleEffect i s t) : t.sinkReady = s.sinkReady := by
  cases h with
  | writes _ _ _ _ ht => simp [ht]
  | moves _ _ _ ht => simp [ht]
  | stops _ _ _ ht => simp [ht]

/-- An RLE_DECODE step goes on past a pair it consumes, or stops (R123, R124, R138). -/
theorem advances_of_rleDecode {s : State} (hp : s.phase = .rleDecode) (hdue : s.RowsDue) :
    ∃ t, engineStep s = .next t ∧ Advances s t := by
  have hnone : s.rowsEmitted = 0 := by simpa only [State.RowsDue, hp] using hdue
  have hleft : s.stepsLeft = (s.p.length - s.ip) / 2 + 1 + s.cfg.rowCount := by simp only [State.stepsLeft, hp]
  have hstop : ∀ e k, Advances s (stop e (consume k s)) := fun e k => by
    have hle := stepsLeft_stop_le e (consume k s)
    exact ⟨rfl, rfl, .of_kept rfl rfl, rowsDue_stop hnone, by rw [consume_cfg] at hle; omega⟩
  obtain ⟨t, ht⟩ := engineStep_next_of_rleDecode hp
  refine ⟨t, ht, ?_⟩
  rcases rleDecode_effect hp ht with ⟨e, k, -, rfl⟩ | ⟨i, after, -, hr⟩
  · exact hstop e k
  rcases hr.keeps_phase_or_stops with hq | ⟨e, rfl⟩
  · rw [consume_phase, hp] at hq
    obtain ⟨hmove, hpair, hpay, hin⟩ := rleDecode_continues hp ht hq
    have hrows : t.rowsEmitted = s.rowsEmitted := hr.rowsEmitted_eq
    refine ⟨hin, hr.sinkReady_eq, .of_kept hr.trace_eq hrows, by simpa only [State.RowsDue, hq, hrows], ?_⟩
    rw [hleft]
    simp only [State.stepsLeft, hq, hpay, (engineStep_effect ht).keepsConfig.cfg]
    omega
  · exact hstop e 2

theorem rowsDue_of_row {s : State} (hp : s.phase = .rgbRow ∨ s.phase = .rleEmit) :
    s.RowsDue ↔ s.rowsEmitted.toNat = s.r ∧ s.r < s.cfg.rowCount ∧
      (s.phase = .rgbRow → checkError s.params s.cfg = none) := by
  rcases hp with hp | hp <;> simp [State.RowsDue, hp]

theorem stepsLeft_of_row {s : State} (hp : s.phase = .rgbRow ∨ s.phase = .rleEmit) :
    s.stepsLeft = s.cfg.rowCount - s.r := by
  rcases hp with hp | hp <;> simp only [State.stepsLeft, hp]

/-- Emitting the row `r` moves a decode on, in the same phase or to DONE after the last row (R176, R182). -/
theorem EmitsNextRow.advances {s t : State} (h : EmitsNextRow s t) (hstep : engineStep s = .next t)
    (hphase : t.phase = if s.r + 1 = s.cfg.rowCount then .done else s.phase)
    (hin : t.inputs = s.inputs) (hsink : t.sinkReady = s.sinkReady)
    (hfit : s.cfg.rowCount < 2 ^ 32) (hdue : s.RowsDue) : Advances s t := by
  have hcfg := (engineStep_effect hstep).keepsConfig.cfg
  have hparams := (engineStep_effect hstep).params_eq
  obtain ⟨hcount, hr, hcheck⟩ := (rowsDue_of_row h.phase).1 hdue
  have hleft := stepsLeft_of_row h.phase
  have hcount' : t.rowsEmitted.toNat = s.r + 1 := by
    rw [h.rowsEmitted, BitVec.toNat_add, hcount]
    exact Nat.mod_eq_of_lt (Nat.lt_of_le_of_lt hr hfit)
  have hemits : EmitsInOrder s t := h.emitsInOrder hcount (Nat.lt_of_le_of_lt hr hfit)
  split_ifs at hphase with hlast
  · refine ⟨hin, hsink, hemits, ?_, ?_⟩
    · simp only [State.RowsDue, hphase, hcount', hcfg, hlast]
    · rw [hleft]; simp only [State.stepsLeft, hphase]; omega
  · have hrow : t.phase = .rgbRow ∨ t.phase = .rleEmit := by rw [hphase]; exact h.phase
    refine ⟨hin, hsink, hemits, (rowsDue_of_row hrow).2 ?_, ?_⟩
    · rw [hcount', h.r, hcfg, hparams, hphase]
      exact ⟨rfl, by omega, hcheck⟩
    · rw [hleft, stepsLeft_of_row hrow, hcfg, h.r]; omega

theorem advances_of_rleEmit {s : State} (hp : s.phase = .rleEmit) (hsink : s.sinkReady = true)
    (hfit : s.cfg.rowCount < 2 ^ 32) (hdue : s.RowsDue) : ∃ t, engineStep s = .next t ∧ Advances s t := by
  obtain ⟨-, hr⟩ : s.rowsEmitted.toNat = s.r ∧ s.r < s.cfg.rowCount := by
    simpa only [State.RowsDue, hp] using hdue
  have hstep := (engineStep_of_rleEmit hp).trans (rleEmitStep_of_row_left hsink hr)
  exact ⟨_, hstep, EmitsNextRow.advances ⟨.inr hp, rfl, rfl, _, rfl, rfl⟩ hstep rfl rfl rfl hfit hdue⟩

theorem advances_of_rgbRow {s : State} (hp : s.phase = .rgbRow) (hsink : s.sinkReady = true)
    (hfit : s.cfg.rowCount < 2 ^ 32) (hdue : s.RowsDue) : ∃ t, engineStep s = .next t ∧ Advances s t := by
  obtain ⟨-, hr, hc⟩ :
      s.rowsEmitted.toNat = s.r ∧ s.r < s.cfg.rowCount ∧ checkError s.params s.cfg = none := by
    simpa only [State.RowsDue, hp] using hdue
  obtain ⟨data, row, hstep, -⟩ := rgbRowStepEmitsItsRow s _ _ _ _ hp hsink hr hc rfl rfl rfl rfl
  exact ⟨_, hstep,
    EmitsNextRow.advances ⟨.inl hp, rfl, rfl, _, rfl, rfl⟩ hstep (by rw [hp]; rfl) rfl rfl hfit hdue⟩

/-- No phase of an undisturbed decode stands still (R278). -/
theorem undisturbed_advances {s : State} (hsink : s.sinkReady = true) (hfit : s.cfg.rowCount < 2 ^ 32)
    (hdue : s.RowsDue) (hend : s.ended = false) : ∃ t, engineStep s = .next t ∧ Advances s t := by
  cases hp : s.phase with
  | idle => simp only [State.RowsDue, hp] at hdue
  | check => exact advances_of_check hp hdue
  | rleLoad => exact advances_of_rleLoad hp hdue
  | rleDecode => exact advances_of_rleDecode hp hdue
  | rleEmit => exact advances_of_rleEmit hp hsink hfit hdue
  | rgbRow => exact advances_of_rgbRow hp hsink hfit hdue
  | done => simp [State.ended, hp] at hend
  | error => simp [State.ended, hp] at hend

/-- An undisturbed decode ends within the steps counted, with the rows due at its end emitted in order. -/
theorem undisturbed_decode_ends {s : State} {d : Nat} (hin : s.inputs = []) (hsink : s.sinkReady = true)
    (hfit : s.cfg.rowCount < 2 ^ 32) (hdue : s.RowsDue) (hd : s.stepsLeft ≤ d) :
    ∃ (k : Nat) (t : State), k ≤ d ∧ Sys2Proof.core.run k s = .next t ∧ t.ended = true ∧ t.cfg = s.cfg ∧
      t.RowsDue ∧ EmitsInOrder s t := by
  induction d generalizing s with
  | zero =>
    have hend : s.ended = true := by
      by_contra hgo
      obtain ⟨t, -, ht⟩ := undisturbed_advances hsink hfit hdue (by simpa using hgo)
      exact absurd ht.nearer (by omega)
    exact ⟨0, s, Nat.le_refl 0, rfl, hend, rfl, hdue, .of_kept rfl rfl⟩
  | succ d ih =>
    cases hend : s.ended with
    | true => exact ⟨0, s, Nat.zero_le _, rfl, hend, rfl, hdue, .of_kept rfl rfl⟩
    | false =>
      obtain ⟨t, hstep, ht⟩ := undisturbed_advances hsink hfit hdue hend
      have hcfg := (engineStep_effect hstep).keepsConfig.cfg
      have hrun := run_succ_of_step Sys2Proof.core ((step_of_no_inputs hin).trans hstep)
      obtain ⟨k, u, hk, hu, huend, hucfg, hudue, hemits⟩ :=
        ih (ht.inputs.trans hin) (ht.sinkReady.trans hsink) (hcfg ▸ hfit) ht.due (by have := ht.nearer; omega)
      exact ⟨k + 1, u, by omega, (hrun k).trans hu, huend, hucfg.trans hcfg, hudue, ht.emits.trans hemits⟩

/-- A latched height has a row count of at most `2^31` (R34). -/
theorem Latched.InRange.rowCount_lt {c : Latched} (h : c.InRange) : c.rowCount < 2 ^ 32 := by
  have hlow := h.hsLow
  have hhigh := h.hsHigh
  unfold Latched.rowCount
  omega

/-- Settles O58: at CHECK no row is emitted, and the rows emitted up to the end are those due there. -/
theorem everyDecodeEmitsItsRowsInOrder : Obligations.EveryDecodeEmitsItsRowsInOrder := by
  intro s hinv hstart
  obtain ⟨hp, hin, hsink⟩ := hstart
  have hnone : s.rowsEmitted = 0 := hinv.rowsElse (.inr (.inl hp))
  obtain ⟨k, t, -, hrun, hend, hcfg, hdue, rows, htrace, hcount, hmap⟩ :=
    undisturbed_decode_ends hin hsink hinv.latchedRange.rowCount_lt (by simpa only [State.RowsDue, hp]) (Nat.le_refl _)
  have hzero : s.rowsEmitted.toNat = 0 := by rw [hnone]; rfl
  rw [hzero, Nat.zero_add] at hcount
  rw [hzero, ← List.range_eq_range'] at hmap
  refine ⟨k, t, rows, hrun, htrace, ?_⟩
  cases hq : t.phase with
  | done =>
    have hall : t.rowsEmitted.toNat = s.cfg.rowCount := by simpa only [State.RowsDue, hq, hcfg] using hdue
    exact .inl ⟨rfl, by rw [hmap, ← hcount, hall], hall⟩
  | error =>
    have hzero : t.rowsEmitted = 0 := by simpa only [State.RowsDue, hq] using hdue
    rw [hzero] at hcount
    exact .inr ⟨rfl, List.eq_nil_of_length_eq_zero hcount.symm, hzero⟩
  | idle | check | rleLoad | rleDecode | rleEmit | rgbRow => simp [State.ended, hq] at hend

end Sys2Proof.Machine

/-! PROOFS of the family 42_channel_reorder.md: decoding as the inverse of encoding in the three encoding spaces (R93 to
R99, R201, R220) and the row transforms (R201 to R204). -/

namespace Sys2Proof

/-! ### Decoding the code of an instruction -/

/-- A stream code is decoded by its opcode pair, when the command leaves no byte (R93). -/
theorem decodeCode_stream_of_pair {u : AbsUnit} {m : Mode} {b0 b1 : Byte} {bytes : List Byte} {i : Instr}
    (h : decodePair u m b0 b1 bytes = (i, [])) : decodeCode u m (.stream (b0 :: b1 :: bytes)) = .ok i := by
  simp only [decodeCode, decode, h]

/-- Complete operands with nothing behind them are taken whole, and nothing is left (R98, R99). -/
theorem takeAbsOperands_of_complete {n : Byte} {m : Nat} {lits : List Byte} {pad : Option Byte}
    (h : absOperandsComplete n m lits pad = true) :
    3 ≤ n.toNat ∧ takeAbsOperands m (lits ++ padBytes pad) = (lits, pad, []) := by
  obtain ⟨hn, hlits, hpad⟩ := (absOperandsComplete_iff n m lits pad).1 h
  exact ⟨hn, by simpa only [List.append_nil] using takeAbsOperands_complete [] hlits hpad⟩

/-- A write of `hi` above a set bit 0 to CTRL is START with `hi` (R22, R223). -/
theorem decodeAccess_start (hi : BitVec 31) :
    decodeAccess (.write 4 0 (hi.setWidth 32 <<< 1 ||| 1#32)) = .start hi := by
  have hbit : (hi.setWidth 32 <<< 1 ||| 1#32).getLsbD 0 = true := by simp
  have hrest : (hi.setWidth 32 <<< 1 ||| 1#32).extractLsb' 1 31 = hi := by
    ext k hk
    have h32 : 1 + k < 32 := by omega
    simp [h32, hk]
  rw [decodeAccess, if_pos ⟨rfl, rfl, hbit⟩, hrest]

/-- A write beside CTRL is a REG_WRITE (R221). -/
theorem decodeAccess_write_of_ne_ctrl {off : BitVec 8} (h : off ≠ 0) (w : Nat) (v : Word) :
    decodeAccess (.write w off v) = .regWrite w off v :=
  if_neg fun hstart => h hstart.2.1

/-- Settles O1, by the decoder's equation for each row of the table. -/
theorem decodeInvertsEncode : Obligations.DecodeInvertsEncode := by
  intro u m i h
  cases i with
  | run8 n v =>
    obtain ⟨rfl, hn⟩ : m = .rle8 ∧ n ≠ 0 := by simpa [Instr.wf] using h
    exact decodeCode_stream_of_pair (decodePair_rle8_run u hn v [])
  | run4 n v =>
    obtain ⟨rfl, hn⟩ : m = .rle4 ∧ n ≠ 0 := by simpa [Instr.wf] using h
    exact decodeCode_stream_of_pair (decodePair_rle4_run u hn v [])
  | eol => exact decodeCode_stream_of_pair (decodePair_eol u m [])
  | eob => exact decodeCode_stream_of_pair (decodePair_eob u m [])
  | delta d =>
    obtain ⟨⟨dx, dy⟩, rfl⟩ := Option.isSome_iff_exists.1 h
    exact decodeCode_stream_of_pair (decodePair_delta u m dx dy [])
  | abs8 n lits pad =>
    obtain ⟨rfl, hops⟩ : m = .rle8 ∧ absOperandsComplete n n.toNat lits pad = true := by simpa [Instr.wf] using h
    obtain ⟨hn, htake⟩ := takeAbsOperands_of_complete hops
    exact decodeCode_stream_of_pair (by rw [decodePair_abs8 u hn, htake])
  | abs4 n lits pad =>
    obtain ⟨rfl, hops⟩ : m = .rle4 ∧ absOperandsComplete n (abs4LiteralBytes u n.toNat) lits pad = true := by
      simpa [Instr.wf] using h
    obtain ⟨hn, htake⟩ := takeAbsOperands_of_complete hops
    exact decodeCode_stream_of_pair (by rw [decodePair_abs4 u hn, htake])
  | pass1 | pass4 | pass8 | pass16 | swap24 | compact32 => rfl
  | start hi => exact congrArg Except.ok (decodeAccess_start hi)
  | regWrite w off v =>
    obtain ⟨-, hoff⟩ : aligned32 w off = true ∧ off ≠ 0 := by simpa [Instr.wf] using h
    exact congrArg Except.ok (decodeAccess_write_of_ne_ctrl hoff w v)
  | regRead w off => rfl

/-- Settles O5, by running the decoders on the words. -/
theorem writtenOutWordsDecode : Obligations.WrittenOutWordsDecode := by
  unfold Obligations.WrittenOutWordsDecode
  decide

namespace Machine

/-! ### The row transforms (R201 to R204) -/

/-- Settles O25: at depth 24 SWAP24 is the selected transform (R201). -/
theorem swap24SwapsEveryPixel : Obligations.Swap24SwapsEveryPixel := by
  intro s hb
  have hsel : decodeDepth s.cfg.bpp = .ok .swap24 := by rw [hb]; rfl
  exact ⟨reorderedRow s.cfg s.row, exec_reorders hsel, fun hw => ⟨wf_reorderedRow s.cfg hw,
    fun _ hi => read_reorderedRow_24 hb hw hi, fun _ ha => read_reorderedRow_tail s.cfg hw ha⟩⟩

/-- Settles O26: at depth 32 COMPACT32 is the selected transform (R201). -/
theorem compact32PacksEveryPixel : Obligations.Compact32PacksEveryPixel := by
  intro s hb
  have hsel : decodeDepth s.cfg.bpp = .ok .compact32 := by rw [hb]; rfl
  exact ⟨reorderedRow s.cfg s.row, exec_reorders hsel, fun hw => ⟨wf_reorderedRow s.cfg hw,
    fun _ hi => read_reorderedRow_32 hb hw hi, fun _ ha => read_reorderedRow_tail s.cfg hw ha⟩⟩

/-- Settles O24: each PASS arm of `exec` answers the state it is given. -/
theorem passTransformsAreTheIdentity : Obligations.PassTransformsAreTheIdentity :=
  fun _ => ⟨rfl, rfl, rfl, rfl⟩

/-- Settles O9: no input, so the engine moves, and in RGB_ROW with a row left it runs the selected transform. -/
theorem stepRunsTheSelectedTransform : Obligations.StepRunsTheSelectedTransform := by
  intro s t i hin hp hs hr hsel hexec
  rw [step_of_no_inputs hin, engineStep_of_rgbRow hp, rgbRowStep, if_pos hs, if_pos hr]
  simp only [hsel, hexec]

end Machine

end Sys2Proof

/-! PROOFS of the family 43_host_control.md: the register window (R221 to R224), the results after a decode (R229), the
accepted configuration (R225 to R227) and the invariant every step keeps. -/

namespace Sys2Proof.Machine

/-! ### The register window (R21, R47) -/

/-- Where a register stands in the window (R21). -/
def HostReg.offset : HostReg → BitVec 8
  | .ctrl => 0x00
  | .status => 0x04
  | .width => 0x08
  | .height => 0x0C
  | .bpp => 0x10
  | .comp => 0x14
  | .dataOffset => 0x18
  | .srcLen => 0x1C
  | .stride => 0x20
  | .rowsEmitted => 0x24
  | .ioerrCount => 0x28
  | .ioerrFirstRow => 0x2C
  | .rleInPos => 0x30
  | .rleOutPos => 0x34

theorem HostReg.ofOffset_offset (q : HostReg) : HostReg.ofOffset q.offset = some q := by
  cases q <;> rfl

theorem HostReg.offset_of_ofOffset {off : BitVec 8} {q : HostReg} (h : HostReg.ofOffset off = some q) :
    off = q.offset := by
  unfold HostReg.ofOffset at h
  split at h <;> cases h <;> exact BitVec.eq_of_toNat_eq ‹_›

/-- The registers fill the aligned offsets below 0x38 (R21, R47). -/
theorem HostReg.reserved_of_ofOffset {off : BitVec 8} (ha : off.toNat % 4 = 0) (h : HostReg.ofOffset off = none) :
    0x38 ≤ off.toNat := by
  unfold HostReg.ofOffset at h
  split at h
  case h_15 => simp only [imp_false] at *; omega
  all_goals cases h

theorem HostReg.offset_lt (q : HostReg) : q.offset.toNat < 0x38 := by
  cases q <;> decide

/-- STATUS and the registers from 0x20 on are the read-only results (R21). -/
theorem HostReg.isResult_iff (q : HostReg) : q.isResult = true ↔ q.offset = 0x04 ∨ 0x20 ≤ q.offset.toNat := by
  cases q <;> decide

/-! ### Register writes (R221, R223) -/

/-- START outside a decode (R223). -/
theorem startDecode_of_not_busy {s : State} (hb : s.busy = false) : startDecode s = { s with
    cfg := latch s
    path := .none, err := .none, trunc := false, ioerr := false, payloadShort := false, rleEnd := .none
    stride := 0, rowsEmitted := 0, ioerrCount := 0, ioerrFirstRow := 0xFFFFFFFF, rleInPos := 0, rleOutPos := 0
    ip := 0, op := 0, r := 0, srcChanged := [], phase := .check } := by
  simp [startDecode, hb]

theorem exec_start (hi : BitVec 31) (s : State) : exec (.start hi) s = .next (startDecode s) := rfl

theorem exec_regWrite_reg (q : HostReg) (v : Word) (s : State) :
    exec (.regWrite 4 q.offset v) s = .next (writeReg q v s) := by
  have ha : aligned32 4 q.offset = true := by cases q <;> rfl
  simp only [exec, execRegWrite, if_pos ha, HostReg.ofOffset_offset]

theorem exec_regWrite_reserved {off : BitVec 8} (h : HostReg.ofOffset off = none) (v : Word) (s : State) :
    exec (.regWrite 4 off v) s = .next s := by
  simp only [exec, execRegWrite, h, ite_self]

theorem writeReg_of_busy {s : State} (hb : s.busy = true) (q : HostReg) (v : Word) : writeReg q v s = s := by
  unfold writeReg
  split_ifs
  · exact startDecode_of_busy hb
  · rfl
  · rfl

theorem writeReg_of_not_busy {s : State} (hb : s.busy = false) {q : HostReg} (hq : q ≠ .ctrl) (v : Word) :
    writeReg q v s = storeConfig q v s := by
  rw [writeReg, if_neg hq, if_neg (by simp [hb])]

theorem writeReg_of_result {q : HostReg} (hq : q.isResult = true) (v : Word) (s : State) : writeReg q v s = s := by
  have hs : storeConfig q v s = s := by
    cases q with
    | status | stride | rowsEmitted | ioerrCount | ioerrFirstRow | rleInPos | rleOutPos => rfl
    | ctrl | width | height | bpp | comp | dataOffset | srcLen => cases hq
  unfold writeReg
  rw [hs, ite_self, if_neg (by rintro rfl; cases hq)]

theorem exec_regWrite_config {s : State} (hb : s.busy = false) {q : HostReg} (hq : q ≠ .ctrl) (v : Word) :
    exec (.regWrite 4 q.offset v) s = .next (storeConfig q v s) := by
  rw [exec_regWrite_reg, writeReg_of_not_busy hb hq]

/-- Settles O39: CTRL writes run `startDecode` or nothing, by bit 0. -/
theorem startLatchesAndClears : Obligations.StartLatchesAndClears := by
  intro s hi
  have hctrl : ∀ v : Word, exec (.regWrite 4 0 v) s = .next (if v.getLsbD 0 = true then startDecode s else s) :=
    fun v => exec_regWrite_reg .ctrl v s
  refine ⟨fun hb => ?_, fun hb => ?_, fun v hv => ?_, fun v hv => ?_⟩
  · rw [exec_start, startDecode_of_not_busy hb]; rfl
  · rw [exec_start, startDecode_of_busy hb]
  · rw [hctrl, if_pos hv, exec_start]
  · rw [hctrl, hv]; rfl

/-- Settles O40: a write outside the registers stores nothing, a result register is read-only. -/
theorem regWriteStoresConfiguration : Obligations.RegWriteStoresConfiguration := by
  intro s v
  refine ⟨fun hb => ?_, fun off hoff => ?_⟩
  · have hstore := fun (q : HostReg) (hq : q ≠ .ctrl) => exec_regWrite_config hb hq v
    exact ⟨hstore .width (by decide), hstore .height (by decide), hstore .bpp (by decide), hstore .comp (by decide),
      hstore .dataOffset (by decide), hstore .srcLen (by decide)⟩
  · cases hq : HostReg.ofOffset off with
    | none => exact exec_regWrite_reserved hq v s
    | some q =>
      obtain rfl := HostReg.offset_of_ofOffset hq
      rw [exec_regWrite_reg]
      rcases hoff with hb | hoff
      · rw [writeReg_of_busy hb]
      · rw [writeReg_of_result (q.isResult_iff.2 hoff)]

/-! ### Register reads (R222) -/

theorem regRead_eq_regValue {s : State} {q : HostReg} (h : s.busy = false ∨ q.isResult = false) :
    regRead s q = regValue s q := by
  rw [regRead, if_neg (by rcases h with h | h <;> simp [h])]

/-- Settles O41: the hypothesis at the register's own offset names its value. -/
theorem regReadReturnsTheRegister : Obligations.RegReadReturnsTheRegister := by
  intro s off v ha hdef hctrl hstatus hwidth hheight hbpp hcomp hoff hlen hstride hrows hcount hfirst hin hout hres
  rw [exec_regRead_aligned ha]
  suffices hv : (HostReg.ofOffset off).elim 0 (regRead s) = v by rw [hv]
  cases hq : HostReg.ofOffset off with
  | none => exact (hres (HostReg.reserved_of_ofOffset ha hq)).symm
  | some q =>
    obtain rfl := HostReg.offset_of_ofOffset hq
    have hread : regRead s q = regValue s q := by
      rcases hdef with hb | hconf | hhigh
      · exact regRead_eq_regValue (.inl hb)
      · exact regRead_eq_regValue (.inr (by simpa [← Bool.not_eq_true, q.isResult_iff] using hconf))
      · exact absurd q.offset_lt (Nat.not_lt.2 hhigh)
    refine hread.trans (Eq.symm ?_)
    cases q with
    | ctrl => exact hctrl rfl
    | status => exact hstatus rfl
    | width => exact hwidth rfl
    | height => exact hheight rfl
    | bpp => exact hbpp rfl
    | comp => exact hcomp rfl
    | dataOffset => exact hoff rfl
    | srcLen => exact hlen rfl
    | stride => exact hstride rfl
    | rowsEmitted => exact hrows rfl
    | ioerrCount => exact hcount rfl
    | ioerrFirstRow => exact hfirst rfl
    | rleInPos => exact hin rfl
    | rleOutPos => exact hout rfl

/-! ### Host accesses as steps, and the results after a decode (R220, R229) -/

/-- Settles O8. -/
theorem stepRunsTheHostAccess : Obligations.StepRunsTheHostAccess := by
  intro s a rest h
  simp only [step, machineStep, h, inputStep]

/-- After START, STATUS reports BUSY and nothing else (R223). -/
theorem statusWord_startDecode {s : State} (hb : s.busy = false) : (startDecode s).statusWord = 1 := by
  rw [startDecode_of_not_busy hb]
  simp only [State.statusWord]
  decide

theorem step_of_start {s : State} {v : Word} {rest : List Input} (h : s.inputs = .access (.write 4 0 v) :: rest)
    (hv : v.getLsbD 0 = true) : step s = .next (startDecode { s with inputs := rest }) := by
  rw [stepRunsTheHostAccess s _ rest h, decodeAccess, if_pos ⟨rfl, rfl, hv⟩, exec_start]

/-- STATUS and the result registers of `s` are kept in `t`, and the phase STATUS reports. -/
structure KeepsResults (s t : State) : Prop where
  phase         : t.phase = s.phase
  path          : t.path = s.path
  err           : t.err = s.err
  trunc         : t.trunc = s.trunc
  ioerr         : t.ioerr = s.ioerr
  payloadShort  : t.payloadShort = s.payloadShort
  rleEnd        : t.rleEnd = s.rleEnd
  stride        : t.stride = s.stride
  rowsEmitted   : t.rowsEmitted = s.rowsEmitted
  ioerrCount    : t.ioerrCount = s.ioerrCount
  ioerrFirstRow : t.ioerrFirstRow = s.ioerrFirstRow
  rleInPos      : t.rleInPos = s.rleInPos
  rleOutPos     : t.rleOutPos = s.rleOutPos

theorem KeepsResults.refl (s : State) : KeepsResults s s :=
  ⟨rfl, rfl, rfl, rfl, rfl, rfl, rfl, rfl, rfl, rfl, rfl, rfl, rfl⟩

theorem KeepsResults.statusWord {s t : State} (h : KeepsResults s t) : t.statusWord = s.statusWord := by
  simp only [State.statusWord, h.phase, h.path, h.err, h.trunc, h.ioerr, h.payloadShort, h.rleEnd]

theorem EngineEffect.eq_of_not_busy {s t : State} (h : EngineEffect s t) (hb : s.busy = false) : t = s := by
  have hphase := (not_congr (busy_iff s)).1 (by simp [hb])
  cases h with
  | rests _ ht => exact ht
  | waits _ _ ht => exact ht
  | fails _ hp => exact absurd (.inl hp) hphase
  | accepts hp => exact absurd (.inl hp) hphase
  | loads _ _ _ hp => exact absurd (.inr (.inl hp)) hphase
  | stops _ _ hp => exact absurd (.inr (.inr (.inl hp))) hphase
  | executes _ _ hp => exact absurd (.inr (.inr (.inl hp))) hphase
  | emitsSlice hp => exact absurd (.inr (.inr (.inr (.inl hp)))) hphase
  | emitsRow _ _ hp => exact absurd (.inr (.inr (.inr (.inr hp)))) hphase

theorem storeConfig_keepsResults (q : HostReg) (v : Word) (s : State) : KeepsResults s (storeConfig q v s) := by
  cases q <;> exact { KeepsResults.refl s with }

/-- Outside a decode only START and reset touch the results (R229). -/
theorem step_keepsResults {s t : State} (hb : s.busy = false) (h : step s = .next t)
    (hstart : ∀ v rest, s.inputs = .access (.write 4 0 v) :: rest → v.getLsbD 0 = false)
    (hreset : ∀ rest, s.inputs ≠ .reset :: rest) : KeepsResults s t := by
  cases step_effect h with
  | engine rest _ he => rw [he.eq_of_not_busy hb]; exact { KeepsResults.refl s with }
  | access a rest hi he =>
    cases he with
    | starts v ha hv _ _ => exact absurd hv (Bool.eq_false_iff.1 (hstart v rest (ha ▸ hi)))
    | stores _ _ v _ q _ ht => rw [ht]; exact { storeConfig_keepsResults q v { s with inputs := rest } with }
    | ignored ht => rw [ht]; exact { KeepsResults.refl s with }
    | reads _ ht => rw [ht]; exact { KeepsResults.refl s with }
  | reset rest hi _ => exact absurd hi (hreset rest)
  | srcWrite _ _ _ _ ht => rw [ht]; exact { KeepsResults.refl s with }
  | sink _ _ _ ht => rw [ht]; exact { KeepsResults.refl s with }

/-- Settles O59: a step without START and reset keeps the results, and a START step is `startDecode`. -/
theorem resultsAreKeptUntilStartOrReset : Obligations.ResultsAreKeptUntilStartOrReset := by
  intro s t hp h
  have hb : s.busy = false := by rcases hp with hp | hp <;> simp [State.busy, Phase.stateCode, hp]
  refine ⟨fun hstart hreset => ?_, fun v rest hi hv => ?_⟩
  · have hk := step_keepsResults hb h hstart hreset
    exact ⟨hk.phase, hk.path, hk.err, hk.trunc, hk.ioerr, hk.payloadShort, hk.rleEnd, hk.statusWord, hk.stride,
      hk.rowsEmitted, hk.ioerrCount, hk.ioerrFirstRow, hk.rleInPos, hk.rleOutPos⟩
  · have ht : t = startDecode { s with inputs := rest } := Host.Outcome.next.inj (h.symm.trans (step_of_start hi hv))
    have hword : t.statusWord = 1 := ht ▸ statusWord_startDecode (s := { s with inputs := rest }) hb
    rw [startDecode_of_not_busy (s := { s with inputs := rest }) hb] at ht
    subst ht
    exact ⟨rfl, hword, rfl, rfl, rfl, rfl, rfl, rfl, rfl, rfl, rfl, rfl, rfl, rfl, rfl, rfl, rfl, rfl, rfl, rfl⟩

/-! ### CHECK accepts (R225 to R227) -/

theorem engineStep_of_check {s : State} (hp : s.phase = .check) : engineStep s = .next (checkStep s) := by
  simp only [engineStep, hp]

theorem engineStep_of_accepted {s : State} (hp : s.phase = .check) (hc : checkError s.params s.cfg = none) :
    engineStep s = .next (accept s) := by
  rw [engineStep_of_check hp, checkStep, hc]

/-- CHECK passes an uncompressed configuration whose row fits (R225). -/
theorem checkError_of_rgb {q : Params} {c : Latched}
    (hb : c.bpp = 1 ∨ c.bpp = 4 ∨ c.bpp = 8 ∨ c.bpp = 16 ∨ c.bpp = 24 ∨ c.bpp = 32) (hw : 0 < c.w)
    (hc : c.comp = 0) (hfit : c.rowStride ≤ q.maxRowBytes.val) : checkError q c = none := by
  rw [checkError, if_neg (not_not.2 hb), if_neg (by simp [hc]), if_neg (by omega), if_neg (by simp [hc]),
    if_neg (by omega), if_neg (by simp [hc])]

/-- CHECK passes a run-length configuration of the depth its compression takes whose indices fit (R225). -/
theorem checkError_of_rle {q : Params} {c : Latched} (hw : 0 < c.w)
    (hc : c.comp = 1 ∧ c.bpp = 8 ∨ c.comp = 2 ∧ c.bpp = 4) (hfit : c.size ≤ q.maxIndexBytes.val) :
    checkError q c = none := by
  rcases hc with ⟨hc, hb⟩ | ⟨hc, hb⟩ <;>
    rw [checkError, if_neg (by simp [hb]), if_neg (by simp [hc]), if_neg (by omega), if_neg (by simp [hc, hb]),
      if_neg (by simp [hc]), if_neg (by omega)]

/-- Settles O35: no check fails, and each compression accepts into its own path. -/
theorem checkAcceptsALegalConfiguration : Obligations.CheckAcceptsALegalConfiguration := by
  intro s hp hb hw
  refine ⟨fun ⟨hc, hfit⟩ => ?_, fun ⟨hc, hb, hfit⟩ => ?_, fun ⟨hc, hb, hfit⟩ => ?_⟩
  · rw [engineStep_of_accepted hp (checkError_of_rgb hb hw hc hfit), accept, nextPhase]
    simp only [hc, if_true, Latched.rowCount, Int.natAbs_eq_zero]
    split_ifs <;> rfl
  · rw [engineStep_of_accepted hp (checkError_of_rle hw (.inl ⟨hc, hb⟩) hfit), accept, nextPhase, hc]
    rfl
  · rw [engineStep_of_accepted hp (checkError_of_rle hw (.inr ⟨hc, hb⟩) hfit), accept, nextPhase, hc]
    rfl

/-! ### The parts of the invariant

`StateInv` guards each of its rules by the phases it speaks of. Here the same is said by phase: what holds in every
state (`State.Canonical`, the range of the latched values, `State.ReportsAgree`), and what each phase asks for
(`State.InvAt`). A step then shows what the phase it leads to asks for, from what its own phase gave. -/

/-- The memories are in their canonical form. -/
structure State.Canonical (s : State) : Prop where
  src : s.src.wf = true
  idx : s.idx.wf = true
  row : s.row.wf = true

/-- What the flags and counters say of one another, whatever the phase (R27 to R29, R43, R44, R251). -/
structure State.ReportsAgree (s : State) : Prop where
  truncExact   : s.trunc = true ↔ s.rleEnd = .inEnd
  ioerrExact   : s.ioerr = true ↔ s.ioerrCount ≠ 0
  ioerrRows    : s.ioerrCount.toNat ≤ s.rowsEmitted.toNat
  firstRowNone : s.ioerr = false → s.ioerrFirstRow = 0xFFFFFFFF
  firstRowSome : s.ioerr = true → s.ioerrFirstRow.toNat < s.rowsEmitted.toNat
  ioerrPath    : s.ioerr = true → s.cfg.comp = 0
  shortPath    : s.payloadShort = true → s.cfg.comp = 1 ∨ s.cfg.comp = 2

/-- No decode of an accepted configuration has reported anything yet (R25, R29, R30, R42). -/
structure State.NothingReported (s : State) : Prop where
  path   : s.path = .none
  rleEnd : s.rleEnd = .none
  short  : s.payloadShort = false
  rows   : s.rowsEmitted = 0

/-- CHECK has accepted the latched configuration and reported it (R225, R226). -/
structure State.Accepted (s : State) : Prop where
  err     : s.err = .none
  checked : checkError s.params s.cfg = none
  path    : s.path = pathOf s.cfg.comp
  stride  : s.stride = BitVec.ofNat 32 (min s.cfg.rowStride 4294967295)

/-- IDX and the payload position of a run-length decode (R31, R66, R120). -/
structure State.IndexInUse (s : State) : Prop where
  comp    : s.cfg.comp ≠ 0
  mode    : modeOf s.cfg.comp = some s.mode
  ip      : s.ip ≤ s.p.length
  inside  : ∀ c ∈ s.idx, c.1 < s.cfg.size
  nibbles : s.mode = .rle4 → ∀ c ∈ s.idx, c.2.toNat < 16

/-- Row `r` is the next of the rows the decode still emits (R42, R48). -/
structure State.RowNext (s : State) : Prop where
  left  : s.r < s.cfg.rowCount
  count : s.rowsEmitted.toNat = s.r

/-- No row is emitted yet (R42, R48). -/
structure State.NoRow (s : State) : Prop where
  r    : s.r = 0
  rows : s.rowsEmitted = 0

theorem State.NoRow.count {s : State} (h : s.NoRow) : s.rowsEmitted.toNat = s.r := by
  rw [h.r, h.rows]; rfl

/-- What the invariant asks of a state in phase `p`, beside what holds in every phase. -/
def State.InvAt (s : State) (p : Phase) : Prop :=
  match p with
  | .idle => s.err = .none ∧ s.NothingReported
  | .check => s.err = .none ∧ s.NothingReported ∧ s.NoRow
  | .rleLoad => s.Accepted ∧ s.cfg.comp ≠ 0 ∧ s.rleEnd = .none ∧ s.payloadShort = false ∧ s.NoRow
  | .rleDecode => s.Accepted ∧ s.IndexInUse ∧ s.rleEnd = .none ∧ s.NoRow
  | .rleEmit => s.Accepted ∧ s.IndexInUse ∧ s.rleEnd ≠ .none ∧ s.RowNext
  | .rgbRow => s.Accepted ∧ s.cfg.comp = 0 ∧ s.rleEnd = .none ∧ s.RowNext
  | .done => s.Accepted ∧ (s.rleEnd = .none ↔ s.cfg.comp = 0) ∧ s.rowsEmitted.toNat = s.cfg.rowCount
  | .error => s.err ≠ .none ∧ s.NothingReported

theorem StateInv.canonical {s : State} (h : StateInv s) : s.Canonical :=
  ⟨h.srcCanonical, h.idxCanonical, h.rowCanonical⟩

theorem StateInv.reportsAgree {s : State} (h : StateInv s) : s.ReportsAgree := { h with }

theorem StateInv.err_none {s : State} (h : StateInv s) (hp : s.phase ≠ .error) : s.err = .none := by
  by_contra he
  exact hp (h.errExact.1 he)

theorem StateInv.accepted {s : State} (h : StateInv s) (hp : s.phase.accepted = true) : s.Accepted :=
  ⟨h.err_none fun he => by simp [he, Phase.accepted] at hp, h.checked hp, h.pathIs hp, h.strideIs hp⟩

theorem StateInv.indexInUse {s : State} (h : StateInv s) (hp : s.phase.usesIndex = true) : s.IndexInUse :=
  ⟨h.rlePath (.inr hp), h.modeIs hp, h.ipInside hp, h.idxInside hp, h.idxNibbles hp⟩

theorem StateInv.noRow {s : State} (h : StateInv s)
    (hp : s.phase = .check ∨ s.phase = .rleLoad ∨ s.phase = .rleDecode) : s.NoRow := by
  have hrows : s.rowsEmitted = 0 := h.rowsElse (by tauto)
  have hr := h.rowsWhileBusy ((busy_iff s).2 (by tauto))
  rw [hrows] at hr
  exact ⟨hr.symm, hrows⟩

theorem StateInv.nothingReported {s : State} (h : StateInv s)
    (hp : s.phase = .idle ∨ s.phase = .check ∨ s.phase = .error) : s.NothingReported := by
  have hpath : s.path = .none := h.pathNone (by rcases hp with hp | hp | hp <;> rw [hp] <;> rfl)
  have hend : s.rleEnd = .none := by
    rcases hp with hp | hp | hp
    · exact h.noDecode (.inl hp)
    · exact h.decodeRunning ((busy_iff s).2 (.inl hp)) (by simp [hp])
    · exact h.noDecode (.inr hp)
  exact ⟨hpath, hend, h.shortUnread (by tauto), h.rowsElse (by tauto)⟩

/-- What the invariant says of a state in phase `p`. -/
theorem StateInv.invAt {s : State} (h : StateInv s) {p : Phase} (hp : s.phase = p) : s.InvAt p := by
  have hb := busy_iff s
  cases p with
  | idle => exact ⟨h.err_none (by simp [hp]), h.nothingReported (.inl hp)⟩
  | check => exact ⟨h.err_none (by simp [hp]), h.nothingReported (by simp [hp]), h.noRow (.inl hp)⟩
  | rleLoad =>
    exact ⟨h.accepted (by rw [hp]; rfl), h.rlePath (.inl hp), h.decodeRunning (hb.2 (by simp [hp])) (by simp [hp]),
      h.shortUnread (by simp [hp]), h.noRow (by simp [hp])⟩
  | rleDecode =>
    exact ⟨h.accepted (by rw [hp]; rfl), h.indexInUse (by rw [hp]; rfl),
      h.decodeRunning (hb.2 (by simp [hp])) (by simp [hp]), h.noRow (by simp [hp])⟩
  | rleEmit =>
    exact ⟨h.accepted (by rw [hp]; rfl), h.indexInUse (by rw [hp]; rfl), h.decodeEnded hp, h.emitRowLeft hp,
      h.rowsWhileBusy (hb.2 (by simp [hp]))⟩
  | rgbRow =>
    obtain ⟨hcomp, hr⟩ := h.rgbPath hp
    exact ⟨h.accepted (by rw [hp]; rfl), hcomp, h.decodeRunning (hb.2 (by simp [hp])) (by simp [hp]), hr,
      h.rowsWhileBusy (hb.2 (by simp [hp]))⟩
  | done => exact ⟨h.accepted (by rw [hp]; rfl), h.endWhenDone hp, h.rowsWhenDone hp⟩
  | error => exact ⟨h.errExact.2 hp, h.nothingReported (by simp [hp])⟩

theorem State.InvAt.err_iff {s : State} {p : Phase} (h : s.InvAt p) : s.err ≠ .none ↔ p = .error := by
  cases p with
  | idle | check => simp [h.1]
  | rleLoad | rleDecode | rleEmit | rgbRow | done => simp [h.1.err]
  | error => simp [h.1]

theorem State.InvAt.accepted {s : State} {p : Phase} (h : s.InvAt p) (hp : p.accepted = true) : s.Accepted := by
  cases p with
  | idle | check | error => cases hp
  | rleLoad | rleDecode | rleEmit | rgbRow | done => exact h.1

theorem State.InvAt.nothingReported {s : State} {p : Phase} (h : s.InvAt p) (hp : p.accepted = false) :
    s.NothingReported := by
  cases p with
  | idle | error => exact h.2
  | check => exact h.2.1
  | rleLoad | rleDecode | rleEmit | rgbRow | done => cases hp

theorem State.InvAt.indexInUse {s : State} {p : Phase} (h : s.InvAt p) (hp : p.usesIndex = true) :
    s.IndexInUse := by
  cases p with
  | rleDecode | rleEmit => exact h.2.1
  | idle | check | rleLoad | rgbRow | done | error => cases hp

theorem State.InvAt.noRow {s : State} {p : Phase} (h : s.InvAt p)
    (hp : p = .check ∨ p = .rleLoad ∨ p = .rleDecode) : s.NoRow := by
  rcases hp with rfl | rfl | rfl
  · obtain ⟨-, -, hz⟩ := h; exact hz
  · obtain ⟨-, -, -, -, hz⟩ := h; exact hz
  · obtain ⟨-, -, -, hz⟩ := h; exact hz

theorem State.InvAt.rowNext {s : State} {p : Phase} (h : s.InvAt p) (hp : p = .rleEmit ∨ p = .rgbRow) :
    s.RowNext := by
  rcases hp with rfl | rfl
  · obtain ⟨-, -, -, hrow⟩ := h; exact hrow
  · obtain ⟨-, -, -, hrow⟩ := h; exact hrow

theorem State.InvAt.rleEnd_none {s : State} {p : Phase} (h : s.InvAt p)
    (hp : p = .check ∨ p = .rleLoad ∨ p = .rleDecode ∨ p = .rgbRow) : s.rleEnd = .none := by
  rcases hp with rfl | rfl | rfl | rfl
  · obtain ⟨-, hn, -⟩ := h; exact hn.rleEnd
  · obtain ⟨-, -, hend, -⟩ := h; exact hend
  · obtain ⟨-, -, hend, -⟩ := h; exact hend
  · obtain ⟨-, -, hend, -⟩ := h; exact hend

/-- The parts make up the invariant: each of its fields is one of theirs in the phases it speaks of. -/
theorem StateInv.of_parts {s : State} {p : Phase} (hp : s.phase = p) (hc : s.Canonical) (hl : s.cfg.InRange)
    (ha : s.ReportsAgree) (h : s.InvAt p) : StateInv s := by
  subst hp
  have hat : ∀ {p}, s.phase = p → s.InvAt p := fun hp => hp ▸ h
  have hnothing : ∀ {p}, s.phase = p → p.accepted = false → s.NothingReported := fun hp => (hat hp).nothingReported
  refine { ha with
    srcCanonical := hc.src, idxCanonical := hc.idx, rowCanonical := hc.row, latchedRange := hl
    errExact := h.err_iff
    pathNone := fun hn => (h.nothingReported hn).path
    checked := fun hn => (h.accepted hn).checked
    pathIs := fun hn => (h.accepted hn).path
    strideIs := fun hn => (h.accepted hn).stride
    modeIs := fun hn => (h.indexInUse hn).mode
    ipInside := fun hn => (h.indexInUse hn).ip
    idxInside := fun hn => (h.indexInUse hn).inside
    idxNibbles := fun hn => (h.indexInUse hn).nibbles
    decodeRunning := fun hb hq => h.rleEnd_none (by have := (busy_iff s).1 hb; tauto)
    emitRowLeft := fun hq => (h.rowNext (.inl hq)).left
    rgbPath := fun hq => ?rgbPath
    rlePath := fun hq => ?rlePath
    decodeEnded := fun hq => ?decodeEnded
    noDecode := fun hq => ?noDecode
    endWhenDone := fun hq => ?endWhenDone
    shortUnread := fun hq => ?shortUnread
    rowsWhileBusy := fun hb => ?rowsWhileBusy
    rowsWhenDone := fun hq => ?rowsWhenDone
    rowsElse := fun hq => ?rowsElse }
  case rgbPath =>
    obtain ⟨-, hcomp, -, hrow⟩ := hat hq
    exact ⟨hcomp, hrow.left⟩
  case rlePath =>
    rcases hq with hq | hq
    · obtain ⟨-, hcomp, -⟩ := hat hq
      exact hcomp
    · exact (h.indexInUse hq).comp
  case decodeEnded =>
    obtain ⟨-, -, hend, -⟩ := hat hq
    exact hend
  case noDecode => rcases hq with hq | hq <;> exact (hnothing hq rfl).rleEnd
  case endWhenDone =>
    obtain ⟨-, hend, -⟩ := hat hq
    exact hend
  case shortUnread =>
    rcases hq with hq | hq | hq | hq
    · exact (hnothing hq rfl).short
    · exact (hnothing hq rfl).short
    · obtain ⟨-, -, -, hshort, -⟩ := hat hq
      exact hshort
    · exact (hnothing hq rfl).short
  case rowsWhileBusy =>
    rcases (busy_iff s).1 hb with hq | hq | hq | hq | hq
    · exact (h.noRow (.inl hq)).count
    · exact (h.noRow (.inr (.inl hq))).count
    · exact (h.noRow (.inr (.inr hq))).count
    · exact (h.rowNext (.inl hq)).count
    · exact (h.rowNext (.inr hq)).count
  case rowsWhenDone =>
    obtain ⟨-, -, hrows⟩ := hat hq
    exact hrows
  case rowsElse =>
    rcases hq with hq | hq | hq | hq | hq
    · exact (hnothing hq rfl).rows
    · exact (hnothing hq rfl).rows
    · exact (h.noRow (.inr (.inl hq))).rows
    · exact (h.noRow (.inr (.inr hq))).rows
    · exact (hnothing hq rfl).rows

/-! ### The host's accesses and reset -/

theorem reset_inRange : Latched.reset.InRange := by
  constructor <;> decide

theorem reset_reportsAgree : State.reset.ReportsAgree := by
  constructor <;> decide

theorem stateInv_applyReset {s : State} (hsrc : s.src.wf = true) : StateInv (applyReset s) :=
  .of_parts (p := .idle) rfl ⟨hsrc, rfl, rfl⟩ reset_inRange { reset_reportsAgree with } ⟨rfl, rfl, rfl, rfl, rfl⟩

/-- A 32-bit register latches a 32-bit value (R34). -/
theorem latch_inRange (s : State) : (latch s).InRange :=
  ⟨BitVec.le_toInt s.width, BitVec.toInt_lt, BitVec.le_toInt s.height, BitVec.toInt_lt, s.dataOffset.isLt,
    s.srcLen.isLt⟩

theorem StateInv.startDecode {s : State} (h : StateInv s) (hb : s.busy = false) : StateInv (startDecode s) := by
  rw [startDecode_of_not_busy hb]
  exact .of_parts (p := .check) rfl { h.canonical with } (latch_inRange s)
    { reset_reportsAgree with ioerrPath := nofun, shortPath := nofun } ⟨rfl, ⟨rfl, rfl, rfl, rfl⟩, rfl, rfl⟩

theorem StateInv.storeConfig {s : State} (h : StateInv s) (q : HostReg) (v : Word) :
    StateInv (storeConfig q v s) := by
  cases q <;> exact { h with }

theorem HostEffect.keeps_inv {a : HostAccess} {s t : State} (he : HostEffect a s t) (h : StateInv s) :
    StateInv t := by
  cases he with
  | starts _ _ _ hb ht => rw [ht]; exact h.startDecode hb
  | stores _ _ _ _ q _ ht => rw [ht]; exact h.storeConfig q _
  | ignored ht => rw [ht]; exact h
  | reads _ ht => rw [ht]; exact { h with }

/-! ### CHECK -/

theorem ne_none_of_checkError {q : Params} {c : Latched} {code : ErrCode} (h : checkError q c = some code) :
    code ≠ .none := by
  rintro rfl
  unfold checkError at h
  split_ifs at h <;> cases h

theorem StateInv.raiseFatal {s : State} (h : StateInv s) (hp : s.phase = .check) {code : ErrCode}
    (hc : checkError s.params s.cfg = some code) : StateInv (raiseFatal code s) := by
  obtain ⟨-, hn, -⟩ := h.invAt hp
  exact .of_parts (p := .error) rfl { h.canonical with } h.latchedRange { h.reportsAgree with }
    ⟨ne_none_of_checkError hc, { hn with path := rfl }⟩

theorem StateInv.accept {s : State} (h : StateInv s) (hp : s.phase = .check)
    (hc : checkError s.params s.cfg = none) : StateInv (accept s) := by
  obtain ⟨herr, hn, hz⟩ := h.invAt hp
  unfold Machine.accept nextPhase
  dsimp only
  split_ifs with hcomp hL
  · exact .of_parts (p := .done) rfl { h.canonical with } h.latchedRange { h.reportsAgree with }
      ⟨⟨herr, hc, rfl, rfl⟩, iff_of_true hn.rleEnd hcomp, by simp [hn.rows, hL]⟩
  · exact .of_parts (p := .rgbRow) rfl { h.canonical with } h.latchedRange { h.reportsAgree with }
      ⟨⟨herr, hc, rfl, rfl⟩, hcomp, hn.rleEnd, Nat.pos_of_ne_zero hL, by simp [hn.rows]⟩
  · exact .of_parts (p := .rleLoad) rfl { h.canonical with } h.latchedRange { h.reportsAgree with }
      ⟨⟨herr, hc, rfl, rfl⟩, hcomp, hn.rleEnd, hn.short, { hz with }⟩

/-! ### The run-length path -/

theorem comp_of_modeOf {comp : Word} {m : Mode} (h : modeOf comp = some m) : comp = 1 ∨ comp = 2 := by
  unfold modeOf at h
  split_ifs at h with h1 h2
  · exact .inl h1
  · exact .inr h2

/-- RLE_LOAD: nothing of the new payload is consumed, and IDX is empty (R65, R66). -/
theorem StateInv.rleLoad {s : State} (h : StateInv s) (hp : s.phase = .rleLoad) {m : Mode}
    (hm : modeOf s.cfg.comp = some m) (bytes : List Byte) (short : Bool) :
    StateInv { afterSrcRead s with
      mode := m, p := bytes, payloadShort := short, idx := [], ip := 0, op := 0, rleEnd := .none
      phase := .rleDecode } := by
  obtain ⟨hacc, hcomp, hend, -, hz⟩ := h.invAt hp
  exact .of_parts (p := .rleDecode) rfl { h.canonical with idx := rfl } h.latchedRange
    { h.reportsAgree with truncExact := hend ▸ h.truncExact, shortPath := fun _ => comp_of_modeOf hm }
    ⟨{ hacc with }, ⟨hcomp, hm, Nat.zero_le _, nofun, fun _ => nofun⟩, rfl, { hz with }⟩

theorem truncOf_iff (e : RleEnd) : truncOf e = true ↔ e = .inEnd := by
  cases e <;> decide

/-- The decode loop ends (R121, R136): the rows of IDX are next, or there are none. -/
theorem StateInv.stop {s : State} (h : StateInv s) (hp : s.phase = .rleDecode) {e : RleEnd} (he : e ≠ .none)
    {k : Nat} (hk : k ≤ s.p.length - s.ip) : StateInv (stop e (consume k s)) := by
  obtain ⟨hacc, hidx, -, hz⟩ := h.invAt hp
  have hip : s.ip + k ≤ s.p.length := by have := hidx.ip; omega
  have hagree : (Machine.stop e (consume k s)).ReportsAgree := { h.reportsAgree with truncExact := truncOf_iff e }
  have hphase := stop_phase e (consume k s)
  split_ifs at hphase with hL
  · exact .of_parts hphase { h.canonical with } h.latchedRange hagree
      ⟨{ hacc with }, iff_of_false he hidx.comp, by simpa [hz.rows] using hL.symm⟩
  · exact .of_parts hphase { h.canonical with } h.latchedRange hagree
      ⟨{ hacc with }, { hidx with ip := hip }, he, Nat.pos_of_ne_zero hL, by simp [hz.rows]⟩

theorem wf_putList {s : State} (h : s.idx.wf = true) (vs : List Byte) : (putList vs s).idx.wf = true := by
  obtain ⟨idx, hs, hw⟩ := putList_spec vs s
  rw [hs]
  exact (hw h).1

/-- IDX after more indices: they lie inside it, and in RLE4 mode they are nibbles (R66). -/
theorem State.IndexInUse.putList {s : State} (h : s.IndexInUse) {vs : List Byte}
    (hv : s.mode = .rle4 → ∀ v ∈ vs, v.toNat < 16) {k : Nat} (hk : s.ip + k ≤ s.p.length) :
    (consume k (putList vs s)).IndexInUse := by
  have hmem := fun c => mem_putList (vs := vs) (s := s) (c := c)
  obtain ⟨idx, hs, -⟩ := putList_spec vs s
  rw [hs] at hmem ⊢
  refine { h with ip := hk, inside := fun c hc => ?_, nibbles := fun hm c hc => ?_ }
  · rcases hmem c hc with hold | ⟨hin, -⟩
    · exact h.inside c hold
    · exact hin
  · rcases hmem c hc with hold | ⟨-, hnew⟩
    · exact h.nibbles hm c hold
    · exact hv hm _ hnew

/-- A command leaves the decode where it was, with IDX written or the cursor moved, or ends it. -/
theorem StateInv.executes {s t : State} {i : Instr} {after : List Byte} (h : StateInv s) (hp : s.phase = .rleDecode)
    (hi : fetch s = .ok (i, after)) (hr : RleEffect i (consume 2 s) t) : StateInv t := by
  obtain ⟨hacc, hidx, hend, hz⟩ := h.invAt hp
  have hlen := length_encodeBytes_of_fetch hi
  cases hr with
  | writes vs k hv hk ht =>
    have hip : s.ip + (2 + k) ≤ s.p.length := by have := hidx.ip; omega
    have hidx' := hidx.putList (fun hm => hv ((decode_isRle hi).2 hm)) hip
    have hw := wf_putList h.idxCanonical vs
    rw [putList_consume, consume_consume] at ht
    obtain ⟨idx, hs, -⟩ := putList_spec vs s
    rw [hs] at ht hidx' hw
    rw [ht]
    exact .of_parts (p := .rleDecode) hp { h.canonical with idx := hw } h.latchedRange { h.reportsAgree with }
      ⟨{ hacc with }, hidx', hend, { hz with }⟩
  | moves k d hk ht =>
    have hip : s.ip + 2 + k ≤ s.p.length := by have := hidx.ip; omega
    rw [ht]
    exact .of_parts (p := .rleDecode) hp { h.canonical with } h.latchedRange { h.reportsAgree with }
      ⟨{ hacc with }, { hidx with ip := hip }, hend, { hz with }⟩
  | stops e he hk ht => rw [ht]; exact h.stop hp he (by omega)

/-! ### The rows -/

theorem State.RowNext.toNat_succ {s : State} (h : s.RowNext) (hl : s.cfg.InRange) :
    (s.rowsEmitted + 1).toNat = s.r + 1 := by
  have hlt := hl.rowCount_lt
  have hleft := h.left
  rw [BitVec.toNat_add, h.count]
  exact Nat.mod_eq_of_lt (by simp; omega)

theorem State.ReportsAgree.countRow {s : State} (h : s.ReportsAgree) (hr : s.RowNext) (hl : s.cfg.InRange) :
    ({ s with rowsEmitted := s.rowsEmitted + 1 } : State).ReportsAgree := by
  have hsucc : (s.rowsEmitted + 1).toNat = s.rowsEmitted.toNat + 1 := by rw [hr.toNat_succ hl, hr.count]
  exact { h with
    ioerrRows := hsucc ▸ Nat.le_succ_of_le h.ioerrRows
    firstRowSome := fun hio => hsucc ▸ Nat.lt_succ_of_lt (h.firstRowSome hio) }

/-- The error counter has not reached the row counter's bound, so it does not saturate (R43). -/
theorem State.ReportsAgree.toNat_ioerrCount {s : State} (h : s.ReportsAgree) (hr : s.RowNext) (hl : s.cfg.InRange) :
    (recordIoError s).ioerrCount.toNat = s.ioerrCount.toNat + 1 := by
  have hlt := hl.rowCount_lt
  have hleft := hr.left
  have hcount := hr.count
  have hrows := h.ioerrRows
  have hroom : s.ioerrCount ≠ 0xFFFFFFFF := fun hc => by
    have hmax : s.ioerrCount.toNat = 4294967295 := by rw [hc]; rfl
    omega
  rw [recordIoError_ioerrCount, if_neg hroom, BitVec.toNat_add]
  exact Nat.mod_eq_of_lt (by simp; omega)

/-- The first row with an IoError is the row of the step or an earlier one (R44). -/
theorem State.ReportsAgree.toNat_ioerrFirstRow_le {s : State} (h : s.ReportsAgree) (hr : s.RowNext)
    (hl : s.cfg.InRange) : (recordIoError s).ioerrFirstRow.toNat ≤ s.r := by
  rw [recordIoError_ioerrFirstRow]
  split_ifs with hf
  · have hlt := hl.rowCount_lt
    have hleft := hr.left
    rw [BitVec.toNat_ofNat, Nat.mod_eq_of_lt (by omega)]
  · have hio : s.ioerr = true := Bool.not_eq_false _ ▸ fun hno => hf (h.firstRowNone hno)
    exact hr.count ▸ (h.firstRowSome hio).le

/-- A row with an IoError is counted as one (R43, R44, R177). -/
theorem State.ReportsAgree.countRow_recordIoError {s : State} (h : s.ReportsAgree) (hr : s.RowNext)
    (hl : s.cfg.InRange) (hcomp : s.cfg.comp = 0) :
    ({ recordIoError s with rowsEmitted := s.rowsEmitted + 1 } : State).ReportsAgree := by
  have hsucc := hr.toNat_succ hl
  have hcount := h.toNat_ioerrCount hr hl
  refine { h with
    ioerrExact := iff_of_true rfl fun hz => ?_
    ioerrRows := ?_
    firstRowNone := nofun
    firstRowSome := fun _ => hsucc ▸ Nat.lt_succ_of_le (h.toNat_ioerrFirstRow_le hr hl)
    ioerrPath := fun _ => hcomp }
  · rw [hz] at hcount
    exact Nat.succ_ne_zero _ hcount.symm
  · have hrows := hr.count ▸ h.ioerrRows
    rw [hcount, hsucc]
    exact Nat.succ_le_succ hrows

theorem State.RowNext.emitRow {s : State} (h : s.RowNext) (hl : s.cfg.InRange) (hlast : s.r + 1 ≠ s.cfg.rowCount)
    (d : List Byte) (b q : Byte) (e : Bool) : (Machine.emitRow d b q e s).RowNext :=
  ⟨Nat.lt_of_le_of_ne h.left hlast, h.toNat_succ hl⟩

/-- A slice of IDX is emitted (R182): the next row is left, or the decode is done. -/
theorem StateInv.emitSlice {s : State} (h : StateInv s) (hp : s.phase = .rleEmit) (d : List Byte) (b q : Byte) :
    StateInv (emitRow d b q false s) := by
  obtain ⟨hacc, hidx, hend, hrow⟩ := h.invAt hp
  have hl := h.latchedRange
  have hphase := emitRow_phase d b q false s
  split_ifs at hphase with hlast
  · exact .of_parts hphase { h.canonical with } hl { h.reportsAgree.countRow hrow hl with }
      ⟨{ hacc with }, iff_of_false hend hidx.comp, (hrow.toNat_succ hl).trans hlast⟩
  · exact .of_parts (hphase.trans hp) { h.canonical with } hl { h.reportsAgree.countRow hrow hl with }
      ⟨{ hacc with }, { hidx with }, hend, hrow.emitRow hl hlast d b q false⟩

/-- The emitting half of RGB_ROW (R176): the next row is left, or the decode is done. -/
theorem StateInv.emitRow_of_rgbRow {s : State} (hp : s.phase = .rgbRow) (hc : s.Canonical) (hl : s.cfg.InRange)
    (h : s.InvAt .rgbRow) (hagree : ({ s with rowsEmitted := s.rowsEmitted + 1 } : State).ReportsAgree)
    (d : List Byte) (b q : Byte) (e : Bool) : StateInv (emitRow d b q e s) := by
  obtain ⟨hacc, hcomp, hend, hrow⟩ := h
  have hphase := emitRow_phase d b q e s
  split_ifs at hphase with hlast
  · exact .of_parts hphase { hc with } hl { hagree with }
      ⟨{ hacc with }, iff_of_true hend hcomp, (hrow.toNat_succ hl).trans hlast⟩
  · exact .of_parts (hphase.trans hp) { hc with } hl { hagree with }
      ⟨{ hacc with }, hcomp, hend, hrow.emitRow hl hlast d b q e⟩

/-- A row of the source is read, reordered and emitted (R176, R177). -/
theorem StateInv.emitRgbRow {s : State} (h : StateInv s) (hp : s.phase = .rgbRow) (e : Bool) {row : Memory}
    (hw : row.wf = true) : StateInv (emitRgbRow e
      { (if e = true then recordIoError else id) (afterSrcRead s) with row := row }) := by
  obtain ⟨hacc, hcomp, hend, hrow⟩ := h.invAt hp
  have hl := h.latchedRange
  have ha := h.reportsAgree
  cases e with
  | false =>
    exact .emitRow_of_rgbRow (s := { afterSrcRead s with row := row }) hp { h.canonical with row := hw } hl
      ⟨{ hacc with }, hcomp, hend, { hrow with }⟩ { ha.countRow hrow hl with } _ _ _ _
  | true =>
    exact .emitRow_of_rgbRow (s := { recordIoError (afterSrcRead s) with row := row }) hp
      { h.canonical with row := hw } hl ⟨{ hacc with }, hcomp, hend, { hrow with }⟩
      { ha.countRow_recordIoError hrow hl hcomp with } _ _ _ _

/-! ### Every step -/

theorem EngineEffect.keeps_inv {s t : State} (he : EngineEffect s t) (h : StateInv s) : StateInv t := by
  cases he with
  | rests _ ht => rw [ht]; exact h
  | fails code hp hc ht => rw [ht]; exact h.raiseFatal hp hc
  | accepts hp hc ht => rw [ht]; exact h.accept hp hc
  | loads m bytes short hp hm _ ht => rw [ht]; exact h.rleLoad hp hm bytes short
  | stops e k hp hne hk ht => rw [ht]; exact h.stop hp hne hk
  | executes i after hp _ hi _ hr => exact h.executes hp hi hr
  | waits _ _ ht => rw [ht]; exact h
  | emitsSlice hp _ ht => rw [ht]; exact h.emitSlice hp _ _ _
  | emitsRow row e hp _ hw ht => rw [ht]; exact h.emitRgbRow hp e hw

/-- Settles O47, by everything a step can do. -/
theorem stepKeepsTheInvariant : Obligations.StepKeepsTheInvariant := by
  intro s t h hstep
  cases step_effect hstep with
  | engine rest _ he => exact he.keeps_inv (h.with_inputs rest)
  | access _ rest _ he => exact he.keeps_inv (h.with_inputs rest)
  | reset _ _ ht => rw [ht]; exact stateInv_applyReset h.srcCanonical
  | srcWrite a b _ _ ht =>
    rw [ht]; exact { h with srcCanonical := Memory.wf_write h.srcCanonical a.toNat b }
  | sink _ _ _ ht => rw [ht]; exact { h with }

end Sys2Proof.Machine

/-! PROOFS of the family 60_exceptions.md: the order of CHECK's failures (R225, R241 to R246, R250), the only way into
ERROR (R243, R255) and the two ways out of it (R254). -/

namespace Sys2Proof.Machine

/-! ### The failures of CHECK, in their order (R225, R250) -/

theorem engineStep_of_failed {s : State} {code : ErrCode} (hp : s.phase = .check)
    (hc : checkError s.params s.cfg = some code) : engineStep s = .next (raiseFatal code s) := by
  rw [engineStep_of_check hp, checkStep, hc]

/-- The legal compressions are the values up to 2 (R242). -/
theorem legal_compression_iff (comp : Word) : comp = 0 ∨ comp = 1 ∨ comp = 2 ↔ comp.toNat ≤ 2 := by
  constructor
  · rintro (rfl | rfl | rfl) <;> decide
  · intro h
    bv_omega

/-- Settles O34: down the chain of checks, the first one that fails gives the code. -/
theorem checkReportsTheFirstFailure : Obligations.CheckReportsTheFirstFailure := by
  intro s code hp h
  refine engineStep_of_failed hp ?_
  rw [checkError]
  rcases h with ⟨rfl, hdepth⟩ | ⟨hdepth, h⟩
  · rw [if_pos hdepth]
  rw [if_neg (not_not.2 hdepth)]
  rcases h with ⟨rfl, hcomp⟩ | ⟨hcomp, h⟩
  · rw [if_pos (mt (legal_compression_iff _).1 (not_le.2 hcomp))]
  have hlegal := (legal_compression_iff _).2 hcomp
  rw [if_neg (not_not.2 hlegal)]
  rcases h with ⟨rfl, hw⟩ | ⟨hw, h⟩
  · rw [if_pos hw]
  rw [if_neg (not_le.2 hw)]
  rcases h with ⟨rfl, hcombination⟩ | ⟨hcombination, rfl, hrow | ⟨hrle, hindex⟩⟩
  · rw [if_pos hcombination]
  · rw [if_neg hcombination]
    exact if_pos hrow
  · rw [if_neg hcombination, if_neg (fun hrgb => hrle hrgb.1)]
    exact if_pos ⟨hlegal.resolve_left hrle, hindex⟩

/-! ### The only way into ERROR (R243, R255) -/

theorem accept_phase_ne_error (s : State) : (accept s).phase ≠ .error := by
  unfold accept nextPhase
  split_ifs <;> simp

theorem stop_phase_ne_error (e : RleEnd) (s : State) : (stop e s).phase ≠ .error := by
  rw [stop_phase]
  split_ifs <;> simp

theorem emitRow_phase_ne_error (data : List Byte) (bands bps : Byte) (ioErr : Bool) {s : State}
    (hp : s.phase ≠ .error) : (emitRow data bands bps ioErr s).phase ≠ .error := by
  rw [emitRow_phase]
  split_ifs
  · simp
  · exact hp

theorem RleEffect.phase_ne_error {i : Instr} {s t : State} (h : RleEffect i s t) (hp : s.phase ≠ .error) :
    t.phase ≠ .error := by
  rcases h.keeps_phase_or_stops with hq | ⟨e, rfl⟩
  · rwa [hq]
  · exact stop_phase_ne_error e s

/-- An engine step raises a fatal error in CHECK, or does not enter ERROR. -/
theorem EngineEffect.fails_or_phase_ne_error {s t : State} (h : EngineEffect s t) (hs : s.phase ≠ .error) :
    (s.phase = .check ∧ ∃ code, code ≠ .none ∧ t = raiseFatal code s) ∨ t.phase ≠ .error := by
  cases h with
  | fails code hp hc ht => exact .inl ⟨hp, code, ne_none_of_checkError hc, ht⟩
  | rests _ ht => exact .inr (ht ▸ hs)
  | waits _ _ ht => exact .inr (ht ▸ hs)
  | accepts _ _ ht => exact .inr (ht ▸ accept_phase_ne_error s)
  | loads _ _ _ _ _ _ ht => exact .inr (by simp [ht])
  | stops e _ _ _ _ ht => exact .inr (ht ▸ stop_phase_ne_error e _)
  | executes _ _ _ _ _ _ hr => exact .inr (hr.phase_ne_error hs)
  | emitsSlice _ _ ht => exact .inr (ht ▸ emitRow_phase_ne_error _ _ _ _ hs)
  | emitsRow _ e _ _ _ ht =>
    refine .inr (ht ▸ emitRow_phase_ne_error _ _ _ _ ?_)
    cases e <;> exact hs

/-- The host does not put the block into ERROR. -/
theorem HostEffect.phase_ne_error {a : HostAccess} {s t : State} (h : HostEffect a s t) (hs : s.phase ≠ .error) :
    t.phase ≠ .error := by
  cases h with
  | starts _ _ _ hb ht => rw [ht, startDecode_of_not_busy hb]; simp
  | stores _ _ v _ q _ ht => rw [ht, (storeConfig_keepsResults q v s).phase]; exact hs
  | ignored ht => rw [ht]; exact hs
  | reads _ ht => rw [ht]; exact hs

/-- Settles O36: of everything a step can do, only the engine's failure in CHECK enters ERROR. -/
theorem fatalErrorsComeFromCheckOnly : Obligations.FatalErrorsComeFromCheckOnly := by
  intro s t hstep ht hs
  cases step_effect hstep with
  | engine rest _ he =>
    rcases he.fails_or_phase_ne_error hs with ⟨hp, code, hcode, rfl⟩ | hne
    · exact ⟨hp, rfl, hcode, rfl, rfl⟩
    · exact absurd ht hne
  | access _ _ _ he => exact absurd ht (he.phase_ne_error hs)
  | reset _ _ h => rw [h] at ht; cases ht
  | srcWrite _ _ _ _ h => rw [h] at ht; exact absurd ht hs
  | sink _ _ _ h => rw [h] at ht; exact absurd ht hs

/-! ### The ways out of ERROR (R254) -/

/-- Settles O38: a step without START and reset keeps the results, ERR and the phase among them. -/
theorem errorIsLeftByStartOrReset : Obligations.ErrorIsLeftByStartOrReset := by
  intro s t hp hstep
  have hb : s.busy = false := by simp [State.busy, Phase.stateCode, hp]
  by_cases hreset : ∃ rest, s.inputs = .reset :: rest
  · obtain ⟨rest, hi⟩ := hreset
    obtain rfl := Host.Outcome.next.inj (hstep.symm.trans (step_of_reset hi))
    exact .inr (.inl ⟨rest, hi, rfl⟩)
  by_cases hstart : ∃ v rest, s.inputs = .access (.write 4 0 v) :: rest ∧ v.getLsbD 0 = true
  · obtain ⟨v, rest, hi, hv⟩ := hstart
    obtain rfl := Host.Outcome.next.inj (hstep.symm.trans (step_of_start hi hv))
    refine .inr (.inr ⟨v, rest, hi, hv, ?_⟩)
    rw [startDecode_of_not_busy (s := { s with inputs := rest }) hb]
  · have hk := step_keepsResults hb hstep
      (fun v rest hi => Bool.eq_false_iff.2 fun hv => hstart ⟨v, rest, hi, hv⟩)
      (fun rest hi => hreset ⟨rest, hi⟩)
    exact .inl ⟨hk.phase.trans hp, hk.err⟩

end Sys2Proof.Machine

/-! PROOFS of the family 70_reset_and_hazards.md: the end of every undisturbed decode (R278), the only writers of the
configuration registers (R270) and what a reset keeps (R271). -/

namespace Sys2Proof.Machine

/-! ### The end of an undisturbed decode (R278) -/

theorem StateInv.rowsDue_of_check {s : State} (h : StateInv s) (hp : s.phase = .check) : s.RowsDue := by
  simpa only [State.RowsDue, hp] using h.rowsElse (.inr (.inl hp))

theorem stepsLeft_of_check {s : State} (hp : s.phase = .check) : s.stepsLeft =
    1 + (if s.cfg.comp = 0 then 0 else 1 + (s.cfg.payloadExtent / 2 + 1)) + s.cfg.rowCount := by
  simp only [State.stepsLeft, hp]

/-- Settles O57: every step before the end lowers `stepsLeft`, which at CHECK is the count of R278. -/
theorem everyDecodeEnds : Obligations.EveryDecodeEnds := by
  intro s hinv hstart
  obtain ⟨hp, hin, hsink⟩ := hstart
  obtain ⟨k, t, hk, hrun, hend, -⟩ := undisturbed_decode_ends hin hsink hinv.latchedRange.rowCount_lt
    (hinv.rowsDue_of_check hp) (stepsLeft_of_check hp).le
  exact ⟨k, t, hk, hrun, hend⟩

/-! ### The writers of the configuration registers (R270) -/

/-- A host access that is no write touches no configuration, BUSY or not (R222). -/
theorem HostEffect.keepsConfig_of_not_write {a : HostAccess} {s t : State} (h : HostEffect a s t)
    (ha : ∀ w off v, a ≠ .write w off v) : KeepsConfig s t := by
  cases h with
  | starts v hstart => exact absurd hstart (ha 4 0 v)
  | stores w off v hstore => exact absurd hstore (ha w off v)
  | ignored ht => rw [ht]; exact .refl s
  | reads _ ht => rw [ht]; exact { KeepsConfig.refl s with }

/-- Without a register write and a reset no step touches the configuration, latched or not (R34, R270). -/
theorem step_keepsConfig_of_not_write {s t : State} (h : step s = .next t)
    (hwrite : ∀ w off v rest, s.inputs ≠ .access (.write w off v) :: rest)
    (hreset : ∀ rest, s.inputs ≠ .reset :: rest) : KeepsConfig s t := by
  cases step_effect h with
  | engine _ _ he => exact { he.keepsConfig with }
  | access _ rest hi he =>
    exact { he.keepsConfig_of_not_write fun w off v ha => hwrite w off v rest (ha ▸ hi) with }
  | reset rest hi _ => exact absurd hi (hreset rest)
  | srcWrite _ _ _ _ ht => rw [ht]; exact { KeepsConfig.refl s with }
  | sink _ _ _ ht => rw [ht]; exact { KeepsConfig.refl s with }

/-- Settles O51. -/
theorem configurationChangesByHostOrReset : Obligations.ConfigurationChangesByHostOrReset := by
  intro s t hstep hwrite hreset
  obtain ⟨-, hwidth, hheight, hbpp, hcomp, hoff, hlen⟩ := step_keepsConfig_of_not_write hstep hwrite hreset
  exact ⟨hwidth, hheight, hbpp, hcomp, hoff, hlen⟩

/-! ### What a reset keeps (R271) -/

/-- Settles O60: `applyReset` carries these fields over. -/
theorem resetKeepsTheTrace : Obligations.ResetKeepsTheTrace :=
  fun _ _ h => ⟨_, step_of_reset h, rfl, rfl, rfl, rfl, rfl, rfl⟩

end Sys2Proof.Machine

/-! PROOFS of the family other: what the decoder reads (30_encoding.md sections 1 and 2, R102), the engine's turn (log 2),
and the two halves of an invariant: reset meets it (R52), and every step keeps the memories canonical. -/

namespace Sys2Proof

/-! ### What the decoder reads (R90 to R102) -/

/-- Settles O2. -/
theorem encodeInvertsDecode : Obligations.EncodeInvertsDecode :=
  fun _ _ _ _ _ => encodeBytes_append_of_decode

/-- Complete operands: the literals, and a pad that makes their number even (R98, R99). -/
theorem length_operands_of_complete {n : Byte} {m : Nat} {lits : List Byte} {pad : Option Byte}
    (h : absOperandsComplete n m lits pad = true) : lits.length + (padBytes pad).length = m + m % 2 := by
  obtain ⟨-, hlits, hpad⟩ := (absOperandsComplete_iff n m lits pad).1 h
  rw [hlits, length_padBytes, hpad]
  rcases Nat.mod_two_eq_zero_or_one m with hm | hm <;> simp [hm]

theorem length_encodeBytes_abs8_of_wf {u : AbsUnit} {m : Mode} {n : Byte} {lits : List Byte} {pad : Option Byte}
    (h : (Instr.abs8 n lits pad).wf u m = true) :
    (encodeBytes (.abs8 n lits pad)).length = 2 + n.toNat + n.toNat % 2 := by
  rw [Instr.wf, Bool.and_eq_true] at h
  rw [length_encodeBytes_abs8, length_operands_of_complete h.2]
  omega

theorem length_encodeBytes_abs4_of_wf {u : AbsUnit} {m : Mode} {n : Byte} {lits : List Byte} {pad : Option Byte}
    (h : (Instr.abs4 n lits pad).wf u m = true) :
    (encodeBytes (.abs4 n lits pad)).length =
      2 + abs4LiteralBytes u n.toNat + abs4LiteralBytes u n.toNat % 2 := by
  rw [Instr.wf, Bool.and_eq_true] at h
  rw [length_encodeBytes_abs4, length_operands_of_complete h.2]
  omega

/-- A DELTA that is complete was decoded from a payload with both operand bytes (R101, R130). -/
theorem length_encodeBytes_of_delta {u : AbsUnit} {m : Mode} {bytes rest : List Byte} {i : Instr}
    (h : decodePair u m 0 2 bytes = (i, rest)) (hwf : i.wf u m = true) : (encodeBytes i).length = 4 := by
  match bytes, h with
  | [], h | [_], h => rw [decodePair_delta_cut u m (by simp)] at h; cases h; cases hwf
  | dx :: dy :: tail, h => rw [decodePair_delta] at h; cases h; rfl

/-- Settles O4, class by class of the pair. -/
theorem commandLengthFromThePair : Obligations.CommandLengthFromThePair := by
  intro u m b0 b1 after rest i hdecode hwf
  have hpair : decodePair u m b0 b1 after = (i, rest) := Except.ok.inj hdecode
  rcases pair_cases b0 b1 with h0 | ⟨rfl, rfl⟩ | ⟨rfl, rfl⟩ | ⟨rfl, rfl⟩ | ⟨rfl, h1⟩
  · rw [if_pos h0]
    cases m with
    | rle8 => rw [decodePair_rle8_run u h0] at hpair; cases hpair; rfl
    | rle4 => rw [decodePair_rle4_run u h0] at hpair; cases hpair; rfl
  · rw [decodePair_eol] at hpair; cases hpair; rfl
  · rw [decodePair_eob] at hpair; cases hpair; rfl
  · exact length_encodeBytes_of_delta hpair hwf
  · obtain ⟨hne0, hne1, hne2⟩ := ne_of_three_le h1
    rw [if_neg (not_not.2 rfl), if_neg (not_or.2 ⟨hne0, hne1⟩), if_neg hne2]
    cases m with
    | rle8 =>
      rw [decodePair_abs8 u h1] at hpair; cases hpair
      exact length_encodeBytes_abs8_of_wf hwf
    | rle4 =>
      rw [decodePair_abs4 u h1] at hpair; cases hpair
      cases u <;> exact length_encodeBytes_abs4_of_wf hwf

namespace Machine

/-! ### The engine's turn (log 2) -/

theorem step_of_engine_turn {s : State} {rest : List Input} (h : s.inputs = .engine :: rest) :
    step s = engineStep { s with inputs := rest } := by
  simp only [step, machineStep, h, inputStep]

/-- Settles O6. -/
theorem stepTakesTheEnginesTurn : Obligations.StepTakesTheEnginesTurn :=
  ⟨fun _ => step_of_no_inputs, fun _ _ => step_of_engine_turn⟩

/-! ### Reset (R52, R270) -/

/-- Settles O46: the state after reset is the one a reset input leaves of it. -/
theorem resetMeetsTheInvariant : Obligations.ResetMeetsTheInvariant :=
  stateInv_applyReset (s := State.reset) Memory.wf_nil

/-! ### The canonical form of the memories

IDX changes by writes and by being emptied, ROW by being loaded and reordered, the source by the host's writes. -/

theorem State.Canonical.nextPhase {s : State} (h : s.Canonical) : (nextPhase s).Canonical := by
  unfold Machine.nextPhase
  split_ifs <;> exact { h with }

theorem State.Canonical.startDecode {s : State} (h : s.Canonical) (hb : s.busy = false) :
    (startDecode s).Canonical := by
  rw [startDecode_of_not_busy hb]
  exact { h with }

theorem State.Canonical.storeConfig {s : State} (h : s.Canonical) (q : HostReg) (v : Word) :
    (storeConfig q v s).Canonical := by
  cases q <;> exact { h with }

theorem State.Canonical.putList {s : State} (h : s.Canonical) (vs : List Byte) : (putList vs s).Canonical := by
  have hidx := wf_putList h.idx vs
  obtain ⟨idx, hs, -⟩ := putList_spec vs s
  rw [hs] at hidx ⊢
  exact { h with idx := hidx }

theorem RleEffect.keeps_canonical {i : Instr} {s t : State} (he : RleEffect i s t) (h : s.Canonical) :
    t.Canonical := by
  cases he with
  | writes vs _ _ _ ht => rw [ht]; exact { h.putList vs with }
  | moves _ _ _ ht => rw [ht]; exact { h with }
  | stops _ _ _ ht => rw [ht]; exact { h with }

theorem EngineEffect.keeps_canonical {s t : State} (he : EngineEffect s t) (h : s.Canonical) : t.Canonical := by
  cases he with
  | rests _ ht => rw [ht]; exact h
  | fails _ _ _ ht => rw [ht]; exact { h with }
  | accepts _ _ ht => rw [ht]; exact .nextPhase { h with }
  | loads _ _ _ _ _ _ ht => rw [ht]; exact { h with idx := Memory.wf_nil }
  | stops _ _ _ _ _ ht => rw [ht]; exact { h with }
  | executes _ _ _ _ _ _ hr => exact hr.keeps_canonical { h with }
  | waits _ _ ht => rw [ht]; exact h
  | emitsSlice _ _ ht => rw [ht]; exact { h with }
  | emitsRow _ e _ _ hw ht => rw [ht]; cases e <;> exact { h with row := hw }

theorem HostEffect.keeps_canonical {a : HostAccess} {s t : State} (he : HostEffect a s t) (h : s.Canonical) :
    t.Canonical := by
  cases he with
  | starts _ _ _ hb ht => rw [ht]; exact h.startDecode hb
  | stores _ _ v _ q _ ht => rw [ht]; exact h.storeConfig q v
  | ignored ht => rw [ht]; exact h
  | reads _ ht => rw [ht]; exact { h with }

theorem step_keeps_canonical {s t : State} (hstep : step s = .next t) (h : s.Canonical) : t.Canonical := by
  cases step_effect hstep with
  | engine _ _ he => exact he.keeps_canonical { h with }
  | access _ _ _ he => exact he.keeps_canonical { h with }
  | reset _ _ ht => rw [ht]; exact { src := h.src, idx := Memory.wf_nil, row := Memory.wf_nil }
  | srcWrite a b _ _ ht => rw [ht]; exact { h with src := Memory.wf_write h.src a.toNat b }
  | sink _ _ _ ht => rw [ht]; exact { h with }

/-- Settles O49, by everything a step can do. -/
theorem stepKeepsMemoriesCanonical : Obligations.StepKeepsMemoriesCanonical := by
  intro s t hstep hsrc hidx hrow
  obtain ⟨hsrc', hidx', hrow'⟩ := step_keeps_canonical hstep ⟨hsrc, hidx, hrow⟩
  exact ⟨hsrc', hidx', hrow'⟩

end Machine

end Sys2Proof
